-- ==== Sys2Proof/Syntax.lean ====
section
/-! DEFINITION. The ten commands of the engine (R82), one constructor per row of the opcode table. -/

namespace Sys2Proof

/-- A command. The operand of format `S` is the integer `SYM` (R81: "taken as an integer
`0 .. 4095`; it is not scaled, shifted or sign-extended"); its bound is a check of WellFormed. -/
inductive Instr where
  | minit
  | mcumb (sym : Nat)
  | mcume (sym : Nat)
  | mtotal
  | mupd (sym : Nat)
  | einit
  | esym (sym : Nat)
  | eflush
  | dinit
  | dsym
  deriving DecidableEq, Repr

end Sys2Proof
end

