-- ==== Sys2Proof/WellFormed.lean ====
section
/-! DEFINITION. When a command can be encoded: the symbol operand fits its 12-bit field (R80, R81).
Whether the symbol is legal for the instance (`s < K`) is not a matter of encoding: a command with
`K <= s <= 4095` is a command word, and it raises `MODEL_RANGE` when executed (R108). -/

namespace Sys2Proof

/-- The operand fits `cmd[11:0]` (R81). -/
def symbolFits (sym : Nat) : Bool := decide (sym < 2 ^ 12)

/-- Every field of the command has a value its encoding can hold. -/
def Instr.wellFormed : Instr → Bool
  | .minit => true
  | .mcumb sym => symbolFits sym
  | .mcume sym => symbolFits sym
  | .mtotal => true
  | .mupd sym => symbolFits sym
  | .einit => true
  | .esym sym => symbolFits sym
  | .eflush => true
  | .dinit => true
  | .dsym => true

end Sys2Proof
end

