-- ==== Sys2Proof/Word.lean ====
section
/-! DEFINITION. The words of the two host channels. Everything else of the engine that the spec
adds, compares or counts is a natural number (spec R14: "All quantities are unsigned integers"). -/

namespace Sys2Proof

/-- A command word (R80): `cmd[15:12]` is `OP`, `cmd[11:0]` is `SYM` or must be zero. -/
abbrev CmdWord := BitVec 16

/-- A response word (R85): `rsp[39:32]` is `STATUS`, `rsp[31:0]` is `RESULT`. -/
abbrev RspWord := BitVec 40

end Sys2Proof
end

