-- ==== Sys2Proof/Decode.lean ====
section
/-! DEFINITION. The command decoder, total on all 16-bit words and rejecting by name, and the encoder
(R80 to R84). Commands are whole 16-bit words: no byte order takes part (R59). -/

namespace Sys2Proof

/-- What the decoder makes of a word: a command, or the reason it selects none. Both reasons raise
`ILLEGAL_CMD` (R83, R84, R195). -/
inductive Decoded where
  | instr (i : Instr)
  /-- `OP` selects no command (R83). -/
  | reservedOpcode (op : Nat)
  /-- `OP` selects a format-`N` command and `cmd[11:0]` is not zero (R84). -/
  | nonzeroField (op field : Nat)
  deriving DecidableEq, Repr

/-- `OP = cmd[15:12]` (R80). -/
def opField (w : CmdWord) : Nat := (w.extractLsb' 12 4).toNat

/-- `SYM = cmd[11:0]`, zero-extended (R81). -/
def symField (w : CmdWord) : Nat := (w.extractLsb' 0 12).toNat

/-- A format-`N` command is selected only when `cmd[11:0]` is zero (R84). -/
def decodeFormatN (op field : Nat) (i : Instr) : Decoded :=
  if field = 0 then .instr i else .nonzeroField op field

/-- The opcode map (R82), with the reserved opcodes of R83. -/
def decode (w : CmdWord) : Decoded :=
  match opField w with
  | 0x1 => decodeFormatN 0x1 (symField w) .minit
  | 0x2 => .instr (.mcumb (symField w))
  | 0x3 => .instr (.mcume (symField w))
  | 0x4 => decodeFormatN 0x4 (symField w) .mtotal
  | 0x5 => .instr (.mupd (symField w))
  | 0x8 => decodeFormatN 0x8 (symField w) .einit
  | 0x9 => .instr (.esym (symField w))
  | 0xA => decodeFormatN 0xA (symField w) .eflush
  | 0xC => decodeFormatN 0xC (symField w) .dinit
  | 0xD => decodeFormatN 0xD (symField w) .dsym
  | op => .reservedOpcode op

/-- The `OP` of a command (R82). -/
def opcodeOf : Instr → Nat
  | .minit => 0x1
  | .mcumb _ => 0x2
  | .mcume _ => 0x3
  | .mtotal => 0x4
  | .mupd _ => 0x5
  | .einit => 0x8
  | .esym _ => 0x9
  | .eflush => 0xA
  | .dinit => 0xC
  | .dsym => 0xD

/-- The content of `cmd[11:0]`: the operand in format `S`, zero in format `N` (R80). -/
def fieldOf : Instr → Nat
  | .minit => 0
  | .mcumb sym => sym
  | .mcume sym => sym
  | .mtotal => 0
  | .mupd sym => sym
  | .einit => 0
  | .esym sym => sym
  | .eflush => 0
  | .dinit => 0
  | .dsym => 0

/-- The command word `{OP, SYM}` of a command (R80). -/
def encode (i : Instr) : CmdWord :=
  BitVec.ofNat 4 (opcodeOf i) ++ BitVec.ofNat 12 (fieldOf i)

/-- The mnemonic of a command as R82 spells it. -/
def mnemonicOf : Instr → String
  | .minit => "MINIT"
  | .mcumb _ => "MCUMB"
  | .mcume _ => "MCUME"
  | .mtotal => "MTOTAL"
  | .mupd _ => "MUPD"
  | .einit => "EINIT"
  | .esym _ => "ESYM"
  | .eflush => "EFLUSH"
  | .dinit => "DINIT"
  | .dsym => "DSYM"

/-- One row of the opcode map: "a word `cmd` is the command of a row exactly when
`(cmd & mask) = match`" (R82). -/
structure OpcodeRow where
  mnemonic : String
  matchBits : CmdWord
  mask : CmdWord
  deriving DecidableEq, Repr

/-- The word is a command of the row (R82). -/
def OpcodeRow.selects (r : OpcodeRow) (w : CmdWord) : Bool := w &&& r.mask == r.matchBits

/-- The match and mask columns of R82. The decoder does not use them: that it agrees with them is a
statement about it. -/
def opcodeTable : List OpcodeRow := [
  { mnemonic := "MINIT",  matchBits := 0x1000, mask := 0xFFFF },
  { mnemonic := "MCUMB",  matchBits := 0x2000, mask := 0xF000 },
  { mnemonic := "MCUME",  matchBits := 0x3000, mask := 0xF000 },
  { mnemonic := "MTOTAL", matchBits := 0x4000, mask := 0xFFFF },
  { mnemonic := "MUPD",   matchBits := 0x5000, mask := 0xF000 },
  { mnemonic := "EINIT",  matchBits := 0x8000, mask := 0xFFFF },
  { mnemonic := "ESYM",   matchBits := 0x9000, mask := 0xF000 },
  { mnemonic := "EFLUSH", matchBits := 0xA000, mask := 0xFFFF },
  { mnemonic := "DINIT",  matchBits := 0xC000, mask := 0xFFFF },
  { mnemonic := "DSYM",   matchBits := 0xD000, mask := 0xFFFF }]

/-- The command word that holds the low `nbits` bits of `w` and zeros above them. -/
def tableWord (nbits w : Nat) : CmdWord := BitVec.ofNat 16 (w % 2 ^ nbits)

/-- The command the decoder reads from the bits `w` of an opcode-table row. Every row has 16 bits
(R80); a longer word is no command of this engine. -/
def decodeTableWord (nbits w : Nat) : Option Instr :=
  if nbits ≤ 16 then
    match decode (tableWord nbits w) with
    | .instr i => some i
    | .reservedOpcode _ => none
    | .nonzeroField _ _ => none
  else none

end Sys2Proof
end

