-- ==== Sys2Proof/Config.lean ====
section
/-! DEFINITION. What an instance fixes for its life (R8 to R10) and the one uninterpreted source of
free values. The constants derived from the parameters and their validity are in
Machine/Constants.lean. -/

namespace Sys2Proof

/-- The implementation parameters of one instance: `PRECISION` (R8), `K` (R9), `MAX_TOTAL` (R10).
Any naturals are allowed: an instance whose set is not valid comes out of reset in `FAULT` (R12). -/
structure Params where
  precision : Nat
  k : Nat
  maxTotal : Nat
  deriving DecidableEq, Repr

/-- The production instance `(32, 257, 2^30)` (R13). -/
def Params.production : Params := { precision := 32, k := 257, maxTotal := 2 ^ 30 }

/-- The `n`-th free value of a run: the value the spec leaves unspecified (R202, R222). It has no
body anyone can use: a claim that holds, holds for every choice (log 10). -/
opaque Config.freeValue : Nat → Nat

end Sys2Proof
end

