-- ==== Sys2Proof/Machine/Constants.lean ====
section
/-! DEFINITION. The constants derived from the parameters (R11) and the validity of a parameter set
(R12). -/

namespace Sys2Proof

/-- `WHOLE = 2^P` (R8, R11). -/
def Params.whole (p : Params) : Nat := 2 ^ p.precision

/-- `HALF = WHOLE / 2 = 2^(P-1)` (R11). -/
def Params.half (p : Params) : Nat := 2 ^ (p.precision - 1)

/-- `QUARTER = WHOLE / 4 = 2^(P-2)` (R11). -/
def Params.quarter (p : Params) : Nat := 2 ^ (p.precision - 2)

/-- `3·QUARTER` (R11). -/
def Params.threeQuarter (p : Params) : Nat := 3 * p.quarter

/-- `EOS = K - 1`, the end-of-stream symbol (R11). -/
def Params.eosSym (p : Params) : Nat := p.k - 1

/-- `CNT_W = P - 1`, the width of a frequency and of `total` (R11). -/
def Params.cntW (p : Params) : Nat := p.precision - 1

/-- `PEND_W = 32` (R11). -/
def pendW : Nat := 32

/-- `V1` to `V4` of R12. -/
def Params.valid (p : Params) : Bool :=
  decide (4 ≤ p.precision ∧ p.precision ≤ 32) &&
  decide (2 ≤ p.k ∧ p.k ≤ 4096) &&
  decide (p.k < p.maxTotal) &&
  decide (p.maxTotal ≤ p.quarter)

end Sys2Proof
end

