-- ==== Sys2Proof/Machine/State.lean ====
section
/-! DEFINITION. The state of one engine instance and of the collaborators its behaviour depends on
(R20), the reasons a step can stop, and the state right after reset. -/

namespace Sys2Proof.Machine

/-- `STATUS.MODE` (R28, R203). The codes 5 to 7 are never held and have no constructor (U16). -/
inductive Mode where
  | idle | enc | dec | done | fault
  deriving DecidableEq, Repr

/-- `STATUS.CAUSE` (R28, R190). The codes 8 to 15 are never held and have no constructor (U16). -/
inductive Cause where
  | none | modelRange | modelConfig | io | invariant | illegalCmd | sequence | pendingOvf
  deriving DecidableEq, Repr

/-- An event of the sink trace `OUT` (R53, R55). -/
inductive SinkEvent where
  | bit (b : Bool)
  | flush
  deriving DecidableEq, Repr

/-- What the outside does next (log 5): the host presents a command word (R66); the reset input is
asserted between two commands, or while the command word `w` is executing, after `ops` of its sink
and source operations (R220, log 12); the environment places a stream in the bit source and
positions it at its first bit (R223 (4), log 13). -/
inductive Input where
  | command (w : CmdWord)
  | reset
  | resetDuring (w : CmdWord) (ops : Nat)
  | placeSource (bits : List Bool)
  deriving DecidableEq, Repr

/-- The frequency table `freq[0 .. K-1]`: entry `s` is the `s`-th element (R51). -/
abbrev FreqTable := List Nat

/-- The state. The registers whose width depends on `P` are naturals; the widths are part of
`State.Inv` (log 2). -/
structure State where
  /-- the instance's parameters, which no step changes (R8 to R10, log 1) -/
  cfg : Params
  /-- `freq` (R21) -/
  freq : FreqTable
  /-- `total` (R22) -/
  total : Nat
  /-- `low` (R24) -/
  low : Nat
  /-- `high` (R25) -/
  high : Nat
  /-- `pending` (R26) -/
  pending : BitVec 32
  /-- `z` (R27) -/
  z : Nat
  /-- `STATUS.MODE` (R28) -/
  mode : Mode
  /-- `STATUS.EOS` (R28) -/
  eos : Bool
  /-- `STATUS.CAUSE` (R28) -/
  cause : Cause
  /-- `RESULT` (R29) -/
  result : BitVec 32
  /-- what the outside still does, oldest first (R66, R220) -/
  inputs : List Input
  /-- the response words returned, oldest first (R66, R85) -/
  responses : List RspWord
  /-- `OUT`, oldest event first (R53) -/
  out : List SinkEvent
  /-- `IN` (R56) -/
  source : List Bool
  /-- `rpos` (R56) -/
  rpos : Nat
  /-- how many sink and source operations the run has made (D21) -/
  ioOps : Nat
  /-- `io_fail`: the indexes of the operations the environment fails (R65, D21, log 9) -/
  ioFail : List Nat
  /-- the MODEL's own field: how many free values the run has taken (log 10) -/
  draws : Nat
  deriving DecidableEq, Repr

/-- Why the machine stops. The spec's own faults are not here: they are states (R199). -/
inductive Fault where
  /-- Raised by `ESYM` and `DSYM` when the renormalisation loop of R137 or R163 has made `P - 1`
  iterations and its region is still not `NONE`. By R139 that happens in no state a run reaches: it
  needs `low` or `high` above `WHOLE`, or `low >= high`. Safe: the model stops where the spec's loop
  would go on (log 14). -/
  | renormDiverges
  deriving DecidableEq, Repr

/-- Why an instruction has no meaning. -/
inductive Refusal where
  /-- Raised by exec for an instruction whose meaning is not written yet; none is left. Safe: the
  model stops. -/
  | notModelled (mnemonic : String)
  deriving DecidableEq, Repr

/-- The state right after reset of the production instance (R13, R35, R221), with nothing presented
by the host, an empty source and sink, and an environment that never fails (log 5, 8, 9). -/
def State.reset : State where
  cfg := Params.production
  freq := List.replicate Params.production.k 1
  total := Params.production.k
  low := 0
  high := Params.production.whole
  pending := 0
  z := 0
  mode := .idle
  eos := false
  cause := .none
  result := 0
  inputs := []
  responses := []
  out := []
  source := []
  rpos := 0
  ioOps := 0
  ioFail := []
  draws := 0

end Sys2Proof.Machine
end

