-- ==== Sys2Proof/Machine/Flags.lean ====
section
/-! DEFINITION. The status register as the host reads it (R28, R85), the legality of each command in
each mode (R203), and the three comparisons of the interval, recomputed each time (R31, R134). The
engine has no arithmetic condition codes (R31). -/

namespace Sys2Proof.Machine

/-- The code of a mode in `STATUS[2:0]` (R28). -/
def Mode.code : Mode → BitVec 3
  | .idle => 0
  | .enc => 1
  | .dec => 2
  | .done => 3
  | .fault => 4

/-- The code of a cause in `STATUS[7:4]` (R28, R190). -/
def Cause.code : Cause → BitVec 4
  | .none => 0
  | .modelRange => 1
  | .modelConfig => 2
  | .io => 3
  | .invariant => 4
  | .illegalCmd => 5
  | .sequence => 6
  | .pendingOvf => 7

/-- The causes whose registers are unspecified after the fault (R202). `MODEL_CONFIG`, which is
raised by reset and not by a command, has its own rule (R222). -/
def Cause.imprecise : Cause → Bool
  | .none => false
  | .modelRange => false
  | .modelConfig => false
  | .io => true
  | .invariant => false
  | .illegalCmd => false
  | .sequence => false
  | .pendingOvf => true

/-- `STATUS`: `{CAUSE, EOS, MODE}` (R28). -/
def statusWord (s : State) : BitVec 8 := s.cause.code ++ BitVec.ofBool s.eos ++ s.mode.code

/-- The response word `{STATUS[7:0], RESULT[31:0]}` (R85). -/
def responseWord (s : State) : RspWord := statusWord s ++ s.result

/-- Legal in every mode but `FAULT`. -/
def Mode.running : Mode → Bool
  | .idle => true
  | .enc => true
  | .dec => true
  | .done => true
  | .fault => false

/-- The legality matrix (R203): true where the matrix says `Y`. -/
def legalIn (i : Instr) (m : Mode) : Bool :=
  match i with
  | .minit => m.running
  | .mcumb _ => m.running
  | .mcume _ => m.running
  | .mtotal => m.running
  | .mupd _ => decide (m = .idle)
  | .einit => m.running
  | .esym _ => decide (m = .enc)
  | .eflush => decide (m = .enc)
  | .dinit => m.running
  | .dsym => decide (m = .dec)

/-- The result of `region` (R134). -/
inductive Region where
  | left | right | middle | none
  deriving DecidableEq, Repr

/-- `region(low, high)`: the tests in the order of R134, all comparisons strict. -/
def region (p : Params) (low high : Nat) : Region :=
  if high < p.half then .left
  else if p.half < low then .right
  else if p.quarter < low ∧ high < p.threeQuarter then .middle
  else .none

/-- What a renormalisation step of a region subtracts before doubling (R137, R163). -/
def regionOffset (p : Params) : Region → Nat
  | .left => 0
  | .right => p.half
  | .middle => p.quarter
  | .none => 0

end Sys2Proof.Machine
end

