-- ==== Sys2Proof/Machine/Operands.lean ====
section
/-! DEFINITION. The one operand form: a symbol index (R81), and its range check (R108). -/

namespace Sys2Proof.Machine

/-- The symbol operand of a command of format `S`; a command of format `N` has none (R80, R81). -/
def symbolOperand : Instr → Option Nat
  | .minit => .none
  | .mcumb sym => some sym
  | .mcume sym => some sym
  | .mtotal => .none
  | .mupd sym => some sym
  | .einit => .none
  | .esym sym => some sym
  | .eflush => .none
  | .dinit => .none
  | .dsym => .none

/-- The operand, if there is one, is a symbol of the instance: `s < K` (R81, R108). -/
def operandInRange (p : Params) (i : Instr) : Bool :=
  match symbolOperand i with
  | .none => true
  | some sym => decide (sym < p.k)

/-- `zext_32(v)`, for `v < 2^32` (R14). -/
def zext32 (v : Nat) : BitVec 32 := BitVec.ofNat 32 v

end Sys2Proof.Machine
end

