-- ==== Sys2Proof/Machine/Ops.lean ====
section
/-! DEFINITION. The operations every meaning shares: how a command's pseudocode goes on or raises
(R16), the sink and source primitives (R53 to R57, R65), taking a fault (R199, R202), the model's
construction and reset (R103, R220 to R222), the checks before a command's own rule (R86), and the
response (R85). There is no return from a fault but reset (R200). -/

namespace Sys2Proof.Machine

/-- How a piece of pseudocode ends: it goes on with a value, it executes `raise c` in the state
reached, or it cannot end (log 14). -/
inductive Flow (α : Type) where
  | go (a : α) (s : State)
  | raised (c : Cause) (s : State)
  | stuck (r : Fault)

/-- "No pseudocode line after a `raise` is executed" (R16). -/
def Flow.bind {α β : Type} (x : Flow α) (k : α → State → Flow β) : Flow β :=
  match x with
  | .go a s => k a s
  | .raised c s => .raised c s
  | .stuck r => .stuck r

/-! ### Sink and source -/

/-- One sink or source operation is made and answered: normally, or with failure (R65, log 9). -/
def ioAttempt (s : State) : Flow Unit :=
  if s.ioOps ∈ s.ioFail then .raised .io { s with ioOps := s.ioOps + 1 }
  else .go () { s with ioOps := s.ioOps + 1 }

/-- `sink.writeBit(b)` (R53). A failed operation appends nothing (R65). -/
def writeBit (b : Bool) (s : State) : Flow Unit :=
  (ioAttempt s).bind fun _ t => .go () { t with out := t.out ++ [.bit b] }

/-- `sink.writeBits(b, n)`: `n` successive `writeBit(b)` (R54). -/
def writeBits (b : Bool) : Nat → State → Flow Unit
  | 0, s => .go () s
  | n + 1, s => (writeBit b s).bind fun _ t => writeBits b n t

/-- `sink.flush()` (R55). -/
def flush (s : State) : Flow Unit :=
  (ioAttempt s).bind fun _ t => .go () { t with out := t.out ++ [.flush] }

/-- `src.isExhausted()` (R56). -/
def isExhausted (s : State) : Flow Bool :=
  (ioAttempt s).bind fun _ t => .go (decide (t.source.length ≤ t.rpos)) t

/-- `src.readBit()` (R56); called only when the source is not exhausted (R57). A failed operation
does not advance `rpos` (R65). -/
def readBit (s : State) : Flow Bool :=
  (ioAttempt s).bind fun _ t =>
    .go (t.source.getD t.rpos false) { t with rpos := t.rpos + 1 }

/-- `nextbit()`: a source bit, or 0 once the source is exhausted (R57). -/
def nextBit (s : State) : Flow Bool :=
  (isExhausted s).bind fun e t => if e then .go false t else readBit t

/-! ### Unspecified values and faults -/

/-- A free value of the given width: any value a register of that width can hold (log 10). -/
def freeReg (s : State) (n width : Nat) : Nat := Config.freeValue (s.draws + n) % 2 ^ width

/-- `freq`, `total`, `low`, `high`, `pending`, `z` hold unspecified values (R202, R222). -/
def unspecify (s : State) : State :=
  { s with
    total := freeReg s 0 s.cfg.cntW
    low := freeReg s 1 (s.cfg.precision + 1)
    high := freeReg s 2 (s.cfg.precision + 1)
    z := freeReg s 3 s.cfg.precision
    pending := BitVec.ofNat 32 (freeReg s 4 32)
    freq := (List.range s.cfg.k).map fun n => freeReg s (5 + n) s.cfg.cntW
    draws := s.draws + 5 + s.cfg.k }

/-- TAKING A FAULT: `raise F(cmd)` (R199) in the state `s` reached when it is executed. `STATUS.EOS`
is unchanged, `RESULT` records the command word, and after an imprecise fault the other registers
are unspecified (R202). Events already in `OUT` and bits already consumed stay. -/
def enterFault (c : Cause) (cmd : CmdWord) (s : State) : State :=
  { (if c.imprecise then unspecify s else s) with
    mode := .fault
    cause := c
    result := cmd.setWidth 32 }

/-- The command ends: completed, or with the fault it raised. -/
def finish (cmd : CmdWord) (x : Flow Unit) : Host.Outcome State Fault Refusal :=
  match x with
  | .go _ s => .next s
  | .raised c s => .next (enterFault c cmd s)
  | .stuck r => .fault r

/-- The checks (1), (3) and (4) of R86 in their order, then the command's own rule (5). Check (2),
that the word is a command at all, is the decoder's. -/
def checkedRun (i : Instr) (s : State) (rule : State → Flow Unit) : Host.Outcome State Fault Refusal :=
  if s.mode = .fault then .next s
  else if legalIn i s.mode = false then .next (enterFault .sequence (encode i) s)
  else if operandInRange s.cfg i = false then .next (enterFault .modelRange (encode i) s)
  else finish (encode i) (rule s)

/-- A word that is no command (R86 (1) and (2), R195). -/
def illegalCommand (w : CmdWord) (s : State) : State :=
  if s.mode = .fault then s else enterFault .illegalCmd w s

/-! ### Construction, reset, response -/

/-- `model_init()` (R103). -/
def modelInit (s : State) : State :=
  { s with freq := List.replicate s.cfg.k 1, total := s.cfg.k }

/-- The canonical start values of the model and of the coder registers (R35), which reset, `MINIT`,
`EINIT` and `DINIT` all establish. -/
def canonicalStart (s : State) : State :=
  { modelInit s with low := 0, high := s.cfg.whole, pending := 0, z := 0 }

/-- Reset (R220 to R222). The environment (`OUT`, `IN`, `rpos`) is not touched. -/
def resetEngine (s : State) : State :=
  if s.cfg.valid then
    { canonicalStart s with mode := .idle, eos := false, cause := .none, result := 0 }
  else
    { unspecify s with mode := .fault, eos := false, cause := .modelConfig, result := 0 }

/-- The state of the instance `p` right after reset, in the environment of `State.reset`. -/
def resetStateOf (p : Params) : State := resetEngine { State.reset with cfg := p }

/-- Exactly one response word for each command accepted (R66, R85). -/
def respond (s : State) : State := { s with responses := s.responses ++ [responseWord s] }

end Sys2Proof.Machine
end

