-- ==== Sys2Proof/Machine/Table.lean ====
section
/-! DEFINITION. The frequency table and the model's functions (R51, R100 to R105). All arithmetic is
on naturals; under the model invariants nothing wraps (R107, R109). -/

namespace Sys2Proof.Machine

/-- The form of the table: one entry for each symbol, each of `CNT_W` bits (R21, R51). A list with
one place for each index is its own canonical form (log 4). -/
def Memory.wf (p : Params) (t : FreqTable) : Bool :=
  decide (t.length = p.k) && t.all fun f => decide (f < 2 ^ p.cntW)

/-- `MemRead`: `freq[s]` (R51). No command reads an index at or above `K`. -/
def readFreq (t : FreqTable) (sym : Nat) : Nat := t.getD sym 0

/-- `MemWrite`: `freq[s] <- v` (R51). -/
def writeFreq (t : FreqTable) (sym v : Nat) : FreqTable := t.set sym v

/-- `cumBegin(s)`: the sum of the frequencies of all symbols below `s` (R100). -/
def cumBegin (t : FreqTable) (sym : Nat) : Nat := (t.take sym).sum

/-- `cumEnd(s) = cumBegin(s) + freq[s]` (R101). -/
def cumEnd (t : FreqTable) (sym : Nat) : Nat := cumBegin t sym + readFreq t sym

/-- One entry of a rescale: `freq[s] div 2`, floored at 1 (R105). -/
def halve (f : Nat) : Nat := if f / 2 < 1 then 1 else f / 2

/-- `rescale()` (R105). -/
def rescale (s : State) : State :=
  { s with freq := s.freq.map halve, total := (s.freq.map halve).sum }

/-- `update(s)`: the test against `MAX_TOTAL` is made before the increment (R104). -/
def update (sym : Nat) (s : State) : State :=
  let t := if s.cfg.maxTotal ≤ s.total then rescale s else s
  { t with freq := writeFreq t.freq sym (readFreq t.freq sym + 1), total := t.total + 1 }

end Sys2Proof.Machine
end

