-- ==== Sys2Proof/Machine/Interval.lean ====
section
/-! DEFINITION. The coder's arithmetic: rounding and narrowing (R130, R132), the encoder's
renormalisation (R136 to R138), and the decoder's start-up, search and renormalisation (R160, R161,
R163). The loops carry the bound of R139 as fuel: `P - 1` iterations and one last look (log 14). -/

namespace Sys2Proof.Machine

/-- `rnd(w, c, T) = (2*w*c + T) div (2*T)`, exact: nearest, a tie goes up (R130). -/
def rnd (w c T : Nat) : Nat := (2 * w * c + T) / (2 * T)

/-- `narrow(low, high, cb, ce, T)`, as the pair `(a0, b0)` (R132). -/
def narrow (low high cb ce T : Nat) : Nat × Nat :=
  let w := high - low
  (low + rnd w cb T, low + rnd w ce T)

/-- `narrow_s` in the current state (R132). -/
def narrowSym (s : State) (sym : Nat) : Nat × Nat :=
  narrow s.low s.high (cumBegin s.freq sym) (cumEnd s.freq sym) s.total

/-- Subtract the region's offset from both ends, then double (R137, R163). -/
def expandInterval (r : Region) (s : State) : State :=
  { s with
    low := 2 * (s.low - regionOffset s.cfg r)
    high := 2 * (s.high - regionOffset s.cfg r) }

/-- `emit_with_pending(b)`: the decided bit, then the deferred opposite bits (R136). -/
def emitWithPending (b : Bool) (s : State) : Flow Unit :=
  (writeBit b s).bind fun _ t =>
  (writeBits (!b) t.pending.toNat t).bind fun _ u =>
  .go () { u with pending := 0 }

/-- `inc_pending()` (R138). -/
def incPending (s : State) : Flow Unit :=
  if s.pending.toNat = 2 ^ pendW - 1 then .raised .pendingOvf s
  else .go () { s with pending := s.pending + 1 }

/-- `enc_renorm()` (R137). -/
def encRenorm : Nat → State → Flow Unit
  | 0, _ => .stuck .renormDiverges
  | n + 1, s =>
    match region s.cfg s.low s.high with
    | .none => .go () s
    | .left =>
      (emitWithPending false s).bind fun _ t => encRenorm n (expandInterval .left t)
    | .right =>
      (emitWithPending true s).bind fun _ t => encRenorm n (expandInterval .right t)
    | .middle =>
      (incPending s).bind fun _ t => encRenorm n (expandInterval .middle t)

/-- `n` times `z <- 2*z + nextbit()` (R160). -/
def shiftInBits : Nat → State → Flow Unit
  | 0, s => .go () s
  | n + 1, s => (nextBit s).bind fun b t => shiftInBits n { t with z := 2 * t.z + b.toNat }

/-- `load_z()` (R160). -/
def loadZ (s : State) : Flow Unit := shiftInBits s.cfg.precision { s with z := 0 }

/-- The candidate `s` matches: `a0(s) <= z < b0(s)` (R161). -/
def symMatches (s : State) (sym : Nat) : Bool :=
  decide ((narrowSym s sym).1 ≤ s.z) && decide (s.z < (narrowSym s sym).2)

/-- `find_symbol()`: the one symbol whose narrowed interval contains `z`, or nothing when there is
none or more than one (R161). -/
def findSymbol (s : State) : Option Nat :=
  match (List.range s.cfg.k).filter (symMatches s) with
  | [sym] => some sym
  | _ => .none

/-- The decoder's step of a region: all three registers, and one bit consumed (R163). -/
def decExpand (r : Region) (s : State) : Flow Unit :=
  let t := expandInterval r s
  (nextBit t).bind fun b u =>
  .go () { u with z := 2 * (u.z - regionOffset u.cfg r) + b.toNat }

/-- `dec_renorm()` (R163). -/
def decRenorm : Nat → State → Flow Unit
  | 0, _ => .stuck .renormDiverges
  | n + 1, s =>
    match region s.cfg s.low s.high with
    | .none => .go () s
    | .left => (decExpand .left s).bind fun _ t => decRenorm n t
    | .right => (decExpand .right s).bind fun _ t => decRenorm n t
    | .middle => (decExpand .middle s).bind fun _ t => decRenorm n t

end Sys2Proof.Machine
end

