-- ==== Sys2Proof/Machine/DecodeCommands.lean ====
section
/-! DEFINITION. The decode commands `DINIT` and `DSYM` (R165, R166). -/

namespace Sys2Proof.Machine

/-- `DINIT` (R165). -/
def execDinit (s : State) : Host.Outcome State Fault Refusal :=
  checkedRun .dinit s fun s =>
    (loadZ (canonicalStart s)).bind fun _ t =>
    .go () { t with mode := .dec, eos := false, result := 0 }

/-- The pseudocode of `DSYM` (R166). When the symbol is `EOS` only `STATUS` and `RESULT` change; else
the update comes before the renormalisation. -/
def decodeSymbol (s : State) : Flow Unit :=
  match findSymbol s with
  | .none => .raised .invariant s
  | some sym =>
    if sym = s.cfg.eosSym then
      .go () { s with eos := true, mode := .done, result := zext32 sym }
    else
      let ab := narrowSym s sym
      (decRenorm s.cfg.precision (update sym { s with low := ab.1, high := ab.2 })).bind fun _ t =>
      .go () { t with result := zext32 sym }

/-- `DSYM` (R166). -/
def execDsym (s : State) : Host.Outcome State Fault Refusal :=
  checkedRun .dsym s decodeSymbol

end Sys2Proof.Machine
end

