-- ==== Sys2Proof/Machine/EncodeCommands.lean ====
section
/-! DEFINITION. The encode commands `EINIT`, `ESYM`, `EFLUSH` (R140 to R142). -/

namespace Sys2Proof.Machine

/-- `EINIT` (R140). -/
def execEinit (s : State) : Host.Outcome State Fault Refusal :=
  checkedRun .einit s fun s =>
    .go () { canonicalStart s with mode := .enc, eos := false, result := 0 }

/-- The pseudocode of `ESYM s` after the range check (R141): the check of the narrowed pair, the
renormalisation, and the update after it. -/
def encodeSymbol (sym : Nat) (s : State) : Flow Unit :=
  let ab := narrowSym s sym
  if ab.2 ≤ ab.1 then .raised .invariant s
  else
    (encRenorm s.cfg.precision { s with low := ab.1, high := ab.2 }).bind fun _ t =>
    .go () { update sym t with result := 0 }

/-- `ESYM s` (R141). -/
def execEsym (sym : Nat) (s : State) : Host.Outcome State Fault Refusal :=
  checkedRun (.esym sym) s (encodeSymbol sym)

/-- The pseudocode of `EFLUSH` (R142). The comparison is `<=`. -/
def terminateStream (s : State) : Flow Unit :=
  (incPending s).bind fun _ t =>
  (emitWithPending (!decide (t.low ≤ t.cfg.quarter)) t).bind fun _ u =>
  (flush u).bind fun _ v =>
  .go () { v with mode := .done, result := 0 }

/-- `EFLUSH` (R142). -/
def execEflush (s : State) : Host.Outcome State Fault Refusal :=
  checkedRun .eflush s terminateStream

end Sys2Proof.Machine
end

