-- ==== Sys2Proof/Machine/ModelCommands.lean ====
section
/-! DEFINITION. The model commands `MINIT`, `MCUMB`, `MCUME`, `MTOTAL`, `MUPD` (R110 to R114). -/

namespace Sys2Proof.Machine

/-- `MINIT` (R110). -/
def execMinit (s : State) : Host.Outcome State Fault Refusal :=
  checkedRun .minit s fun s =>
    .go () { canonicalStart s with mode := .idle, eos := false, result := 0 }

/-- `MCUMB s` (R111). -/
def execMcumb (sym : Nat) (s : State) : Host.Outcome State Fault Refusal :=
  checkedRun (.mcumb sym) s fun s => .go () { s with result := zext32 (cumBegin s.freq sym) }

/-- `MCUME s` (R112). -/
def execMcume (sym : Nat) (s : State) : Host.Outcome State Fault Refusal :=
  checkedRun (.mcume sym) s fun s => .go () { s with result := zext32 (cumEnd s.freq sym) }

/-- `MTOTAL` (R113). -/
def execMtotal (s : State) : Host.Outcome State Fault Refusal :=
  checkedRun .mtotal s fun s => .go () { s with result := zext32 s.total }

/-- `MUPD s` (R114). -/
def execMupd (sym : Nat) (s : State) : Host.Outcome State Fault Refusal :=
  checkedRun (.mupd sym) s fun s => .go () { update sym s with result := 0 }

end Sys2Proof.Machine
end

