-- ==== Sys2Proof/Machine/Dispatch.lean ====
section
/-! DEFINITION. One arm per command: the meaning of each (R82). -/

namespace Sys2Proof.Machine

def exec (i : Instr) (s : State) : Host.Outcome State Fault Refusal :=
  match i with
  | .minit => Sys2Proof.Machine.execMinit s
  | .mcumb sym => Sys2Proof.Machine.execMcumb sym s
  | .mcume sym => Sys2Proof.Machine.execMcume sym s
  | .mtotal => Sys2Proof.Machine.execMtotal s
  | .mupd sym => Sys2Proof.Machine.execMupd sym s
  | .einit => Sys2Proof.Machine.execEinit s
  | .esym sym => Sys2Proof.Machine.execEsym sym s
  | .eflush => Sys2Proof.Machine.execEflush s
  | .dinit => Sys2Proof.Machine.execDinit s
  | .dsym => Sys2Proof.Machine.execDsym s

end Sys2Proof.Machine
end

