-- ==== Sys2Proof/Machine/Command.lean ====
section
/-! DEFINITION. What one input of the outside does to the machine: a command word accepted, executed
and answered (R66, R86), the reset input (R220), a stream placed in the source (R223 (4)). -/

namespace Sys2Proof.Machine

/-- The command completed or raised its fault: one response word is returned (R66, R85). -/
def answer (x : Host.Outcome State Fault Refusal) : Host.Outcome State Fault Refusal :=
  match x with
  | .next s => .next (respond s)
  | .fault r => .fault r
  | .refused r => .refused r

/-- One command word, from its acceptance to its response (R66, R86). -/
def runCommand (w : CmdWord) (s : State) : Host.Outcome State Fault Refusal :=
  match decode w with
  | .instr i => answer (exec i s)
  | .reservedOpcode _ => answer (.next (illegalCommand w s))
  | .nonzeroField _ _ => answer (.next (illegalCommand w s))

/-- Reset asserted while `w` is executing, after `ops` of its sink and source operations: the
operations made so far stay made, the command is dropped without a response, and the engine is reset
(R220, U23). The operation reset prevents is found by cutting the command there, as a failure would
(log 12); it is not counted. -/
def resetInside (w : CmdWord) (ops : Nat) (s : State) : Host.Outcome State Fault Refusal :=
  match runCommand w { s with ioFail := (s.ioOps + ops) :: s.ioFail } with
  | .next t =>
    .next (resetEngine { t with
      ioFail := s.ioFail
      ioOps := min t.ioOps (s.ioOps + ops)
      responses := s.responses })
  | .fault r => .fault r
  | .refused r => .refused r

/-- One input of the outside. -/
def takeInput (e : Input) (s : State) : Host.Outcome State Fault Refusal :=
  match e with
  | .command w => runCommand w s
  | .reset => .next (resetEngine s)
  | .resetDuring w ops => resetInside w ops s
  | .placeSource bits => .next { s with source := bits, rpos := 0 }

end Sys2Proof.Machine
end

