-- ==== Sys2Proof/Machine/Assembler.lean ====
section
/-! DEFINITION. The assembler spelling of commands (R87): mnemonic, and for format `S` one operand after
a space: a decimal number, a `0x` hexadecimal number, a quoted ASCII character, or the word `EOS`.
Comments start with `;`. Text is a list of characters; what R87 does not say of layout is log 18. -/

namespace Sys2Proof.Machine

/-- A blank between the parts of a line. -/
def isBlank (c : Char) : Bool := c == ' ' || c == '\t'

/-- Nothing follows on the line but blanks and a comment. -/
def lineEnds (cs : List Char) : Bool :=
  match cs.dropWhile isBlank with
  | [] => true
  | c :: _ => c == ';'

/-- The value of a decimal digit. -/
def decDigit (c : Char) : Option Nat :=
  if c.isDigit then some (c.toNat - '0'.toNat) else none

/-- The value of a hexadecimal digit, of either case. -/
def hexDigit (c : Char) : Option Nat :=
  if c.isDigit then some (c.toNat - '0'.toNat)
  else if 'a' ≤ c ∧ c ≤ 'f' then some (c.toNat - 'a'.toNat + 10)
  else if 'A' ≤ c ∧ c ≤ 'F' then some (c.toNat - 'A'.toNat + 10)
  else none

/-- The number the characters spell in a base, of at least one digit. -/
def numberIn (base : Nat) (digit : Char → Option Nat) : List Char → Option Nat
  | [] => none
  | cs => cs.foldl (fun acc c => acc.bind fun n => (digit c).map fun d => base * n + d) (some 0)

/-- The value of an operand's characters, blanks removed (R87); `EOS` is `K - 1`. -/
def operandValue (p : Params) (cs : List Char) : Option Nat :=
  match cs with
  | ['E', 'O', 'S'] => some p.eosSym
  | '0' :: 'x' :: ds => numberIn 16 hexDigit ds
  | _ => numberIn 10 decDigit cs

/-- The operand that stands at the head of the text, with nothing but a comment after it. A quoted
character is taken first, since it may be a blank or a semicolon. -/
def parseOperand (p : Params) (cs : List Char) : Option Nat :=
  match cs.dropWhile isBlank with
  | '\'' :: c :: '\'' :: rest => if lineEnds rest ∧ c.toNat < 128 then some c.toNat else none
  | text =>
    let word := text.takeWhile fun c => !isBlank c && c != ';'
    if lineEnds (text.drop word.length) then operandValue p word else none

/-- The command of a mnemonic, given the rest of its line. -/
def assembleMnemonic (p : Params) (word rest : List Char) : Option Instr :=
  let plain := fun (i : Instr) => if lineEnds rest then some i else none
  let withSymbol := fun (f : Nat → Instr) =>
    match rest with
    | c :: _ =>
      if isBlank c then
        (parseOperand p rest).bind fun sym => if symbolFits sym then some (f sym) else none
      else none
    | [] => none
  if word = "MINIT".toList then plain .minit
  else if word = "MCUMB".toList then withSymbol .mcumb
  else if word = "MCUME".toList then withSymbol .mcume
  else if word = "MTOTAL".toList then plain .mtotal
  else if word = "MUPD".toList then withSymbol .mupd
  else if word = "EINIT".toList then plain .einit
  else if word = "ESYM".toList then withSymbol .esym
  else if word = "EFLUSH".toList then plain .eflush
  else if word = "DINIT".toList then plain .dinit
  else if word = "DSYM".toList then plain .dsym
  else none

/-- One line: nothing (`some []`), one command, or an error. -/
def assembleLine (p : Params) (line : List Char) : Option (List Instr) :=
  if lineEnds line then some []
  else
    let text := line.dropWhile isBlank
    let word := text.takeWhile fun c => !isBlank c && c != ';'
    (assembleMnemonic p word (text.drop word.length)).map fun i => [i]

/-- "A program is a list of commands, one per line, executed top to bottom" (R87). -/
def assemble (p : Params) (lines : List (List Char)) : Option (List Instr) :=
  lines.foldr (fun line acc => (assembleLine p line).bind fun is => acc.map fun js => is ++ js) (some [])

end Sys2Proof.Machine
end

