-- ==== Sys2Proof/Machine/Session.lean ====
section
/-! DEFINITION. The host's pseudo-instructions `ENCODE` and `DECODE` (R88): command sequences the host
issues. "The engine knows nothing of them." -/

namespace Sys2Proof.Machine

/-- The host issues one command and waits for its response. -/
def issue (i : Instr) (s : State) : Host.Outcome State Fault Refusal := runCommand (encode i) s

/-- The host issues the commands in order. -/
def issueAll : List Instr → State → Host.Outcome State Fault Refusal
  | [], s => .next s
  | i :: rest, s =>
    match issue i s with
    | .next t => issueAll rest t
    | .fault r => .fault r
    | .refused r => .refused r

/-- `ENCODE b1 ... bn`: `EINIT`, one `ESYM` per data symbol, `ESYM EOS`, `EFLUSH` (R88, R144). -/
def encodeCommands (p : Params) (data : List Nat) : List Instr :=
  .einit :: (data.map Instr.esym ++ [.esym p.eosSym, .eflush])

/-- The host runs `ENCODE`. -/
def runEncode (data : List Nat) (s : State) : Host.Outcome State Fault Refusal :=
  issueAll (encodeCommands s.cfg data) s

/-- The bits of a sequence of sink events: the `b` of its `Bit(b)` events, in order (R53). -/
def emittedBits (events : List SinkEvent) : List Bool :=
  events.filterMap fun e =>
    match e with
    | .bit b => some b
    | .flush => .none

/-- How the host's `DECODE` loop ends: a response had `EOS = 1`; a response had `MODE = FAULT`; the
model's step stopped; or the host gave up after the number of `DSYM` it was ready to issue (R228). The
first two carry the output and the state. -/
inductive DecodeEnd where
  | finished (output : List Nat) (s : State)
  | faulted (output : List Nat) (s : State)
  | stopped
  | unfinished
  deriving DecidableEq, Repr

/-- `DSYM` repeated until a response has `EOS = 1` or `MODE = FAULT`; the output is the `RESULT` of the
responses with `EOS = 0` (R88). DESIGN CHOICE (log 24): the response of a `DSYM` that faults has
`EOS = 0` too, its `RESULT` being the command word `0xD000`; R88's words do not exclude it, and the model
leaves it out of the output. The host issues at most `fuel` commands (log 19). -/
def decodeLoop : Nat → List Nat → State → DecodeEnd
  | 0, _, _ => .unfinished
  | fuel + 1, output, s =>
    match issue .dsym s with
    | .next t =>
      if t.mode = .fault then .faulted output t
      else if t.eos then .finished output t
      else decodeLoop fuel (output ++ [t.result.toNat]) t
    | .fault _ => .stopped
    | .refused _ => .stopped

/-- The host runs `DECODE`: `DINIT`, then the loop (R88, R167). DESIGN CHOICE (log 24): the response of a
`DINIT` with `MODE = FAULT` ends it, before any `DSYM`. -/
def runDecode (fuel : Nat) (s : State) : DecodeEnd :=
  match issue .dinit s with
  | .next t => if t.mode = .fault then .faulted [] t else decodeLoop fuel [] t
  | .fault _ => .stopped
  | .refused _ => .stopped

end Sys2Proof.Machine
end

