-- ==== Sys2Proof/Safety.lean ====
section
/-! DEFINITION. What counts as a safe run, in the terms the claims use: the invariants of R33, R34 and
R164 with the widths of R20 to R29, an environment that fails no further operation, and the pure
functions a renormalisation is compared with. No meaning uses a definition of this file. -/

namespace Sys2Proof.Machine

/-- M1 to M3 of R34, with the length of the table (R21). -/
abbrev State.ModelInv (s : State) : Prop :=
  s.freq.length = s.cfg.k ∧ (∀ f ∈ s.freq, 1 ≤ f) ∧ s.total = s.freq.sum ∧
  s.cfg.k ≤ s.total ∧ s.total ≤ s.cfg.maxTotal

/-- The coder invariant between commands (R33), with the region in which every renormalisation ends
(R139). -/
abbrev State.CoderInv (s : State) : Prop :=
  s.low < s.high ∧ s.high ≤ s.cfg.whole ∧ s.cfg.quarter ≤ s.high - s.low ∧
  region s.cfg s.low s.high = .none

/-- The decoder invariant (R164). -/
abbrev State.DecoderInv (s : State) : Prop := s.low ≤ s.z ∧ s.z < s.high

/-- Every register holds a value of its width (R21, R22, R24, R25, R27), and the table has its form. -/
abbrev State.WidthInv (s : State) : Prop :=
  Memory.wf s.cfg s.freq = true ∧ s.total < 2 ^ s.cfg.cntW ∧
  s.low < 2 ^ (s.cfg.precision + 1) ∧ s.high < 2 ^ (s.cfg.precision + 1) ∧
  s.z < 2 ^ s.cfg.precision

/-- The status register (R28): `CAUSE` is not `NONE` exactly in `FAULT`; `EOS` is set only in a session
that ended or faulted; `MODEL_CONFIG` is the cause exactly when the parameter set is not valid (R192);
and the source's position is inside the source (R56). -/
abbrev State.StatusInv (s : State) : Prop :=
  (s.cause = .none ↔ s.mode ≠ .fault) ∧
  (s.eos = true → s.mode = .done ∨ s.mode = .fault) ∧
  (s.cause = .modelConfig ↔ s.cfg.valid = false) ∧
  s.rpos ≤ s.source.length

/-- The invariant of the machine, in every mode. -/
abbrev State.Inv (s : State) : Prop :=
  s.StatusInv ∧ s.WidthInv ∧
  (s.mode ≠ .fault → s.ModelInv) ∧
  (s.mode = .enc ∨ s.mode = .dec → s.CoderInv) ∧
  (s.mode = .dec → s.DecoderInv)

/-- The environment fails none of the operations still to come (R65: "the default environment never
fails"). -/
abbrev State.IoNeverFails (s : State) : Prop := ∀ n ∈ s.ioFail, n < s.ioOps

/-- The step of one end of the interval in a region: subtract the offset, then double (R137). -/
def expandEnd (p : Params) (v : Nat) (r : Region) : Nat := 2 * (v - regionOffset p r)

/-- The regions a renormalisation passes through, in order, up to a number of iterations (R137,
R163): what spec/95 writes as `LRRLLLL`. -/
def regionTrace (p : Params) : Nat → Nat → Nat → List Region
  | 0, _, _ => []
  | n + 1, low, high =>
    match region p low high with
    | .none => []
    | .left => .left :: regionTrace p n (expandEnd p low .left) (expandEnd p high .left)
    | .right => .right :: regionTrace p n (expandEnd p low .right) (expandEnd p high .right)
    | .middle => .middle :: regionTrace p n (expandEnd p low .middle) (expandEnd p high .middle)

/-- The bits a sequence of regions emits when `pending` bits are deferred on entry (R136, R137). -/
def traceBits : List Region → Nat → List Bool
  | [], _ => []
  | .left :: rs, pending => false :: (List.replicate pending true ++ traceBits rs 0)
  | .right :: rs, pending => true :: (List.replicate pending false ++ traceBits rs 0)
  | .middle :: rs, pending => traceBits rs (pending + 1)
  | .none :: rs, pending => traceBits rs pending

/-- The number of bits still deferred after a sequence of regions (R136 to R138). -/
def tracePending : List Region → Nat → Nat
  | [], pending => pending
  | .left :: rs, _ => tracePending rs 0
  | .right :: rs, _ => tracePending rs 0
  | .middle :: rs, pending => tracePending rs (pending + 1)
  | .none :: rs, pending => tracePending rs pending

/-- Bit `n` of a source that is followed by an endless run of 0 bits (R57). -/
def sourceBit (source : List Bool) (n : Nat) : Nat := (source.getD n false).toNat

/-- `z` after a sequence of regions, when the next bit of the source is number `pos` (R163). -/
def traceZ (p : Params) (source : List Bool) : List Region → Nat → Nat → Nat
  | [], z, _ => z
  | r :: rs, z, pos =>
    traceZ p source rs (2 * (z - regionOffset p r) + sourceBit source pos) (pos + 1)

/-- The value of the `n` bits of the source that begin at `pos`, first bit most significant (R58,
R160). -/
def bitsValue (source : List Bool) (pos : Nat) : Nat → Nat
  | 0 => 0
  | n + 1 => 2 * bitsValue source pos n + sourceBit source (pos + n)

end Sys2Proof.Machine
end

