-- ==== Sys2Proof/Certificates/Slice0/Obligations.lean ====
section
/-! DEFINITION. The statements about the engine, one definition each. Nothing is proved here. -/

open Sys2Proof Sys2Proof.Machine

/-! ### Encoding -/

/-- Words of spec/95 section 2.8, written out from R80 and R82, decode to the commands they stand for. -/
def Obligations.SpecWordsDecodeToTheirCommands : Prop :=
  decode 0x1000 = .instr .minit ∧ decode 0x2100 = .instr (.mcumb 256) ∧
  decode 0x3061 = .instr (.mcume 97) ∧ decode 0x4000 = .instr .mtotal ∧
  decode 0x5101 = .instr (.mupd 257) ∧ decode 0x8000 = .instr .einit ∧
  decode 0x9FFF = .instr (.esym 4095) ∧ decode 0xA000 = .instr .eflush ∧
  decode 0xC000 = .instr .dinit ∧ decode 0xD000 = .instr .dsym ∧
  decode 0x0000 = .reservedOpcode 0 ∧ decode 0xFFFF = .reservedOpcode 15 ∧
  decode 0x7ABC = .reservedOpcode 7 ∧ decode 0xC0F0 = .nonzeroField 12 0xF0

/-- Decoding the encoding of a well-formed command gives it back, with every operand (R80 to R82). -/
def Obligations.EncodedCommandDecodesToItself : Prop :=
  ∀ i : Instr, i.wellFormed = true → decode (encode i) = .instr i

/-- A word has one meaning: the command it decodes to is well formed and is encoded by that word. -/
def Obligations.DecodedWordIsTheEncodingOfItsCommand : Prop :=
  ∀ (w : CmdWord) (i : Instr), decode w = .instr i → i.wellFormed = true ∧ encode i = w

/-- R82: "a word `cmd` is the command of a row exactly when `(cmd & mask) = match`". The rows are those
of R82, in `opcodeTable`; the decoder does not use them. -/
def Obligations.DecoderSelectsRowsByMatchAndMask : Prop :=
  ∀ (w : CmdWord) (r : OpcodeRow), r ∈ opcodeTable →
    (w &&& r.mask = r.matchBits ↔ ∃ i, decode w = .instr i ∧ mnemonicOf i = r.mnemonic)

/-- R83, R84, R195: a reserved `OP`, or a format-`N` `OP` with `cmd[11:0]` not zero, raises
`ILLEGAL_CMD` in every mode but `FAULT`: `MODE`, `CAUSE` and `RESULT` are written, nothing else changes,
and the response is issued. -/
def Obligations.IllegalWordRaisesIllegalCmd : Prop :=
  ∀ (s : State) (w : CmdWord) (rest : List Input),
    s.inputs = .command w :: rest → s.mode ≠ .fault →
    (w.toNat / 4096 ∈ [0x0, 0x6, 0x7, 0xB, 0xE, 0xF] ∨
      (w.toNat / 4096 ∈ [0x1, 0x4, 0x8, 0xA, 0xC, 0xD] ∧ w.toNat % 4096 ≠ 0)) →
    step s = .next (respond { s with
      inputs := rest, mode := .fault, cause := .illegalCmd, result := w.setWidth 32 })

/-! ### Step, response, reset -/

/-- A step whose next input is the word of a command is the execution of that command in the state
without that input; when it answers a next state, one response word is appended (R66, R85, R86); no
execution is refused. The model's withFetchWord presents a word so (log 6). -/
def Obligations.StepRunsTheDecodedCommand : Prop :=
  (∀ (s : State) (w : CmdWord) (rest : List Input) (i : Instr),
    s.inputs = .command w :: rest → decode w = .instr i →
    (∀ t, exec i { s with inputs := rest } = .next t →
      step s = .next { t with responses := t.responses ++ [responseWord t] }) ∧
    (∀ r, exec i { s with inputs := rest } = .fault r → step s = .fault r) ∧
    (∀ r, exec i { s with inputs := rest } ≠ .refused r)) ∧
  (∀ (s : State) (w : CmdWord),
    (s.withFetchWord 16 w.toNat) = { s with inputs := .command w :: s.inputs })

/-- R85: for every command word accepted one response is returned, `rsp[39:32]` the status and
`rsp[31:0]` the result as they stand after the command, with `MODE`, `EOS` and `CAUSE` where R85 and R28
put them. -/
def Obligations.ResponseHoldsStatusAndResultAfterTheCommand : Prop :=
  (∀ (s t : State) (w : CmdWord) (rest : List Input),
    s.inputs = .command w :: rest → step s = .next t →
    t.responses = s.responses ++ [responseWord t]) ∧
  (∀ s : State,
    (responseWord s).extractLsb' 0 32 = s.result ∧
    (responseWord s).extractLsb' 32 8 = statusWord s ∧
    ((responseWord s).extractLsb' 32 3).toNat =
      (match s.mode with | .idle => 0 | .enc => 1 | .dec => 2 | .done => 3 | .fault => 4) ∧
    (responseWord s).getLsbD 35 = s.eos ∧
    ((responseWord s).extractLsb' 36 4).toNat =
      (match s.cause with
        | .none => 0 | .modelRange => 1 | .modelConfig => 2 | .io => 3
        | .invariant => 4 | .illegalCmd => 5 | .sequence => 6 | .pendingOvf => 7))

/-- R221: for a valid parameter set reset establishes exactly the listed values, and the reset state
equals the state after `MINIT`. The environment is not touched. -/
def Obligations.ResetEstablishesTheResetState : Prop :=
  ∀ (s : State) (rest : List Input), s.inputs = .reset :: rest → s.cfg.valid = true →
    let t : State := { s with
      inputs := rest
      freq := List.replicate s.cfg.k 1, total := s.cfg.k
      low := 0, high := 2 ^ s.cfg.precision, pending := 0, z := 0
      mode := .idle, eos := false, cause := .none, result := 0 }
    step s = .next t ∧ statusWord t = 0x00 ∧ exec .minit t = .next t

/-- R222: an instance whose parameter set is not valid comes out of reset in `FAULT` with
`MODEL_CONFIG`; every command is then discarded and a further reset gives the same result. The other
registers are free values (log 11): nothing is said of them. -/
def Obligations.InvalidParametersComeUpInFault : Prop :=
  (∀ (s : State) (rest : List Input), s.inputs = .reset :: rest → s.cfg.valid = false →
    ∃ t, step s = .next t ∧
      t.mode = .fault ∧ t.cause = .modelConfig ∧ t.eos = false ∧ t.result = 0 ∧
      statusWord t = 0x24 ∧
      t.cfg = s.cfg ∧ t.inputs = rest ∧ t.responses = s.responses ∧ t.out = s.out ∧
      t.source = s.source ∧ t.rpos = s.rpos ∧
      (∀ w, runCommand w t = .next (respond t)) ∧
      ∃ u, takeInput .reset t = .next u ∧
        u.mode = .fault ∧ u.cause = .modelConfig ∧ u.eos = false ∧ u.result = 0) ∧
  Params.valid { precision := 32, k := 4, maxTotal := 4 } = false ∧
  Params.valid { precision := 32, k := 4, maxTotal := 3 } = false ∧
  Params.valid { precision := 8, k := 257, maxTotal := 512 } = false ∧
  Params.valid { precision := 32, k := 4, maxTotal := 5 } = true

/-- R220 as the model has it (log 12): reset in the middle of a command, after `ops` of its sink and source
operations, drops it without a response and leaves the engine in the reset state. What it had sent stays
in the sink's trace and what it had consumed stays consumed: exactly the first `ops` events that the
command, uninterrupted, sends, and one bit for each two operations (log 9: `isExhausted`, then `readBit`)
up to what it consumes. `u` is the state the uninterrupted command ends in, completed or faulted. -/
def Obligations.ResetDuringACommandDropsIt : Prop :=
  ∀ (s : State) (w : CmdWord) (ops : Nat) (rest : List Input),
    s.Inv → s.inputs = .resetDuring w ops :: rest →
    ∃ u t, runCommand w { s with inputs := rest } = .next u ∧ step s = .next t ∧
      s.out <+: u.out ∧ s.rpos ≤ u.rpos ∧ s.ioOps ≤ u.ioOps ∧
      t.out = s.out ++ (u.out.drop s.out.length).take ops ∧
      t.rpos = min u.rpos (s.rpos + ops / 2) ∧
      t.ioOps = min u.ioOps (s.ioOps + ops) ∧
      t.responses = s.responses ∧ t.inputs = rest ∧ t.cfg = s.cfg ∧
      t.source = s.source ∧ t.ioFail = s.ioFail ∧
      (s.cfg.valid = true →
        t.freq = List.replicate s.cfg.k 1 ∧ t.total = s.cfg.k ∧ t.low = 0 ∧
        t.high = s.cfg.whole ∧ t.pending = 0 ∧ t.z = 0 ∧
        t.mode = .idle ∧ t.eos = false ∧ t.cause = .none ∧ t.result = 0) ∧
      (s.cfg.valid = false →
        t.mode = .fault ∧ t.cause = .modelConfig ∧ t.eos = false ∧ t.result = 0)

/-- State.reset is the reset state of the production instance `(32, 257, 2^30)` (R13, R221) in an
environment that presents nothing and fails nothing; that environment is the model's choice (log 5, 7,
8, 9). -/
def Obligations.StateResetIsTheProductionResetState : Prop :=
  State.reset = resetStateOf Params.production ∧
  State.reset.cfg = { precision := 32, k := 257, maxTotal := 1073741824 } ∧
  State.reset.freq = List.replicate 257 1 ∧ State.reset.total = 257 ∧
  State.reset.low = 0 ∧ State.reset.high = 4294967296 ∧
  State.reset.pending = 0 ∧ State.reset.z = 0 ∧ responseWord State.reset = 0 ∧
  State.reset.out = [] ∧ State.reset.inputs = []

/-! ### The invariant -/

/-- The invariant holds right after reset, of the production instance and of every instance, valid or
not. -/
def Obligations.ResetStatesMeetTheInvariant : Prop :=
  State.reset.Inv ∧ ∀ p : Params, (resetStateOf p).Inv

/-- Every step keeps the invariant (R33, R34, R164 and the widths of R20 to R29), from every state that
meets it. -/
def Obligations.EveryStepKeepsTheInvariant : Prop :=
  ∀ s t : State, s.Inv → step s = .next t → t.Inv

/-- From every state that meets the invariant a step answers a next state: the model stops nowhere, and
every renormalisation ends within the bound of R139. -/
def Obligations.EveryStepFromTheInvariantAnswersNext : Prop :=
  ∀ s : State, s.Inv → ∃ t, step s = .next t

/-- No command raises `INVARIANT` from a state that meets the invariant (R133, R162, R194). -/
def Obligations.InvariantFaultIsUnreachable : Prop :=
  ∀ (i : Instr) (s t : State), s.Inv → exec i s = .next t → t.cause = .invariant →
    s.cause = .invariant

/-! ### Model commands -/

/-- R110: `MINIT` in each mode. -/
def Obligations.MinitConstructsTheModel : Prop :=
  (∀ s : State, s.mode ≠ .fault → exec .minit s = .next { s with
    freq := List.replicate s.cfg.k 1, total := s.cfg.k
    low := 0, high := 2 ^ s.cfg.precision, pending := 0, z := 0
    mode := .idle, eos := false, result := 0 }) ∧
  (∀ s : State, s.mode = .fault → exec .minit s = .next s) ∧
  (∀ w : CmdWord, w.toNat / 4096 = 0x1 → w.toNat % 4096 ≠ 0 →
    decode w = .nonzeroField 0x1 (w.toNat % 4096))

/-- R111 to R113: the model queries return their value in `RESULT` and change nothing else, in every mode
but `FAULT`; a symbol outside the alphabet raises `MODEL_RANGE` (R108). The last clause is the corner
cases: `MCUME (K-1)` returns `total`, `total` is in `K .. MAX_TOTAL`, and each range is non-empty. -/
def Obligations.ModelQueriesReturnTheirValue : Prop :=
  (∀ (s : State) (sym : Nat), s.mode ≠ .fault → sym < s.cfg.k →
    exec (.mcumb sym) s = .next { s with result := BitVec.ofNat 32 (s.freq.take sym).sum } ∧
    exec (.mcume sym) s = .next { s with
      result := BitVec.ofNat 32 ((s.freq.take sym).sum + s.freq.getD sym 0) }) ∧
  (∀ (s : State) (sym : Nat), s.mode ≠ .fault → s.cfg.k ≤ sym → sym < 4096 →
    exec (.mcumb sym) s = .next { s with
      mode := .fault, cause := .modelRange, result := BitVec.ofNat 32 (0x2000 + sym) } ∧
    exec (.mcume sym) s = .next { s with
      mode := .fault, cause := .modelRange, result := BitVec.ofNat 32 (0x3000 + sym) }) ∧
  (∀ s : State, s.mode ≠ .fault →
    exec .mtotal s = .next { s with result := BitVec.ofNat 32 s.total }) ∧
  (∀ w : CmdWord, w.toNat / 4096 = 0x4 → w.toNat % 4096 ≠ 0 →
    decode w = .nonzeroField 0x4 (w.toNat % 4096)) ∧
  (∀ s : State, s.ModelInv → 1 ≤ s.cfg.k →
    (s.freq.take (s.cfg.k - 1)).sum + s.freq.getD (s.cfg.k - 1) 0 = s.total ∧
    s.cfg.k ≤ s.total ∧ s.total ≤ s.cfg.maxTotal ∧ ∀ sym, sym < s.cfg.k → 1 ≤ s.freq.getD sym 0)

/-- R114, with R104 and R105: `MUPD` in `IDLE` increments one entry and `total`, after a rescale when
`total` is at the ceiling; out of the alphabet it raises `MODEL_RANGE`, in `ENC`, `DEC` and `DONE`
`SEQUENCE`. -/
def Obligations.MupdUpdatesTheModelOrFaults : Prop :=
  ∀ (s : State) (sym : Nat), sym < 4096 →
    (s.mode = .idle → sym < s.cfg.k → s.total < s.cfg.maxTotal →
      exec (.mupd sym) s = .next { s with
        freq := s.freq.set sym (s.freq.getD sym 0 + 1), total := s.total + 1, result := 0 }) ∧
    (s.mode = .idle → sym < s.cfg.k → s.cfg.maxTotal ≤ s.total →
      let halved := s.freq.map fun f => max 1 (f / 2)
      exec (.mupd sym) s = .next { s with
        freq := halved.set sym (halved.getD sym 0 + 1), total := halved.sum + 1, result := 0 }) ∧
    (s.mode = .idle → s.cfg.k ≤ sym → exec (.mupd sym) s = .next { s with
      mode := .fault, cause := .modelRange, result := BitVec.ofNat 32 (0x5000 + sym) }) ∧
    (s.mode = .enc ∨ s.mode = .dec ∨ s.mode = .done → exec (.mupd sym) s = .next { s with
      mode := .fault, cause := .sequence, result := BitVec.ofNat 32 (0x5000 + sym) })

/-- Repeating a model query changes nothing: the second execution answers the state it started from
(R60). -/
def Obligations.ModelQueriesAreIdempotent : Prop :=
  ∀ (i : Instr) (s t : State),
    ((∃ sym, i = .mcumb sym) ∨ (∃ sym, i = .mcume sym) ∨ i = .mtotal) →
    exec i s = .next t → exec i t = .next t

/-- M4 and M5 of R34: the cumulative ranges of the symbols are non-empty and tile `[0, total)`. -/
def Obligations.CumulativeRangesTileTheTotal : Prop :=
  ∀ s : State, s.ModelInv →
    cumBegin s.freq 0 = 0 ∧
    (∀ sym, sym < s.cfg.k → cumBegin s.freq sym < cumEnd s.freq sym) ∧
    (∀ sym, sym + 1 < s.cfg.k → cumEnd s.freq sym = cumBegin s.freq (sym + 1)) ∧
    (1 ≤ s.cfg.k → cumEnd s.freq (s.cfg.k - 1) = s.total)

/-- R107: an update keeps M1 to M3, so `total` never exceeds `MAX_TOTAL` and nothing wraps. -/
def Obligations.UpdateKeepsTheModelInvariant : Prop :=
  ∀ (s : State) (sym : Nat), s.cfg.valid = true → s.ModelInv → sym < s.cfg.k →
    (update sym s).ModelInv ∧ Memory.wf s.cfg (update sym s).freq = true ∧
    (update sym s).total < 2 ^ s.cfg.cntW

/-- R106: the model after a sequence of updates depends on the parameters, the table and `total` it
started from, and on nothing else. -/
def Obligations.ModelDependsOnItsUpdatesAlone : Prop :=
  ∀ (syms : List Nat) (s t : State),
    s.cfg = t.cfg → s.freq = t.freq → s.total = t.total →
    let s' := syms.foldl (fun a sym => update sym a) s
    let t' := syms.foldl (fun a sym => update sym a) t
    s'.total = t'.total ∧
    ∀ sym, cumBegin s'.freq sym = cumBegin t'.freq sym ∧ cumEnd s'.freq sym = cumEnd t'.freq sym

/-! ### Arithmetic -/

/-- R130: `rnd(w, c, T)` is the integer nearest to `w*c/T`, and a tie goes up: twice its distance from the
exact quotient, times `T`, is at most `T`, with equality only when it lies above. It is the quotient R130
writes, and under the bounds of an instance its numerator fits `2P` bits. -/
def Obligations.RoundingIsNearestWithTiesUp : Prop :=
  (∀ w c T : Nat, 1 ≤ T →
    rnd w c T = (2 * w * c + T) / (2 * T) ∧
    2 * (w * c) < 2 * (T * rnd w c T) + T ∧ 2 * (T * rnd w c T) ≤ 2 * (w * c) + T) ∧
  (∀ P w c T : Nat, 2 ≤ P → w ≤ 2 ^ P → c ≤ T → T ≤ 2 ^ (P - 2) → 2 * w * c + T < 2 ^ (2 * P))

/-- R131, (a) to (e). -/
def Obligations.RoundingProperties : Prop :=
  ∀ w T : Nat, 1 ≤ T →
    rnd w 0 T = 0 ∧ rnd w T T = w ∧
    (∀ c d, c ≤ d → rnd w c T ≤ rnd w d T) ∧
    (∀ c f, T ≤ w → rnd w c T + f ≤ rnd w (c + f) T) ∧
    (∀ c, c ≤ T → rnd w c T ≤ w)

/-- R133: between commands of a session the narrowed interval of every symbol is non-empty and inside the
old one, adjacent symbols share a bound, the first begins at `low` and the last ends at `high`. -/
def Obligations.NarrowingNeverCollapsesAndTiles : Prop :=
  ∀ s : State, s.Inv → s.mode = .enc ∨ s.mode = .dec →
    (∀ sym, sym < s.cfg.k →
      s.low ≤ (narrowSym s sym).1 ∧ (narrowSym s sym).1 + s.freq.getD sym 0 ≤ (narrowSym s sym).2 ∧
      (narrowSym s sym).1 < (narrowSym s sym).2 ∧ (narrowSym s sym).2 ≤ s.high) ∧
    (∀ sym, sym + 1 < s.cfg.k → (narrowSym s sym).2 = (narrowSym s (sym + 1)).1) ∧
    (narrowSym s 0).1 = s.low ∧ (narrowSym s (s.cfg.k - 1)).2 = s.high

/-- R135: what each region implies, and that a `MIDDLE` step is followed by `MIDDLE` or `NONE`. -/
def Obligations.RegionFacts : Prop :=
  ∀ (p : Params) (low high : Nat), p.valid = true → low < high → high ≤ p.whole →
    (region p low high ≠ .none → high - low < p.half) ∧
    (region p low high = .none →
      p.half ≤ high ∧ low ≤ p.half ∧ (low ≤ p.quarter ∨ p.threeQuarter ≤ high) ∧
      p.quarter ≤ high - low) ∧
    (region p low high = .middle →
      let r := region p (2 * (low - p.quarter)) (2 * (high - p.quarter))
      r = .middle ∨ r = .none)

/-- R139: a renormalisation makes at most `P - 1` iterations and ends in region `NONE` with an interval
of width at least `QUARTER`; the width grows by a factor of two in each iteration. -/
def Obligations.RenormalisationEndsWithinItsBound : Prop :=
  ∀ (p : Params) (low high : Nat), p.valid = true → low < high → high ≤ p.whole →
    let tr := regionTrace p p.precision low high
    let low' := tr.foldl (expandEnd p) low
    let high' := tr.foldl (expandEnd p) high
    tr.length ≤ p.precision - 1 ∧ region p low' high' = .none ∧
    low' ≤ p.half ∧ p.half ≤ high' ∧ high' ≤ p.whole ∧ p.quarter ≤ high' - low' ∧
    high' - low' = 2 ^ tr.length * (high - low)

/-! ### Encode commands -/

/-- R140: `EINIT` in each mode. -/
def Obligations.EinitStartsAnEncodeSession : Prop :=
  (∀ s : State, s.mode ≠ .fault → exec .einit s = .next { s with
    freq := List.replicate s.cfg.k 1, total := s.cfg.k
    low := 0, high := 2 ^ s.cfg.precision, pending := 0, z := 0
    mode := .enc, eos := false, result := 0 }) ∧
  (∀ s : State, s.mode = .fault → exec .einit s = .next s) ∧
  (∀ w : CmdWord, w.toNat / 4096 = 0x8 → w.toNat % 4096 ≠ 0 →
    decode w = .nonzeroField 0x8 (w.toNat % 4096))

/-- `ESYM` completes from every state of an encode session that meets the invariant, when no sink
operation fails and `pending` has room for the deferrals of one command: the interval is narrowed (R132),
renormalised through its regions with the bits of R136 and R137 sent, and the model is updated (R141). -/
def Obligations.EsymEncodesItsSymbol : Prop :=
  ∀ (s : State) (sym : Nat), s.Inv → s.mode = .enc → sym < s.cfg.k → s.IoNeverFails →
    s.pending.toNat + s.cfg.precision ≤ 2 ^ 32 →
    let w := s.high - s.low
    let cb := (s.freq.take sym).sum
    let ce := (s.freq.take sym).sum + s.freq.getD sym 0
    let a0 := s.low + (2 * w * cb + s.total) / (2 * s.total)
    let b0 := s.low + (2 * w * ce + s.total) / (2 * s.total)
    let tr := regionTrace s.cfg s.cfg.precision a0 b0
    let bits := traceBits tr s.pending.toNat
    exec (.esym sym) s = .next { s with
      low := tr.foldl (expandEnd s.cfg) a0
      high := tr.foldl (expandEnd s.cfg) b0
      pending := BitVec.ofNat 32 (tracePending tr s.pending.toNat)
      out := s.out ++ bits.map .bit
      ioOps := s.ioOps + bits.length
      freq := (update sym s).freq
      total := (update sym s).total
      result := 0 }

/-- `EFLUSH` completes in `ENC` when no sink operation fails and `pending` is not at its maximum: the
termination bit, `pending + 1` opposite bits, `Flush`; `MODE` is `DONE` and `pending` is 0 (R142). -/
def Obligations.EflushTerminatesTheStream : Prop :=
  ∀ s : State, s.mode = .enc → s.IoNeverFails → s.pending.toNat + 1 < 2 ^ 32 →
    let b := decide (s.cfg.quarter < s.low)
    exec .eflush s = .next { s with
      out := s.out ++ (.bit b :: List.replicate (s.pending.toNat + 1) (.bit (!b))) ++ [.flush]
      pending := 0
      mode := .done
      result := 0
      ioOps := s.ioOps + s.pending.toNat + 3 }

/-- One `ESYM` sends at most `(P - 1) + pending` bits, whether it completes or faults (R141, R229). -/
def Obligations.EsymSendsBoundedlyManyBits : Prop :=
  ∀ (s t : State) (sym : Nat), s.Inv → exec (.esym sym) s = .next t →
    t.out.length ≤ s.out.length + (s.cfg.precision - 1) + s.pending.toNat

/-- What the encode commands leave unchanged when they complete. `ESYM` writes `low`, `high`, `pending`,
the model as `update` gives it (one entry and `total` unless it rescales) and `RESULT`; `EFLUSH` writes
`pending`, `MODE` and `RESULT`. -/
def Obligations.EncodeCommandsFrame : Prop :=
  (∀ (s t : State) (sym : Nat), s.mode ≠ .fault → exec (.esym sym) s = .next t → t.mode ≠ .fault →
    t.freq = (update sym s).freq ∧ t.total = (update sym s).total ∧
    (s.total < s.cfg.maxTotal → ∀ other, other ≠ sym → readFreq t.freq other = readFreq s.freq other) ∧
    t.result = 0 ∧ t.z = s.z ∧ t.mode = s.mode ∧ t.eos = s.eos ∧ t.cause = s.cause ∧
    t.cfg = s.cfg ∧ t.inputs = s.inputs ∧ t.responses = s.responses ∧ t.source = s.source ∧
    t.rpos = s.rpos ∧ t.ioFail = s.ioFail ∧ t.draws = s.draws) ∧
  (∀ s t : State, s.mode ≠ .fault → exec .eflush s = .next t → t.mode ≠ .fault →
    t.mode = .done ∧ t.pending = 0 ∧ t.result = 0 ∧ t.freq = s.freq ∧ t.total = s.total ∧
    t.low = s.low ∧ t.high = s.high ∧ t.z = s.z ∧ t.eos = s.eos ∧ t.cause = s.cause ∧
    t.cfg = s.cfg ∧ t.inputs = s.inputs ∧ t.responses = s.responses ∧ t.source = s.source ∧
    t.rpos = s.rpos ∧ t.ioFail = s.ioFail ∧ t.draws = s.draws)

/-! ### Decode commands -/

/-- `DINIT` completes in every mode but `FAULT` when no source operation fails: start values, and `z` the
first `P` bits of the source, most significant first, with zeros past its end (R160, R165, R57). -/
def Obligations.DinitLoadsTheFirstBits : Prop :=
  ∀ s : State, s.mode ≠ .fault → s.rpos ≤ s.source.length → s.IoNeverFails →
    let rpos' := min s.source.length (s.rpos + s.cfg.precision)
    exec .dinit s = .next { s with
      freq := List.replicate s.cfg.k 1, total := s.cfg.k
      low := 0, high := 2 ^ s.cfg.precision, pending := 0
      z := bitsValue s.source s.rpos s.cfg.precision
      mode := .dec, eos := false, result := 0
      rpos := rpos'
      ioOps := s.ioOps + s.cfg.precision + (rpos' - s.rpos) }

/-- R162: in a decode session exactly one symbol's narrowed interval contains `z`, and `find_symbol`
returns it. -/
def Obligations.DecoderFindsExactlyOneSymbol : Prop :=
  ∀ s : State, s.Inv → s.mode = .dec →
    ∃ sym, findSymbol s = some sym ∧ sym < s.cfg.k ∧
      (narrowSym s sym).1 ≤ s.z ∧ s.z < (narrowSym s sym).2 ∧
      ∀ other, other < s.cfg.k → (narrowSym s other).1 ≤ s.z → s.z < (narrowSym s other).2 →
        other = sym

/-- `DSYM` completes at the end of the stream: when the interval of `EOS` contains `z`, only `STATUS` and
`RESULT` change (R166). -/
def Obligations.DsymEndsTheStreamAtEos : Prop :=
  ∀ s : State, s.Inv → s.mode = .dec →
    (narrowSym s (s.cfg.k - 1)).1 ≤ s.z → s.z < (narrowSym s (s.cfg.k - 1)).2 →
    exec .dsym s = .next { s with
      eos := true, mode := .done, result := BitVec.ofNat 32 (s.cfg.k - 1) }

/-- `DSYM` completes on a data symbol when no source operation fails: `low`, `high` and `z` pass through
the regions of the narrowed interval, one bit consumed in each, the model is updated, and `RESULT` is the
symbol (R163, R166). -/
def Obligations.DsymDecodesADataSymbol : Prop :=
  ∀ (s : State) (sym : Nat), s.Inv → s.mode = .dec → sym < s.cfg.k - 1 →
    (narrowSym s sym).1 ≤ s.z → s.z < (narrowSym s sym).2 → s.IoNeverFails →
    let tr := regionTrace s.cfg s.cfg.precision (narrowSym s sym).1 (narrowSym s sym).2
    let rpos' := min s.source.length (s.rpos + tr.length)
    exec .dsym s = .next { s with
      low := tr.foldl (expandEnd s.cfg) (narrowSym s sym).1
      high := tr.foldl (expandEnd s.cfg) (narrowSym s sym).2
      z := traceZ s.cfg s.source tr s.z s.rpos
      rpos := rpos'
      ioOps := s.ioOps + tr.length + (rpos' - s.rpos)
      freq := (update sym s).freq
      total := (update sym s).total
      result := BitVec.ofNat 32 sym }

/-- What the decode commands leave unchanged when they complete. `DINIT` writes the model, the coder
registers, `MODE`, `EOS` and `RESULT`; `DSYM` writes `EOS`, `MODE` and `RESULT` at the end of the stream,
and else `low`, `high`, `z`, the model as `update` gives it and `RESULT`. -/
def Obligations.DecodeCommandsFrame : Prop :=
  (∀ s t : State, s.mode ≠ .fault → exec .dinit s = .next t → t.mode ≠ .fault →
    t.freq = List.replicate s.cfg.k 1 ∧ t.total = s.cfg.k ∧ t.low = 0 ∧ t.high = s.cfg.whole ∧
    t.pending = 0 ∧ t.mode = .dec ∧ t.eos = false ∧ t.result = 0 ∧ t.cause = s.cause ∧
    t.cfg = s.cfg ∧ t.inputs = s.inputs ∧ t.responses = s.responses ∧ t.out = s.out ∧
    t.source = s.source ∧ t.ioFail = s.ioFail ∧ t.draws = s.draws) ∧
  (∀ s t : State, s.mode ≠ .fault → exec .dsym s = .next t → t.mode ≠ .fault →
    ∃ sym, findSymbol s = some sym ∧ t.result = BitVec.ofNat 32 sym ∧
      t.pending = s.pending ∧ t.cause = s.cause ∧ t.cfg = s.cfg ∧ t.inputs = s.inputs ∧
      t.responses = s.responses ∧ t.out = s.out ∧ t.source = s.source ∧
      t.ioFail = s.ioFail ∧ t.draws = s.draws ∧
      (sym = s.cfg.k - 1 →
        t.mode = .done ∧ t.eos = true ∧ t.low = s.low ∧ t.high = s.high ∧ t.z = s.z ∧
        t.freq = s.freq ∧ t.total = s.total ∧ t.rpos = s.rpos ∧ t.ioOps = s.ioOps) ∧
      (sym ≠ s.cfg.k - 1 →
        t.mode = .dec ∧ t.eos = s.eos ∧
        t.freq = (update sym s).freq ∧ t.total = (update sym s).total ∧
        (s.total < s.cfg.maxTotal →
          ∀ other, other ≠ sym → readFreq t.freq other = readFreq s.freq other)))

/-- R228 in one step: on a source that is exhausted, with `low = z = 0`, `DSYM` returns symbol 0 and is in
such a state again, so the host's loop never ends. -/
def Obligations.DecodeOfAnExhaustedSourceNeverEnds : Prop :=
  ∀ s : State, s.Inv → s.mode = .dec → s.IoNeverFails → s.rpos = s.source.length →
    s.low = 0 → s.z = 0 →
    ∃ t, exec .dsym s = .next t ∧ t.result = 0 ∧ t.Inv ∧ t.mode = .dec ∧ t.eos = s.eos ∧
      t.IoNeverFails ∧ t.rpos = t.source.length ∧ t.low = 0 ∧ t.z = 0

/-! ### Faults and modes -/

/-- R196: `MUPD` outside `IDLE`, `ESYM` and `EFLUSH` outside `ENC`, `DSYM` outside `DEC` raise `SEQUENCE`
and change nothing but `MODE`, `CAUSE` and `RESULT`; no other command and mode does (R203). -/
def Obligations.CommandsOutOfSequenceFault : Prop :=
  ∀ (i : Instr) (s : State), s.mode ≠ .fault →
    let outOfSequence :=
      ((∃ sym, i = .mupd sym) ∧ s.mode ≠ .idle) ∨
      (((∃ sym, i = .esym sym) ∨ i = .eflush) ∧ s.mode ≠ .enc) ∨
      (i = .dsym ∧ s.mode ≠ .dec)
    (outOfSequence → exec i s = .next { s with
      mode := .fault, cause := .sequence, result := (encode i).setWidth 32 }) ∧
    (¬ outOfSequence → ∀ t, exec i s = .next t → ¬ (t.mode = .fault ∧ t.cause = .sequence))

/-- R191, R108: a symbol operand outside the alphabet raises `MODEL_RANGE` in the four commands that have
one, in the modes in which they are legal, before any other change. -/
def Obligations.SymbolOutOfRangeRaisesModelRange : Prop :=
  ∀ (i : Instr) (sym : Nat) (s : State), s.cfg.k ≤ sym → s.mode ≠ .fault →
    (i = .mcumb sym ∨ i = .mcume sym ∨ (i = .mupd sym ∧ s.mode = .idle) ∨
      (i = .esym sym ∧ s.mode = .enc)) →
    exec i s = .next { s with
      mode := .fault, cause := .modelRange, result := (encode i).setWidth 32 }

/-- R200: in `FAULT` every command word, whatever it is, is discarded; the response repeats the current
`STATUS` and `RESULT`; and a step leaves `FAULT` only by the reset input. -/
def Obligations.FaultModeDiscardsEveryCommand : Prop :=
  (∀ (s : State) (w : CmdWord) (rest : List Input),
    s.mode = .fault → s.inputs = .command w :: rest →
    step s = .next { s with inputs := rest, responses := s.responses ++ [responseWord s] }) ∧
  (∀ s t : State, s.mode = .fault → step s = .next t → t.mode ≠ .fault →
    ∃ rest, s.inputs = .reset :: rest ∨ ∃ w ops, s.inputs = .resetDuring w ops :: rest)

/-- R204: the complete list of mode transitions. -/
def Obligations.ModeTransitionsAreComplete : Prop :=
  (∀ (i : Instr) (s t : State), exec i s = .next t →
    (s.mode = .fault ∧ t = s) ∨
    (s.mode ≠ .fault ∧
      (t.mode = .fault ∨
       (i = .minit ∧ t.mode = .idle) ∨
       (i = .einit ∧ t.mode = .enc) ∨
       (i = .dinit ∧ t.mode = .dec) ∨
       (i = .eflush ∧ s.mode = .enc ∧ t.mode = .done) ∨
       (i = .dsym ∧ s.mode = .dec ∧ t.mode = .done ∧ t.eos = true) ∨
       (i ≠ .minit ∧ i ≠ .einit ∧ i ≠ .dinit ∧ i ≠ .eflush ∧ t.mode = s.mode)))) ∧
  (∀ s t : State, takeInput .reset s = .next t →
    (s.cfg.valid = true → t.mode = .idle) ∧ (s.cfg.valid = false → t.mode = .fault))

/-- R199: a command that raises a fault writes `MODE`, `CAUSE` and `RESULT` (the command word), leaves
`STATUS.EOS`, and sends no `Flush`; the outside's own state is untouched but for what the command had
already sent and consumed. -/
def Obligations.FaultEntryRecordsTheCommand : Prop :=
  ∀ (i : Instr) (s t : State), s.mode ≠ .fault → exec i s = .next t → t.mode = .fault →
    t.result = (encode i).setWidth 32 ∧ t.eos = s.eos ∧
    t.cause ≠ .none ∧ t.cause ≠ .modelConfig ∧ t.cause ≠ .illegalCmd ∧
    (∃ sent : List Bool, t.out = s.out ++ sent.map .bit) ∧
    t.cfg = s.cfg ∧ t.inputs = s.inputs ∧ t.responses = s.responses ∧
    t.source = s.source ∧ t.ioFail = s.ioFail

/-- R202: `SEQUENCE`, `MODEL_RANGE` and `INVARIANT` are precise: every register, the table, `OUT` and
`rpos` are as before the command. -/
def Obligations.PreciseFaultsChangeNothingElse : Prop :=
  ∀ (i : Instr) (s t : State), s.mode ≠ .fault → exec i s = .next t → t.mode = .fault →
    t.cause ≠ .io → t.cause ≠ .pendingOvf →
    (t.cause = .sequence ∨ t.cause = .modelRange ∨ t.cause = .invariant) ∧
    t = { s with mode := .fault, cause := t.cause, result := (encode i).setWidth 32 }

/-- R193, R65: an `IO` fault comes from the first operation the environment fails, number `n` of the
command (log 9 numbers them: each bit, `flush`, `isExhausted` and `readBit` is one); the engine makes no
operation after it, and the failed operation sends and consumes nothing. An encode command has then sent
exactly the first `n` of its bits, and left `rpos`; a decode command has sent nothing, and consumed a bit
for each two operations before the failed one while there were any. A `DINIT` whose first operation
fails ends so. -/
def Obligations.IoFaultStopsAtTheFirstFailure : Prop :=
  (∀ (i : Instr) (s t : State), s.mode ≠ .fault → exec i s = .next t → t.mode = .fault →
    t.cause = .io →
    ((∃ sym, i = .esym sym) ∨ i = .eflush ∨ i = .dinit ∨ i = .dsym) ∧
    ∃ n, t.ioOps = s.ioOps + n + 1 ∧ s.ioOps + n ∈ s.ioFail ∧
      (∀ j, j < n → s.ioOps + j ∉ s.ioFail) ∧
      (∀ sym, i = .esym sym →
        let tr := regionTrace s.cfg s.cfg.precision (narrowSym s sym).1 (narrowSym s sym).2
        let bits := traceBits tr s.pending.toNat
        n < bits.length ∧ t.out = s.out ++ (bits.take n).map .bit ∧ t.rpos = s.rpos) ∧
      (i = .eflush →
        let b := decide (s.cfg.quarter < s.low)
        let bits := b :: List.replicate (s.pending.toNat + 1) (!b)
        n ≤ bits.length ∧ t.out = s.out ++ (bits.take n).map .bit ∧ t.rpos = s.rpos) ∧
      (i = .dinit ∨ i = .dsym →
        t.out = s.out ∧
        (s.rpos ≤ s.source.length → t.rpos = min s.source.length (s.rpos + n / 2)))) ∧
  (∀ s : State, s.cfg.valid = true → s.mode ≠ .fault → s.ioOps ∈ s.ioFail →
    ∃ t, exec .dinit s = .next t ∧ t.mode = .fault ∧ t.cause = .io ∧ t.rpos = s.rpos)

/-- R138, R197: with `pending` at `2^32 - 1`, `EFLUSH`, and an `ESYM` whose narrowed interval is in region
`MIDDLE`, raise `PENDING_OVF` and send nothing; only those two commands raise it. -/
def Obligations.PendingOverflowFaults : Prop :=
  (∀ s : State, s.mode = .enc → s.pending.toNat = 2 ^ 32 - 1 →
    ∃ t, exec .eflush s = .next t ∧ t.mode = .fault ∧ t.cause = .pendingOvf ∧
      t.result = 0xA000 ∧ t.eos = s.eos ∧ t.out = s.out) ∧
  (∀ (s : State) (sym : Nat), s.Inv → s.mode = .enc → sym < s.cfg.k →
    s.pending.toNat = 2 ^ 32 - 1 →
    region s.cfg (narrowSym s sym).1 (narrowSym s sym).2 = .middle →
    ∃ t, exec (.esym sym) s = .next t ∧ t.mode = .fault ∧ t.cause = .pendingOvf ∧
      t.result = BitVec.ofNat 32 (0x9000 + sym) ∧ t.eos = s.eos ∧ t.out = s.out) ∧
  (∀ (i : Instr) (s t : State), s.mode ≠ .fault → exec i s = .next t → t.mode = .fault →
    t.cause = .pendingOvf → (∃ sym, i = .esym sym) ∨ i = .eflush)

/-! ### Rules over all commands -/

/-- R53: the engine only ever appends to `OUT`, and only `ESYM` and `EFLUSH` write to the sink. -/
def Obligations.OnlyEncodingWritesTheSink : Prop :=
  ∀ (i : Instr) (s t : State), exec i s = .next t →
    s.out <+: t.out ∧ ((∀ sym, i ≠ .esym sym) → i ≠ .eflush → t.out = s.out)

/-- R56: the source's contents never change, its position only advances and stays inside it, and only
`DINIT` and `DSYM` read it. -/
def Obligations.OnlyDecodingReadsTheSource : Prop :=
  ∀ (i : Instr) (s t : State), exec i s = .next t →
    t.source = s.source ∧
    (s.rpos ≤ s.source.length → s.rpos ≤ t.rpos ∧ t.rpos ≤ t.source.length) ∧
    (i ≠ .dinit → i ≠ .dsym → t.rpos = s.rpos)

/-- No step changes the parameters (R8 to R10) or the environment's choice of failures. -/
def Obligations.ParametersNeverChange : Prop :=
  ∀ s t : State, step s = .next t → t.cfg = s.cfg ∧ t.ioFail = s.ioFail

/-- R28: `STATUS.EOS` is set by no command but `DSYM`, and cleared by `MINIT`, `EINIT` and `DINIT` when
they complete; every other command leaves it. -/
def Obligations.EosBitIsWrittenAsListed : Prop :=
  ∀ (i : Instr) (s t : State), exec i s = .next t →
    (t.eos = true → s.eos = true ∨ (i = .dsym ∧ s.mode = .dec ∧ t.mode = .done)) ∧
    (i = .minit ∨ i = .einit ∨ i = .dinit → t.mode ≠ .fault → t.eos = false) ∧
    (i ≠ .minit → i ≠ .einit → i ≠ .dinit → s.eos = true → t.eos = true)

/-- R29: what each command writes to `RESULT` when it completes, every value fitting its 32 bits; a command
that faults writes its word, and one received in `FAULT` leaves `RESULT` as it is. -/
def Obligations.ResultHoldsWhatTheCommandReturns : Prop :=
  ∀ (i : Instr) (s t : State), s.Inv → exec i s = .next t →
    (t.mode ≠ .fault →
      (∀ sym, i = .mcumb sym → t.result.toNat = cumBegin s.freq sym) ∧
      (∀ sym, i = .mcume sym → t.result.toNat = cumEnd s.freq sym) ∧
      (i = .mtotal → t.result.toNat = s.total) ∧
      (i = .dsym → findSymbol s = some t.result.toNat ∧ t.result.toNat < s.cfg.k) ∧
      ((∀ sym, i ≠ .mcumb sym) → (∀ sym, i ≠ .mcume sym) → i ≠ .mtotal → i ≠ .dsym →
        t.result = 0)) ∧
    (s.mode ≠ .fault → t.mode = .fault → t.result.toNat = (encode i).toNat) ∧
    (s.mode = .fault → t.result = s.result)

/-! ### Sessions -/

/-- R168, one symbol: an encoder and a decoder that agree on the parameters, the interval and the model
agree again after the encoder encoded the symbol the decoder returned. -/
def Obligations.EncoderAndDecoderStayInLockstep : Prop :=
  ∀ (e e' d d' : State) (sym : Nat), e.Inv → d.Inv → e.mode = .enc → d.mode = .dec →
    e.cfg = d.cfg → e.low = d.low → e.high = d.high → e.freq = d.freq → e.total = d.total →
    exec (.esym sym) e = .next e' → e'.mode = .enc →
    exec .dsym d = .next d' → d'.mode = .dec → d'.result.toNat = sym →
    e'.cfg = d'.cfg ∧ e'.low = d'.low ∧ e'.high = d'.high ∧
    e'.freq = d'.freq ∧ e'.total = d'.total

/-- `ENCODE` runs to its end from every state that meets the invariant outside `FAULT`, for every sequence
of data symbols short enough for `pending` not to overflow, when no sink operation fails (R144). -/
def Obligations.EncodeSessionCompletes : Prop :=
  ∀ (data : List Nat) (s : State), s.Inv → s.mode ≠ .fault → s.IoNeverFails →
    (∀ b ∈ data, b < s.cfg.k - 1) → (data.length + 2) * s.cfg.precision < 2 ^ 32 →
    ∃ t, runEncode data s = .next t ∧ t.mode = .done ∧
      ∃ bits : List Bool, 2 ≤ bits.length ∧ t.out = s.out ++ bits.map .bit ++ [.flush]

/-- R169: if `ENCODE` of a sequence of data symbols completed, and a decoder of the same parameters has
exactly the emitted bits ahead of it in a source that fails no operation, then `DECODE` returns exactly
that sequence and then `EOS`. -/
def Obligations.DecodeReturnsWhatWasEncoded : Prop :=
  ∀ (data : List Nat) (s t d : State), s.Inv → s.mode ≠ .fault →
    (∀ b ∈ data, b < s.cfg.k - 1) →
    runEncode data s = .next t → t.mode = .done →
    d.Inv → d.mode ≠ .fault → d.cfg = s.cfg → d.IoNeverFails →
    d.source.drop d.rpos = emittedBits (t.out.drop s.out.length) →
    ∃ u, runDecode (data.length + 1) d = .finished data u ∧ u.mode = .done ∧ u.eos = true

/-- The examples of R87 for the production instance, from the text of a line to the command word. -/
def Obligations.AssemblerSpellsTheExamples : Prop :=
  (assembleLine Params.production "ESYM 'a'".toList).map (List.map encode) = some [0x9061] ∧
  (assembleLine Params.production "ESYM EOS".toList).map (List.map encode) = some [0x9100] ∧
  (assembleLine Params.production "MCUMB 256".toList).map (List.map encode) = some [0x2100] ∧
  (assembleLine Params.production "MUPD 257".toList).map (List.map encode) = some [0x5101] ∧
  (assembleLine Params.production "DSYM ; one symbol".toList).map (List.map encode) = some [0xD000]
end

