-- ==== Sys2Proof/Laws/State.lean ====
section
/-! SUPPORT. What each named update of the state does to each field: one lemma per field, so that no
later proof unfolds an update. -/

namespace Sys2Proof.Machine

/-! ### `respond` -/

@[simp] theorem respond_cfg (s : State) : (respond s).cfg = s.cfg := rfl
@[simp] theorem respond_freq (s : State) : (respond s).freq = s.freq := rfl
@[simp] theorem respond_total (s : State) : (respond s).total = s.total := rfl
@[simp] theorem respond_low (s : State) : (respond s).low = s.low := rfl
@[simp] theorem respond_high (s : State) : (respond s).high = s.high := rfl
@[simp] theorem respond_pending (s : State) : (respond s).pending = s.pending := rfl
@[simp] theorem respond_z (s : State) : (respond s).z = s.z := rfl
@[simp] theorem respond_mode (s : State) : (respond s).mode = s.mode := rfl
@[simp] theorem respond_eos (s : State) : (respond s).eos = s.eos := rfl
@[simp] theorem respond_cause (s : State) : (respond s).cause = s.cause := rfl
@[simp] theorem respond_result (s : State) : (respond s).result = s.result := rfl
@[simp] theorem respond_inputs (s : State) : (respond s).inputs = s.inputs := rfl
@[simp] theorem respond_responses (s : State) : (respond s).responses = s.responses ++ [responseWord s] := rfl
@[simp] theorem respond_out (s : State) : (respond s).out = s.out := rfl
@[simp] theorem respond_source (s : State) : (respond s).source = s.source := rfl
@[simp] theorem respond_rpos (s : State) : (respond s).rpos = s.rpos := rfl
@[simp] theorem respond_ioOps (s : State) : (respond s).ioOps = s.ioOps := rfl
@[simp] theorem respond_ioFail (s : State) : (respond s).ioFail = s.ioFail := rfl
@[simp] theorem respond_draws (s : State) : (respond s).draws = s.draws := rfl

/-! ### `unspecify` -/

@[simp] theorem unspecify_cfg (s : State) : (unspecify s).cfg = s.cfg := rfl
@[simp] theorem unspecify_mode (s : State) : (unspecify s).mode = s.mode := rfl
@[simp] theorem unspecify_eos (s : State) : (unspecify s).eos = s.eos := rfl
@[simp] theorem unspecify_cause (s : State) : (unspecify s).cause = s.cause := rfl
@[simp] theorem unspecify_result (s : State) : (unspecify s).result = s.result := rfl
@[simp] theorem unspecify_inputs (s : State) : (unspecify s).inputs = s.inputs := rfl
@[simp] theorem unspecify_responses (s : State) : (unspecify s).responses = s.responses := rfl
@[simp] theorem unspecify_out (s : State) : (unspecify s).out = s.out := rfl
@[simp] theorem unspecify_source (s : State) : (unspecify s).source = s.source := rfl
@[simp] theorem unspecify_rpos (s : State) : (unspecify s).rpos = s.rpos := rfl
@[simp] theorem unspecify_ioOps (s : State) : (unspecify s).ioOps = s.ioOps := rfl
@[simp] theorem unspecify_ioFail (s : State) : (unspecify s).ioFail = s.ioFail := rfl
@[simp] theorem unspecify_draws (s : State) : (unspecify s).draws = s.draws + 5 + s.cfg.k := rfl

/-! ### `modelInit` -/

@[simp] theorem modelInit_cfg (s : State) : (modelInit s).cfg = s.cfg := rfl
@[simp] theorem modelInit_freq (s : State) : (modelInit s).freq = List.replicate s.cfg.k 1 := rfl
@[simp] theorem modelInit_total (s : State) : (modelInit s).total = s.cfg.k := rfl
@[simp] theorem modelInit_low (s : State) : (modelInit s).low = s.low := rfl
@[simp] theorem modelInit_high (s : State) : (modelInit s).high = s.high := rfl
@[simp] theorem modelInit_pending (s : State) : (modelInit s).pending = s.pending := rfl
@[simp] theorem modelInit_z (s : State) : (modelInit s).z = s.z := rfl
@[simp] theorem modelInit_mode (s : State) : (modelInit s).mode = s.mode := rfl
@[simp] theorem modelInit_eos (s : State) : (modelInit s).eos = s.eos := rfl
@[simp] theorem modelInit_cause (s : State) : (modelInit s).cause = s.cause := rfl
@[simp] theorem modelInit_result (s : State) : (modelInit s).result = s.result := rfl
@[simp] theorem modelInit_inputs (s : State) : (modelInit s).inputs = s.inputs := rfl
@[simp] theorem modelInit_responses (s : State) : (modelInit s).responses = s.responses := rfl
@[simp] theorem modelInit_out (s : State) : (modelInit s).out = s.out := rfl
@[simp] theorem modelInit_source (s : State) : (modelInit s).source = s.source := rfl
@[simp] theorem modelInit_rpos (s : State) : (modelInit s).rpos = s.rpos := rfl
@[simp] theorem modelInit_ioOps (s : State) : (modelInit s).ioOps = s.ioOps := rfl
@[simp] theorem modelInit_ioFail (s : State) : (modelInit s).ioFail = s.ioFail := rfl
@[simp] theorem modelInit_draws (s : State) : (modelInit s).draws = s.draws := rfl

/-! ### `canonicalStart` -/

@[simp] theorem canonicalStart_cfg (s : State) : (canonicalStart s).cfg = s.cfg := rfl
@[simp] theorem canonicalStart_freq (s : State) : (canonicalStart s).freq = List.replicate s.cfg.k 1 := rfl
@[simp] theorem canonicalStart_total (s : State) : (canonicalStart s).total = s.cfg.k := rfl
@[simp] theorem canonicalStart_low (s : State) : (canonicalStart s).low = 0 := rfl
@[simp] theorem canonicalStart_high (s : State) : (canonicalStart s).high = s.cfg.whole := rfl
@[simp] theorem canonicalStart_pending (s : State) : (canonicalStart s).pending = 0 := rfl
@[simp] theorem canonicalStart_z (s : State) : (canonicalStart s).z = 0 := rfl
@[simp] theorem canonicalStart_mode (s : State) : (canonicalStart s).mode = s.mode := rfl
@[simp] theorem canonicalStart_eos (s : State) : (canonicalStart s).eos = s.eos := rfl
@[simp] theorem canonicalStart_cause (s : State) : (canonicalStart s).cause = s.cause := rfl
@[simp] theorem canonicalStart_result (s : State) : (canonicalStart s).result = s.result := rfl
@[simp] theorem canonicalStart_inputs (s : State) : (canonicalStart s).inputs = s.inputs := rfl
@[simp] theorem canonicalStart_responses (s : State) : (canonicalStart s).responses = s.responses := rfl
@[simp] theorem canonicalStart_out (s : State) : (canonicalStart s).out = s.out := rfl
@[simp] theorem canonicalStart_source (s : State) : (canonicalStart s).source = s.source := rfl
@[simp] theorem canonicalStart_rpos (s : State) : (canonicalStart s).rpos = s.rpos := rfl
@[simp] theorem canonicalStart_ioOps (s : State) : (canonicalStart s).ioOps = s.ioOps := rfl
@[simp] theorem canonicalStart_ioFail (s : State) : (canonicalStart s).ioFail = s.ioFail := rfl
@[simp] theorem canonicalStart_draws (s : State) : (canonicalStart s).draws = s.draws := rfl

/-! ### `rescale` -/

@[simp] theorem rescale_cfg (s : State) : (rescale s).cfg = s.cfg := rfl
@[simp] theorem rescale_freq (s : State) : (rescale s).freq = s.freq.map halve := rfl
@[simp] theorem rescale_total (s : State) : (rescale s).total = (s.freq.map halve).sum := rfl
@[simp] theorem rescale_low (s : State) : (rescale s).low = s.low := rfl
@[simp] theorem rescale_high (s : State) : (rescale s).high = s.high := rfl
@[simp] theorem rescale_pending (s : State) : (rescale s).pending = s.pending := rfl
@[simp] theorem rescale_z (s : State) : (rescale s).z = s.z := rfl
@[simp] theorem rescale_mode (s : State) : (rescale s).mode = s.mode := rfl
@[simp] theorem rescale_eos (s : State) : (rescale s).eos = s.eos := rfl
@[simp] theorem rescale_cause (s : State) : (rescale s).cause = s.cause := rfl
@[simp] theorem rescale_result (s : State) : (rescale s).result = s.result := rfl
@[simp] theorem rescale_inputs (s : State) : (rescale s).inputs = s.inputs := rfl
@[simp] theorem rescale_responses (s : State) : (rescale s).responses = s.responses := rfl
@[simp] theorem rescale_out (s : State) : (rescale s).out = s.out := rfl
@[simp] theorem rescale_source (s : State) : (rescale s).source = s.source := rfl
@[simp] theorem rescale_rpos (s : State) : (rescale s).rpos = s.rpos := rfl
@[simp] theorem rescale_ioOps (s : State) : (rescale s).ioOps = s.ioOps := rfl
@[simp] theorem rescale_ioFail (s : State) : (rescale s).ioFail = s.ioFail := rfl
@[simp] theorem rescale_draws (s : State) : (rescale s).draws = s.draws := rfl

/-! ### `expandInterval` -/

@[simp] theorem expandInterval_cfg (r : Region) (s : State) : (expandInterval r s).cfg = s.cfg := rfl
@[simp] theorem expandInterval_freq (r : Region) (s : State) : (expandInterval r s).freq = s.freq := rfl
@[simp] theorem expandInterval_total (r : Region) (s : State) : (expandInterval r s).total = s.total := rfl
@[simp] theorem expandInterval_low (r : Region) (s : State) : (expandInterval r s).low = 2 * (s.low - regionOffset s.cfg r) := rfl
@[simp] theorem expandInterval_high (r : Region) (s : State) : (expandInterval r s).high = 2 * (s.high - regionOffset s.cfg r) := rfl
@[simp] theorem expandInterval_pending (r : Region) (s : State) : (expandInterval r s).pending = s.pending := rfl
@[simp] theorem expandInterval_z (r : Region) (s : State) : (expandInterval r s).z = s.z := rfl
@[simp] theorem expandInterval_mode (r : Region) (s : State) : (expandInterval r s).mode = s.mode := rfl
@[simp] theorem expandInterval_eos (r : Region) (s : State) : (expandInterval r s).eos = s.eos := rfl
@[simp] theorem expandInterval_cause (r : Region) (s : State) : (expandInterval r s).cause = s.cause := rfl
@[simp] theorem expandInterval_result (r : Region) (s : State) : (expandInterval r s).result = s.result := rfl
@[simp] theorem expandInterval_inputs (r : Region) (s : State) : (expandInterval r s).inputs = s.inputs := rfl
@[simp] theorem expandInterval_responses (r : Region) (s : State) : (expandInterval r s).responses = s.responses := rfl
@[simp] theorem expandInterval_out (r : Region) (s : State) : (expandInterval r s).out = s.out := rfl
@[simp] theorem expandInterval_source (r : Region) (s : State) : (expandInterval r s).source = s.source := rfl
@[simp] theorem expandInterval_rpos (r : Region) (s : State) : (expandInterval r s).rpos = s.rpos := rfl
@[simp] theorem expandInterval_ioOps (r : Region) (s : State) : (expandInterval r s).ioOps = s.ioOps := rfl
@[simp] theorem expandInterval_ioFail (r : Region) (s : State) : (expandInterval r s).ioFail = s.ioFail := rfl
@[simp] theorem expandInterval_draws (r : Region) (s : State) : (expandInterval r s).draws = s.draws := rfl

/-! ### `withFetchWord` -/

@[simp] theorem withFetchWord_cfg (s : State) (n w : Nat) : (s.withFetchWord n w).cfg = s.cfg := rfl
@[simp] theorem withFetchWord_freq (s : State) (n w : Nat) : (s.withFetchWord n w).freq = s.freq := rfl
@[simp] theorem withFetchWord_total (s : State) (n w : Nat) : (s.withFetchWord n w).total = s.total := rfl
@[simp] theorem withFetchWord_low (s : State) (n w : Nat) : (s.withFetchWord n w).low = s.low := rfl
@[simp] theorem withFetchWord_high (s : State) (n w : Nat) : (s.withFetchWord n w).high = s.high := rfl
@[simp] theorem withFetchWord_pending (s : State) (n w : Nat) : (s.withFetchWord n w).pending = s.pending := rfl
@[simp] theorem withFetchWord_z (s : State) (n w : Nat) : (s.withFetchWord n w).z = s.z := rfl
@[simp] theorem withFetchWord_mode (s : State) (n w : Nat) : (s.withFetchWord n w).mode = s.mode := rfl
@[simp] theorem withFetchWord_eos (s : State) (n w : Nat) : (s.withFetchWord n w).eos = s.eos := rfl
@[simp] theorem withFetchWord_cause (s : State) (n w : Nat) : (s.withFetchWord n w).cause = s.cause := rfl
@[simp] theorem withFetchWord_result (s : State) (n w : Nat) : (s.withFetchWord n w).result = s.result := rfl
@[simp] theorem withFetchWord_inputs (s : State) (n w : Nat) : (s.withFetchWord n w).inputs = .command (tableWord n w) :: s.inputs := rfl
@[simp] theorem withFetchWord_responses (s : State) (n w : Nat) : (s.withFetchWord n w).responses = s.responses := rfl
@[simp] theorem withFetchWord_out (s : State) (n w : Nat) : (s.withFetchWord n w).out = s.out := rfl
@[simp] theorem withFetchWord_source (s : State) (n w : Nat) : (s.withFetchWord n w).source = s.source := rfl
@[simp] theorem withFetchWord_rpos (s : State) (n w : Nat) : (s.withFetchWord n w).rpos = s.rpos := rfl
@[simp] theorem withFetchWord_ioOps (s : State) (n w : Nat) : (s.withFetchWord n w).ioOps = s.ioOps := rfl
@[simp] theorem withFetchWord_ioFail (s : State) (n w : Nat) : (s.withFetchWord n w).ioFail = s.ioFail := rfl
@[simp] theorem withFetchWord_draws (s : State) (n w : Nat) : (s.withFetchWord n w).draws = s.draws := rfl

/-! ### `enterFault` -/

@[simp] theorem enterFault_cfg (c : Cause) (w : CmdWord) (s : State) : (enterFault c w s).cfg = s.cfg := by
  unfold enterFault; split <;> rfl
@[simp] theorem enterFault_mode (c : Cause) (w : CmdWord) (s : State) : (enterFault c w s).mode = .fault := rfl
@[simp] theorem enterFault_eos (c : Cause) (w : CmdWord) (s : State) : (enterFault c w s).eos = s.eos := by
  unfold enterFault; split <;> rfl
@[simp] theorem enterFault_cause (c : Cause) (w : CmdWord) (s : State) : (enterFault c w s).cause = c := rfl
@[simp] theorem enterFault_result (c : Cause) (w : CmdWord) (s : State) : (enterFault c w s).result = w.setWidth 32 := rfl
@[simp] theorem enterFault_inputs (c : Cause) (w : CmdWord) (s : State) : (enterFault c w s).inputs = s.inputs := by
  unfold enterFault; split <;> rfl
@[simp] theorem enterFault_responses (c : Cause) (w : CmdWord) (s : State) : (enterFault c w s).responses = s.responses := by
  unfold enterFault; split <;> rfl
@[simp] theorem enterFault_out (c : Cause) (w : CmdWord) (s : State) : (enterFault c w s).out = s.out := by
  unfold enterFault; split <;> rfl
@[simp] theorem enterFault_source (c : Cause) (w : CmdWord) (s : State) : (enterFault c w s).source = s.source := by
  unfold enterFault; split <;> rfl
@[simp] theorem enterFault_rpos (c : Cause) (w : CmdWord) (s : State) : (enterFault c w s).rpos = s.rpos := by
  unfold enterFault; split <;> rfl
@[simp] theorem enterFault_ioOps (c : Cause) (w : CmdWord) (s : State) : (enterFault c w s).ioOps = s.ioOps := by
  unfold enterFault; split <;> rfl
@[simp] theorem enterFault_ioFail (c : Cause) (w : CmdWord) (s : State) : (enterFault c w s).ioFail = s.ioFail := by
  unfold enterFault; split <;> rfl

/-- A precise fault writes `MODE`, `CAUSE` and `RESULT` and nothing else (R199, R202). -/
theorem enterFault_precise (c : Cause) (w : CmdWord) (s : State) (h : c.imprecise = false) :
    enterFault c w s = { s with mode := .fault, cause := c, result := w.setWidth 32 } := by
  simp [enterFault, h]

/-- An imprecise fault leaves the other engine registers unspecified (R202). -/
theorem enterFault_imprecise (c : Cause) (w : CmdWord) (s : State) (h : c.imprecise = true) :
    enterFault c w s =
      { unspecify s with mode := .fault, cause := c, result := w.setWidth 32 } := by
  simp [enterFault, h]

/-! ### `update` -/

@[simp] theorem update_cfg (sym : Nat) (s : State) : (update sym s).cfg = s.cfg := by
  unfold update; split <;> rfl
@[simp] theorem update_low (sym : Nat) (s : State) : (update sym s).low = s.low := by
  unfold update; split <;> rfl
@[simp] theorem update_high (sym : Nat) (s : State) : (update sym s).high = s.high := by
  unfold update; split <;> rfl
@[simp] theorem update_pending (sym : Nat) (s : State) : (update sym s).pending = s.pending := by
  unfold update; split <;> rfl
@[simp] theorem update_z (sym : Nat) (s : State) : (update sym s).z = s.z := by
  unfold update; split <;> rfl
@[simp] theorem update_mode (sym : Nat) (s : State) : (update sym s).mode = s.mode := by
  unfold update; split <;> rfl
@[simp] theorem update_eos (sym : Nat) (s : State) : (update sym s).eos = s.eos := by
  unfold update; split <;> rfl
@[simp] theorem update_cause (sym : Nat) (s : State) : (update sym s).cause = s.cause := by
  unfold update; split <;> rfl
@[simp] theorem update_result (sym : Nat) (s : State) : (update sym s).result = s.result := by
  unfold update; split <;> rfl
@[simp] theorem update_inputs (sym : Nat) (s : State) : (update sym s).inputs = s.inputs := by
  unfold update; split <;> rfl
@[simp] theorem update_responses (sym : Nat) (s : State) : (update sym s).responses = s.responses := by
  unfold update; split <;> rfl
@[simp] theorem update_out (sym : Nat) (s : State) : (update sym s).out = s.out := by
  unfold update; split <;> rfl
@[simp] theorem update_source (sym : Nat) (s : State) : (update sym s).source = s.source := by
  unfold update; split <;> rfl
@[simp] theorem update_rpos (sym : Nat) (s : State) : (update sym s).rpos = s.rpos := by
  unfold update; split <;> rfl
@[simp] theorem update_ioOps (sym : Nat) (s : State) : (update sym s).ioOps = s.ioOps := by
  unfold update; split <;> rfl
@[simp] theorem update_ioFail (sym : Nat) (s : State) : (update sym s).ioFail = s.ioFail := by
  unfold update; split <;> rfl
@[simp] theorem update_draws (sym : Nat) (s : State) : (update sym s).draws = s.draws := by
  unfold update; split <;> rfl

/-- An update writes the table and `total` and nothing else (R104). -/
theorem update_eq (sym : Nat) (s : State) :
    update sym s = { s with freq := (update sym s).freq, total := (update sym s).total } := by
  unfold update; split <;> rfl

/-- An update depends on the parameters, the table and `total` and on nothing else (R106). -/
theorem update_congr (sym : Nat) {s t : State} (hc : s.cfg = t.cfg) (hf : s.freq = t.freq)
    (ht : s.total = t.total) :
    (update sym s).freq = (update sym t).freq ∧ (update sym s).total = (update sym t).total := by
  simp only [update, rescale, hc, hf, ht]
  split <;> simp [hf, ht]

/-- An update that does not reach the ceiling increments one entry and `total` (R104). -/
theorem update_below (sym : Nat) (s : State) (h : s.total < s.cfg.maxTotal) :
    update sym s =
      { s with freq := s.freq.set sym (s.freq.getD sym 0 + 1), total := s.total + 1 } := by
  unfold update
  rw [if_neg (by omega)]
  rfl

/-- An update at the ceiling rescales first (R104, R105). -/
theorem update_at_ceiling (sym : Nat) (s : State) (h : s.cfg.maxTotal ≤ s.total) :
    update sym s =
      { s with
        freq := (s.freq.map halve).set sym ((s.freq.map halve).getD sym 0 + 1)
        total := (s.freq.map halve).sum + 1 } := by
  unfold update
  rw [if_pos h]
  rfl

end Sys2Proof.Machine
end

