-- ==== Sys2Proof/Laws/Ops.lean ====
section
/-! SUPPORT. What each shared operation can do, said once: the sink and source primitives, taking a
fault, the checks before a command's rule, and the response. -/

namespace Sys2Proof.Machine

/-! ### Flow -/

@[simp] theorem Flow.bind_go {α β : Type} (a : α) (s : State) (k : α → State → Flow β) :
    (Flow.go a s).bind k = k a s := rfl

@[simp] theorem Flow.bind_raised {α β : Type} (c : Cause) (s : State) (k : α → State → Flow β) :
    (Flow.raised c s : Flow α).bind k = .raised c s := rfl

@[simp] theorem Flow.bind_stuck {α β : Type} (r : Fault) (k : α → State → Flow β) :
    (Flow.stuck r : Flow α).bind k = .stuck r := rfl

@[simp] theorem finish_go (w : CmdWord) (s : State) : finish w (.go () s) = .next s := rfl

@[simp] theorem finish_raised (w : CmdWord) (c : Cause) (s : State) :
    finish w (.raised c s) = .next (enterFault c w s) := rfl

@[simp] theorem finish_stuck (w : CmdWord) (r : Fault) : finish w (.stuck r) = .fault r := rfl

/-! ### Sink operations -/

/-- The state after `ops` operations that appended `events` to the sink's trace. -/
def State.sent (s : State) (events : List SinkEvent) (ops : Nat) : State :=
  { s with out := s.out ++ events, ioOps := s.ioOps + ops }

theorem State.sent_sent (s : State) (e f : List SinkEvent) (m n : Nat) :
    (s.sent e m).sent f n = s.sent (e ++ f) (m + n) := by
  simp [State.sent, Nat.add_assoc]

theorem ioAttempt_ok (s : State) (h : s.ioOps ∉ s.ioFail) :
    ioAttempt s = .go () { s with ioOps := s.ioOps + 1 } := by
  simp [ioAttempt, h]

theorem ioAttempt_fails (s : State) (h : s.ioOps ∈ s.ioFail) :
    ioAttempt s = .raised .io { s with ioOps := s.ioOps + 1 } := by
  simp [ioAttempt, h]

theorem writeBit_ok (b : Bool) (s : State) (h : s.ioOps ∉ s.ioFail) :
    writeBit b s = .go () (s.sent [.bit b] 1) := by
  simp [writeBit, ioAttempt_ok s h, State.sent]

theorem writeBit_fails (b : Bool) (s : State) (h : s.ioOps ∈ s.ioFail) :
    writeBit b s = .raised .io (s.sent [] 1) := by
  simp [writeBit, ioAttempt_fails s h, State.sent]

theorem flush_ok (s : State) (h : s.ioOps ∉ s.ioFail) :
    flush s = .go () (s.sent [.flush] 1) := by
  simp [flush, ioAttempt_ok s h, State.sent]

theorem flush_fails (s : State) (h : s.ioOps ∈ s.ioFail) :
    flush s = .raised .io (s.sent [] 1) := by
  simp [flush, ioAttempt_fails s h, State.sent]

/-- `writeBits(b, n)`: all `n` bits are sent, or the first failing operation stops the run after the
bits before it (R54, R65). -/
theorem writeBits_cases (b : Bool) (n : Nat) (s : State) :
    ((∀ j < n, s.ioOps + j ∉ s.ioFail) ∧
      writeBits b n s = .go () (s.sent (List.replicate n (.bit b)) n)) ∨
    (∃ j < n, s.ioOps + j ∈ s.ioFail ∧ (∀ i < j, s.ioOps + i ∉ s.ioFail) ∧
      writeBits b n s = .raised .io (s.sent (List.replicate j (.bit b)) (j + 1))) := by
  induction n generalizing s with
  | zero => left; simp [writeBits, State.sent]
  | succ n ih =>
    by_cases h : s.ioOps ∈ s.ioFail
    · right
      refine ⟨0, by omega, by simpa using h, by simp, ?_⟩
      simp [writeBits, writeBit_fails b s h]
    · simp only [writeBits, writeBit_ok b s h, Flow.bind_go]
      rcases ih (s.sent [.bit b] 1) with ⟨hok, he⟩ | ⟨j, hj, hf, hb, he⟩
      · left
        refine ⟨fun j hj => ?_, ?_⟩
        · rcases j with _ | j
          · simpa using h
          · have := hok j (by omega)
            simpa [State.sent, Nat.add_assoc, Nat.add_comm 1 j] using this
        · rw [he, State.sent_sent, ← List.singleton_append, List.replicate_succ, Nat.add_comm 1 n]
          rfl
      · right
        refine ⟨j + 1, by omega, ?_, fun i hi => ?_, ?_⟩
        · simpa [State.sent, Nat.add_assoc, Nat.add_comm 1 j] using hf
        · rcases i with _ | i
          · simpa using h
          · have := hb i (by omega)
            simpa [State.sent, Nat.add_assoc, Nat.add_comm 1 i] using this
        · rw [he, State.sent_sent, List.replicate_succ, ← List.singleton_append]
          simp [Nat.add_comm, Nat.add_left_comm]

/-! ### Source operations -/

/-- The state after `ops` operations that consumed `bits` bits of the source. -/
def State.consumed (s : State) (bits ops : Nat) : State :=
  { s with rpos := s.rpos + bits, ioOps := s.ioOps + ops }

/-- `nextbit()`: past the end one operation and the bit 0; before it two operations and the next bit;
or a failure that leaves `rpos` where it is (R57, R65). -/
theorem nextBit_cases (s : State) :
    (s.source.length ≤ s.rpos ∧ s.ioOps ∉ s.ioFail ∧
      nextBit s = .go false (s.consumed 0 1)) ∨
    (s.rpos < s.source.length ∧ s.ioOps ∉ s.ioFail ∧ s.ioOps + 1 ∉ s.ioFail ∧
      nextBit s = .go (s.source.getD s.rpos false) (s.consumed 1 2)) ∨
    (s.ioOps ∈ s.ioFail ∧ nextBit s = .raised .io (s.consumed 0 1)) ∨
    (s.rpos < s.source.length ∧ s.ioOps ∉ s.ioFail ∧ s.ioOps + 1 ∈ s.ioFail ∧
      nextBit s = .raised .io (s.consumed 0 2)) := by
  by_cases h : s.ioOps ∈ s.ioFail
  · right; right; left
    exact ⟨h, by simp [nextBit, isExhausted, ioAttempt_fails s h, State.consumed]⟩
  · by_cases hr : s.source.length ≤ s.rpos
    · left
      exact ⟨hr, h, by simp [nextBit, isExhausted, ioAttempt_ok s h, State.consumed, hr]⟩
    · by_cases h2 : s.ioOps + 1 ∈ s.ioFail
      · right; right; right
        refine ⟨by omega, h, h2, ?_⟩
        simp [nextBit, isExhausted, ioAttempt_ok s h, State.consumed, hr, readBit,
          ioAttempt_fails { s with ioOps := s.ioOps + 1 } h2]
      · right; left
        refine ⟨by omega, h, h2, ?_⟩
        simp [nextBit, isExhausted, ioAttempt_ok s h, State.consumed, hr, readBit,
          ioAttempt_ok { s with ioOps := s.ioOps + 1 } h2]

/-! ### The checks before a command's rule -/

theorem checkedRun_in_fault (i : Instr) (s : State) (rule : State → Flow Unit) (h : s.mode = .fault) :
    checkedRun i s rule = .next s := by
  simp [checkedRun, h]

theorem checkedRun_illegal (i : Instr) (s : State) (rule : State → Flow Unit)
    (hm : s.mode ≠ .fault) (h : legalIn i s.mode = false) :
    checkedRun i s rule = .next (enterFault .sequence (encode i) s) := by
  simp [checkedRun, hm, h]

theorem checkedRun_out_of_range (i : Instr) (s : State) (rule : State → Flow Unit)
    (hm : s.mode ≠ .fault) (hl : legalIn i s.mode = true) (h : operandInRange s.cfg i = false) :
    checkedRun i s rule = .next (enterFault .modelRange (encode i) s) := by
  simp [checkedRun, hm, hl, h]

theorem checkedRun_runs (i : Instr) (s : State) (rule : State → Flow Unit)
    (hm : s.mode ≠ .fault) (hl : legalIn i s.mode = true) (h : operandInRange s.cfg i = true) :
    checkedRun i s rule = finish (encode i) (rule s) := by
  simp [checkedRun, hm, hl, h]

/-- Everything a checked command can do. -/
theorem checkedRun_cases (i : Instr) (s : State) (rule : State → Flow Unit) :
    (s.mode = .fault ∧ checkedRun i s rule = .next s) ∨
    (s.mode ≠ .fault ∧ legalIn i s.mode = false ∧
      checkedRun i s rule = .next (enterFault .sequence (encode i) s)) ∨
    (s.mode ≠ .fault ∧ legalIn i s.mode = true ∧ operandInRange s.cfg i = false ∧
      checkedRun i s rule = .next (enterFault .modelRange (encode i) s)) ∨
    (s.mode ≠ .fault ∧ legalIn i s.mode = true ∧ operandInRange s.cfg i = true ∧
      checkedRun i s rule = finish (encode i) (rule s)) := by
  by_cases hm : s.mode = .fault
  · exact .inl ⟨hm, checkedRun_in_fault i s rule hm⟩
  · cases hl : legalIn i s.mode
    · exact .inr (.inl ⟨hm, rfl, checkedRun_illegal i s rule hm hl⟩)
    · cases hr : operandInRange s.cfg i
      · exact .inr (.inr (.inl ⟨hm, rfl, rfl, checkedRun_out_of_range i s rule hm hl hr⟩))
      · exact .inr (.inr (.inr ⟨hm, rfl, rfl, checkedRun_runs i s rule hm hl hr⟩))

end Sys2Proof.Machine
end

