-- ==== Sys2Proof/Laws/Table.lean ====
section
/-! SUPPORT. The frequency table: sums, a write of one entry, the halving of a rescale, and that every
operation on the table keeps its form. -/

namespace Sys2Proof.Machine

theorem readFreq_eq (t : FreqTable) (sym : Nat) (h : sym < t.length) : readFreq t sym = t[sym] := by
  simp [readFreq, List.getD_eq_getElem?_getD, List.getElem?_eq_getElem h]

/-- Read after write of the same entry. -/
theorem readFreq_writeFreq_same (t : FreqTable) (sym v : Nat) (h : sym < t.length) :
    readFreq (writeFreq t sym v) sym = v := by
  simp [readFreq, writeFreq, List.getD_eq_getElem?_getD, h]

/-- A write leaves every other entry alone. -/
theorem readFreq_writeFreq_other (t : FreqTable) (sym other v : Nat) (h : other ≠ sym) :
    readFreq (writeFreq t sym v) other = readFreq t other := by
  simp [readFreq, writeFreq, List.getD_eq_getElem?_getD, List.getElem?_set_ne (Ne.symm h)]

@[simp] theorem length_writeFreq (t : FreqTable) (sym v : Nat) :
    (writeFreq t sym v).length = t.length := by
  simp [writeFreq]

/-- A write changes the sum by the change of its entry. -/
theorem sum_writeFreq (t : FreqTable) (sym v : Nat) (h : sym < t.length) :
    (writeFreq t sym v).sum + readFreq t sym = t.sum + v := by
  induction t generalizing sym with
  | nil => simp at h
  | cons f t ih =>
    cases sym with
    | zero => simp [writeFreq, readFreq]; omega
    | succ sym =>
      have := ih sym (by simpa using h)
      simp only [writeFreq, readFreq, List.set_cons_succ, List.sum_cons, List.getD_cons_succ] at this ⊢
      omega

/-- The sum after the increment of one entry. -/
theorem sum_increment (t : FreqTable) (sym : Nat) (h : sym < t.length) :
    (writeFreq t sym (readFreq t sym + 1)).sum = t.sum + 1 := by
  have := sum_writeFreq t sym (readFreq t sym + 1) h
  omega

/-- `cumEnd(s)` is the sum of the entries up to and including `s` (R101). -/
theorem cumEnd_eq_take (t : FreqTable) (sym : Nat) (h : sym < t.length) :
    cumEnd t sym = (t.take (sym + 1)).sum := by
  rw [cumEnd, cumBegin, readFreq_eq t sym h, List.take_succ_eq_append_getElem h, List.sum_append]
  simp

theorem cumEnd_le_sum (t : FreqTable) (sym : Nat) (h : sym < t.length) :
    cumEnd t sym ≤ t.sum := by
  rw [cumEnd_eq_take t sym h]
  conv_rhs => rw [← List.take_append_drop (sym + 1) t, List.sum_append]
  omega

/-- A table of positive entries sums to at least its length. -/
theorem length_le_sum (t : FreqTable) (h : ∀ f ∈ t, 1 ≤ f) : t.length ≤ t.sum := by
  induction t with
  | nil => simp
  | cons f t ih =>
    have h1 := h f (by simp)
    have h2 := ih fun g hg => h g (by simp [hg])
    simp only [List.length_cons, List.sum_cons]
    omega

theorem le_sum_of_mem (t : FreqTable) (f : Nat) (h : f ∈ t) : f ≤ t.sum :=
  List.single_le_sum (by simp) f h

theorem one_le_halve (f : Nat) : 1 ≤ halve f := by
  unfold halve; split <;> omega

theorem two_mul_halve_le (f : Nat) (h : 1 ≤ f) : 2 * halve f ≤ f + 1 := by
  unfold halve; split <;> omega

theorem halve_le_of_pos (f : Nat) (h : 1 ≤ f) : halve f ≤ f := by
  unfold halve; split <;> omega

theorem halve_eq_max (f : Nat) : halve f = max 1 (f / 2) := by
  unfold halve; split <;> omega

/-- The total of a rescaled table (R107). -/
theorem two_mul_sum_halve_le (t : FreqTable) (h : ∀ f ∈ t, 1 ≤ f) :
    2 * (t.map halve).sum ≤ t.sum + t.length := by
  induction t with
  | nil => simp
  | cons f t ih =>
    have h1 := two_mul_halve_le f (h f (by simp))
    have h2 := ih fun g hg => h g (by simp [hg])
    simp only [List.map_cons, List.sum_cons, List.length_cons]
    omega

/-! ### The form of the table is kept -/

theorem Memory.wf_iff (p : Params) (t : FreqTable) :
    Memory.wf p t = true ↔ t.length = p.k ∧ ∀ f ∈ t, f < 2 ^ p.cntW := by
  simp [Memory.wf]

theorem Memory.wf_writeFreq (p : Params) (t : FreqTable) (sym v : Nat)
    (h : Memory.wf p t = true) (hv : v < 2 ^ p.cntW) : Memory.wf p (writeFreq t sym v) = true := by
  rw [Memory.wf_iff] at h ⊢
  refine ⟨by simpa using h.1, fun f hf => ?_⟩
  rcases List.mem_or_eq_of_mem_set hf with hf | rfl
  · exact h.2 f hf
  · exact hv

theorem Memory.wf_modelInit (s : State) (h : 1 < 2 ^ s.cfg.cntW) :
    Memory.wf s.cfg (modelInit s).freq = true := by
  rw [Memory.wf_iff]
  exact ⟨by simp, fun f hf => by simp at hf; omega⟩

theorem Memory.wf_rescale (s : State) (h : Memory.wf s.cfg s.freq = true)
    (h1 : 1 < 2 ^ s.cfg.cntW) : Memory.wf s.cfg (rescale s).freq = true := by
  rw [Memory.wf_iff] at h ⊢
  refine ⟨by simpa using h.1, fun f hf => ?_⟩
  obtain ⟨g, hg, rfl⟩ := List.mem_map.1 hf
  have := h.2 g hg
  unfold halve
  split <;> omega

/-- Free values have the table's form too (R202). -/
theorem Memory.wf_unspecify (s : State) : Memory.wf s.cfg (unspecify s).freq = true := by
  rw [Memory.wf_iff]
  refine ⟨by simp [unspecify], fun f hf => ?_⟩
  simp only [unspecify, List.mem_map, List.mem_range] at hf
  obtain ⟨n, -, rfl⟩ := hf
  exact Nat.mod_lt _ (by positivity)

theorem Memory.wf_update (sym : Nat) (s : State) (h : Memory.wf s.cfg s.freq = true)
    (h1 : 1 < 2 ^ s.cfg.cntW)
    (hv : readFreq (if s.cfg.maxTotal ≤ s.total then s.freq.map halve else s.freq) sym + 1
      < 2 ^ s.cfg.cntW) :
    Memory.wf s.cfg (update sym s).freq = true := by
  unfold update
  split
  · rename_i hc
    rw [if_pos hc] at hv
    exact Memory.wf_writeFreq _ _ _ _ (Memory.wf_rescale s h h1) hv
  · rename_i hc
    rw [if_neg hc] at hv
    exact Memory.wf_writeFreq _ _ _ _ h hv

theorem Memory.wf_reset : Memory.wf State.reset.cfg State.reset.freq = true := by
  rw [Memory.wf_iff]
  exact ⟨List.length_replicate, fun f hf => by rw [List.eq_of_mem_replicate hf]; decide⟩

end Sys2Proof.Machine
end

