-- ==== Sys2Proof/Laws/Interval.lean ====
section
/-! SUPPORT. What the coder's operations can do, said once: the emission of a decided bit with the
deferred ones, and the two renormalisation loops against the trace of regions. -/

namespace Sys2Proof.Machine

/-! ### Emission -/

/-- `emit_with_pending(b)` sends the decided bit and the deferred ones, or stops at the first failing
operation with the bits before it sent (R136, R65). -/
theorem emitWithPending_cases (b : Bool) (s : State) :
    ((∀ j < s.pending.toNat + 1, s.ioOps + j ∉ s.ioFail) ∧
      emitWithPending b s = .go ()
        { s.sent ((b :: List.replicate s.pending.toNat (!b)).map .bit) (s.pending.toNat + 1) with
          pending := 0 }) ∨
    (∃ j < s.pending.toNat + 1, s.ioOps + j ∈ s.ioFail ∧ (∀ i < j, s.ioOps + i ∉ s.ioFail) ∧
      emitWithPending b s = .raised .io
        (s.sent (((b :: List.replicate s.pending.toNat (!b)).take j).map .bit) (j + 1))) := by
  by_cases h : s.ioOps ∈ s.ioFail
  · right
    exact ⟨0, by omega, by simpa using h, by simp, by simp [emitWithPending, writeBit_fails b s h]⟩
  · rcases writeBits_cases (!b) s.pending.toNat (s.sent [.bit b] 1) with ⟨hok, he⟩ | ⟨j, hj, hf, hb, he⟩
    · left
      refine ⟨fun j hj => ?_, ?_⟩
      · rcases j with _ | j
        · simpa using h
        · have := hok j (by omega)
          simpa [State.sent, Nat.add_assoc, Nat.add_comm 1 j] using this
      · simp only [emitWithPending, writeBit_ok b s h, Flow.bind_go]
        rw [show (s.sent [.bit b] 1).pending = s.pending from rfl, he]
        simp [State.sent]
        omega
    · right
      refine ⟨j + 1, by omega, ?_, fun i hi => ?_, ?_⟩
      · simpa [State.sent, Nat.add_assoc, Nat.add_comm 1 j] using hf
      · rcases i with _ | i
        · simpa using h
        · have := hb i (by omega)
          simpa [State.sent, Nat.add_assoc, Nat.add_comm 1 i] using this
      · simp only [emitWithPending, writeBit_ok b s h, Flow.bind_go]
        rw [show (s.sent [.bit b] 1).pending = s.pending from rfl, he]
        simp [State.sent, List.take_replicate, Nat.min_eq_left (Nat.le_of_lt hj)]
        omega

theorem incPending_ok (s : State) (h : s.pending.toNat + 1 < 2 ^ 32) :
    incPending s = .go () { s with pending := s.pending + 1 } := by
  unfold incPending
  rw [if_neg (by simp only [pendW]; omega)]

theorem incPending_overflows (s : State) (h : s.pending.toNat + 1 = 2 ^ 32) :
    incPending s = .raised .pendingOvf s := by
  unfold incPending
  rw [if_pos (by simp only [pendW]; omega)]

theorem pending_add_one_toNat (v : BitVec 32) (h : v.toNat + 1 < 2 ^ 32) :
    (v + 1).toNat = v.toNat + 1 := by
  rw [BitVec.toNat_add]
  exact Nat.mod_eq_of_lt (by simpa using h)

/-! ### The encoder's renormalisation against the trace of regions -/

/-- The state after the encoder passed through the regions `tr` (R137). -/
def afterRegions (tr : List Region) (s : State) : State :=
  { s with
    low := tr.foldl (expandEnd s.cfg) s.low
    high := tr.foldl (expandEnd s.cfg) s.high
    pending := BitVec.ofNat 32 (tracePending tr s.pending.toNat)
    out := s.out ++ (traceBits tr s.pending.toNat).map .bit
    ioOps := s.ioOps + (traceBits tr s.pending.toNat).length }

theorem afterRegions_nil (s : State) : afterRegions [] s = s := by
  simp [afterRegions, tracePending, traceBits]

/-- The bits a sequence of regions sends before `pending` overflows, if it does (R136 to R138). -/
def overflowBits : List Region → Nat → Option (List Bool)
  | [], _ => none
  | .left :: rs, pending => (overflowBits rs 0).map ((false :: List.replicate pending true) ++ ·)
  | .right :: rs, pending => (overflowBits rs 0).map ((true :: List.replicate pending false) ++ ·)
  | .middle :: rs, pending =>
    if pending + 1 = 2 ^ 32 then some [] else overflowBits rs (pending + 1)
  | .none :: rs, pending => overflowBits rs pending

/-- How the encoder's renormalisation can end, from `s`, with fuel `n`, when the regions ahead are `tr`:
it completes, having passed through them; it stops at the first failing sink operation, which comes
before any overflow of `pending`, or at that overflow, with a prefix of their bits sent; or, when they are as many as the fuel, it does not end
(R137, R65, R138). -/
def EncEnds (n : Nat) (s : State) (tr : List Region) (x : Flow Unit) : Prop :=
  (tr.length < n ∧ (∀ j < (traceBits tr s.pending.toNat).length, s.ioOps + j ∉ s.ioFail) ∧
    tracePending tr s.pending.toNat < 2 ^ 32 ∧ overflowBits tr s.pending.toNat = none ∧
    x = .go () (afterRegions tr s)) ∨
  (∃ (sent : List Bool) (t : State), sent <+: traceBits tr s.pending.toNat ∧
    sent.length < (traceBits tr s.pending.toNat).length ∧
    (∀ o, overflowBits tr s.pending.toNat = some o → sent.length < o.length) ∧
    s.ioOps + sent.length ∈ s.ioFail ∧ (∀ j < sent.length, s.ioOps + j ∉ s.ioFail) ∧
    x = .raised .io t ∧
    t = { s with
      low := t.low, high := t.high, pending := t.pending
      out := s.out ++ sent.map .bit, ioOps := s.ioOps + sent.length + 1 }) ∨
  (∃ (sent : List Bool) (t : State), sent <+: traceBits tr s.pending.toNat ∧
    overflowBits tr s.pending.toNat = some sent ∧
    2 ^ 32 ≤ s.pending.toNat + tr.length ∧ (∀ j < sent.length, s.ioOps + j ∉ s.ioFail) ∧
    x = .raised .pendingOvf t ∧
    t = { s with
      low := t.low, high := t.high, pending := t.pending
      out := s.out ++ sent.map .bit, ioOps := s.ioOps + sent.length }) ∨
  (tr.length = n ∧ x = .stuck .renormDiverges)

theorem not_mem_append_range {l : List Nat} {a m k : Nat} (h1 : ∀ j < m, a + j ∉ l)
    (h2 : ∀ j < k, a + m + j ∉ l) : ∀ j < m + k, a + j ∉ l := by
  intro j hj
  by_cases h : j < m
  · exact h1 j h
  · have := h2 (j - m) (by omega)
    rwa [show a + m + (j - m) = a + j by omega] at this

/-- One iteration before the rest: `pre` are the bits it sent. -/
theorem EncEnds.cons {n : Nat} {s s1 : State} {r : Region} {tr : List Region} {pre : List Bool}
    {x : Flow Unit}
    (hs : s1 = { s with
      low := expandEnd s.cfg s.low r, high := expandEnd s.cfg s.high r, pending := s1.pending
      out := s.out ++ pre.map .bit, ioOps := s.ioOps + pre.length })
    (hbits : traceBits (r :: tr) s.pending.toNat = pre ++ traceBits tr s1.pending.toNat)
    (hpend : tracePending (r :: tr) s.pending.toNat = tracePending tr s1.pending.toNat)
    (hovf : overflowBits (r :: tr) s.pending.toNat
      = (overflowBits tr s1.pending.toNat).map (pre ++ ·))
    (hle : s1.pending.toNat ≤ s.pending.toNat + 1)
    (hpre : ∀ j < pre.length, s.ioOps + j ∉ s.ioFail)
    (h : EncEnds n s1 tr x) : EncEnds (n + 1) s (r :: tr) x := by
  have hops : s1.ioOps = s.ioOps + pre.length := by rw [hs]
  have hfail : s1.ioFail = s.ioFail := by rw [hs]
  have hout : s1.out = s.out ++ pre.map .bit := by rw [hs]
  rcases h with ⟨hl, hio, hp, ho, rfl⟩ | ⟨sent, t, hs1, hlt, ho, hf, hio, rfl, ht⟩ |
    ⟨sent, t, hs1, ho, hp, hio, rfl, ht⟩ | ⟨hl, rfl⟩
  · left
    rw [hops, hfail] at hio
    refine ⟨by simpa using hl, ?_, by rwa [hpend], by rw [hovf, ho]; rfl, ?_⟩
    · rw [hbits, List.length_append]
      exact not_mem_append_range hpre hio
    · congr 1
      simp only [afterRegions, hbits, hpend, hout, hops]
      rw [hs]
      simp [Nat.add_assoc]
  · right; left
    rw [hops, hfail] at hf hio
    refine ⟨pre ++ sent, t, ?_, ?_, fun o h => ?_, ?_, ?_, rfl, ?_⟩
    · rw [hbits]; exact (List.prefix_append_right_inj pre).2 hs1
    · rw [hbits]; simpa using hlt
    · rw [hovf] at h
      obtain ⟨o', h', rfl⟩ := Option.map_eq_some_iff.1 h
      simpa using ho o' h'
    · simpa [Nat.add_assoc] using hf
    · rw [List.length_append]; exact not_mem_append_range hpre hio
    · rw [ht, hout, hops, hs]
      simp [Nat.add_assoc]
  · right; right; left
    rw [hops, hfail] at hio
    refine ⟨pre ++ sent, t, ?_, by rw [hovf, ho]; rfl, ?_, ?_, rfl, ?_⟩
    · rw [hbits]; exact (List.prefix_append_right_inj pre).2 hs1
    · simp only [List.length_cons]; omega
    · rw [List.length_append]; exact not_mem_append_range hpre hio
    · rw [ht, hout, hops, hs]
      simp [Nat.add_assoc]
  · right; right; right
    exact ⟨by simpa using hl, rfl⟩

/-- An iteration that emits bit `b` first (`LEFT`, `RIGHT`). -/
theorem EncEnds.emit {n : Nat} {s : State} {r : Region} {b : Bool} {tr : List Region}
    (hbits : ∀ p, traceBits (r :: tr) p = (b :: List.replicate p (!b)) ++ traceBits tr 0)
    (hpend : ∀ p, tracePending (r :: tr) p = tracePending tr 0)
    (hovf : ∀ p, overflowBits (r :: tr) p
      = (overflowBits tr 0).map ((b :: List.replicate p (!b)) ++ ·))
    (ih : ∀ s1 : State, s1.cfg = s.cfg → s1.low = expandEnd s.cfg s.low r →
      s1.high = expandEnd s.cfg s.high r → EncEnds n s1 tr (encRenorm n s1)) :
    EncEnds (n + 1) s (r :: tr)
      ((emitWithPending b s).bind fun _ t => encRenorm n (expandInterval r t)) := by
  rcases emitWithPending_cases b s with ⟨hok, he⟩ | ⟨j, hj, hf, hb, he⟩
  · rw [he, Flow.bind_go]
    refine EncEnds.cons (s1 := expandInterval r _) (pre := b :: List.replicate s.pending.toNat (!b))
      ?_ ?_ ?_ ?_ ?_ ?_ (ih _ rfl rfl rfl)
    · simp [expandInterval, State.sent, expandEnd]
    · rw [hbits]; rfl
    · rw [hpend]; rfl
    · rw [hovf]; rfl
    · simp [expandInterval]
    · simpa using hok
  · rw [he, Flow.bind_raised]
    right; left
    have hlen : ((b :: List.replicate s.pending.toNat (!b)).take j).length = j := by
      simp; omega
    refine ⟨(b :: List.replicate s.pending.toNat (!b)).take j, _, ?_, ?_, fun o h => ?_, ?_, ?_, rfl, ?_⟩
    · rw [hbits]
      exact (List.take_prefix _ _).trans (List.prefix_append _ _)
    · rw [hlen, hbits]; simp; omega
    · rw [hovf] at h
      obtain ⟨o', -, rfl⟩ := Option.map_eq_some_iff.1 h
      rw [hlen]; simp; omega
    · rwa [hlen]
    · rwa [hlen]
    · rw [hlen]; simp [State.sent, Nat.add_assoc]

/-- Everything `enc_renorm` can do. -/
theorem encRenorm_cases (n : Nat) (s : State) :
    EncEnds n s (regionTrace s.cfg n s.low s.high) (encRenorm n s) := by
  induction n generalizing s with
  | zero => right; right; right; simp [regionTrace, encRenorm]
  | succ n ih =>
    have ih' : ∀ (r : Region) (s1 : State), s1.cfg = s.cfg → s1.low = expandEnd s.cfg s.low r →
        s1.high = expandEnd s.cfg s.high r →
        EncEnds n s1 (regionTrace s.cfg n (expandEnd s.cfg s.low r) (expandEnd s.cfg s.high r))
          (encRenorm n s1) := by
      intro r s1 hc hl hh
      have := ih s1
      rwa [hc, hl, hh] at this
    simp only [regionTrace, encRenorm]
    cases hr : region s.cfg s.low s.high with
    | left =>
      exact EncEnds.emit (b := false) (fun p => by simp [traceBits]) (fun p => rfl) (fun p => rfl)
        (ih' .left)
    | right =>
      exact EncEnds.emit (b := true) (fun p => by simp [traceBits]) (fun p => rfl) (fun p => rfl)
        (ih' .right)
    | middle =>
      by_cases hp : s.pending.toNat + 1 < 2 ^ 32
      · rw [incPending_ok s hp, Flow.bind_go]
        have hv := pending_add_one_toNat s.pending hp
        refine EncEnds.cons (s1 := expandInterval .middle _) (pre := []) ?_ ?_ ?_ ?_ ?_ (by simp)
          (ih' .middle _ rfl rfl rfl)
        · simp [expandInterval, expandEnd]
        · exact congrArg (traceBits _) hv.symm
        · exact congrArg (tracePending _) hv.symm
        · simp only [overflowBits, if_neg (Nat.ne_of_lt hp), List.nil_append, Option.map_id']
          exact congrArg (overflowBits _) hv.symm
        · exact hv.le
      · have := s.pending.isLt
        rw [incPending_overflows s (by omega), Flow.bind_raised]
        right; right; left
        exact ⟨[], s, by simp, by simp only [overflowBits]; rw [if_pos (by omega)], by simp only [List.length_cons]; omega, by simp, rfl, by simp⟩
    | none =>
      left
      exact ⟨by simp, by simp [traceBits], by simpa [tracePending] using s.pending.isLt, rfl,
        by rw [afterRegions_nil]⟩

/-! ### Reading the source -/

/-- The state after `n` calls of `nextbit()` (R57): past the end of the source `rpos` stays, and such a
call makes one operation in place of two. -/
def State.readAhead (s : State) (n : Nat) : State :=
  { s with
    rpos := max s.rpos (min s.source.length (s.rpos + n))
    ioOps := s.ioOps + n + (min s.source.length (s.rpos + n) - s.rpos) }

theorem State.readAhead_zero (s : State) : s.readAhead 0 = s := by
  have h : min s.source.length s.rpos - s.rpos = 0 := by omega
  simp [State.readAhead, h]

theorem State.readAhead_readAhead (s : State) (m n : Nat) :
    (s.readAhead m).readAhead n = s.readAhead (m + n) := by
  simp only [State.readAhead]
  congr 1 <;> omega

/-- No operation of `n` calls of `nextbit()` fails. -/
def State.ReadsOk (s : State) (n : Nat) : Prop :=
  ∀ j, s.ioOps ≤ j → j < (s.readAhead n).ioOps → j ∉ s.ioFail

theorem State.ReadsOk.succ {s : State} {n : Nat} (h1 : s.ReadsOk 1)
    (h2 : (s.readAhead 1).ReadsOk n) : s.ReadsOk (n + 1) := by
  intro j hj hlt
  by_cases h : j < (s.readAhead 1).ioOps
  · exact h1 j hj h
  · refine h2 j (by omega) ?_
    rwa [State.readAhead_readAhead, Nat.add_comm 1 n]

/-- How `n` calls of `nextbit()` can stop: at a failing operation of theirs, before which none failed, with one bit
consumed for each two operations before it while there were any; only `low`, `high`, `z`, `rpos` and
`ioOps` differ (R57, R65). -/
def DecStops (n : Nat) (s : State) (x : Flow Unit) : Prop :=
  ∃ t : State, x = .raised .io t ∧ s.ioOps < t.ioOps ∧ t.ioOps ≤ (s.readAhead n).ioOps ∧
    t.ioOps - 1 ∈ s.ioFail ∧
    (∀ j, s.ioOps ≤ j → j < t.ioOps - 1 → j ∉ s.ioFail) ∧
    t.rpos = max s.rpos (min s.source.length (s.rpos + (t.ioOps - s.ioOps - 1) / 2)) ∧
    t = { s with low := t.low, high := t.high, z := t.z, rpos := t.rpos, ioOps := t.ioOps }

/-- A stop after one more read. -/
theorem DecStops.cons {n : Nat} {s s1 : State} {x : Flow Unit}
    (hs : s1 = { s.readAhead 1 with low := s1.low, high := s1.high, z := s1.z })
    (h1 : s.ReadsOk 1) (h : DecStops n s1 x) : DecStops (n + 1) s x := by
  obtain ⟨t, rfl, hlt, hle, hf, hb, hr, ht⟩ := h
  have hops : s1.ioOps = (s.readAhead 1).ioOps := by rw [hs]
  have hfail : s1.ioFail = s.ioFail := by rw [hs]; rfl
  have hrp : s1.rpos = (s.readAhead 1).rpos := by rw [hs]
  have hsrc : s1.source = s.source := by rw [hs]; rfl
  rw [hfail] at hf hb
  rw [hops] at hlt hb hr
  rw [hrp, hsrc] at hr
  have ho : s.ioOps < (s.readAhead 1).ioOps := by simp only [State.readAhead]; omega
  refine ⟨t, rfl, by omega, ?_, hf, fun j hj hjt => ?_, ?_, ?_⟩
  · have e : (s1.readAhead n).ioOps = ((s.readAhead 1).readAhead n).ioOps := by rw [hs]; rfl
    rwa [e, State.readAhead_readAhead, Nat.add_comm 1 n] at hle
  · by_cases hj1 : j < (s.readAhead 1).ioOps
    · exact h1 j hj hj1
    · exact hb j (by omega) hjt
  · simp only [State.readAhead] at hr hlt
    omega
  · rw [ht, hs]; rfl

/-- A stop within fewer calls. -/
theorem DecStops.mono {m n : Nat} {s : State} {x : Flow Unit} (h : DecStops m s x) (hmn : m ≤ n) :
    DecStops n s x := by
  obtain ⟨t, hx, hlt, hle, hrest⟩ := h
  refine ⟨t, hx, hlt, ?_, hrest⟩
  simp only [State.readAhead] at hle ⊢
  omega

/-- `nextbit()` answers the next bit, 0 past the end, or stops. -/
theorem nextBit_reads (s : State) :
    (s.ReadsOk 1 ∧ nextBit s = .go (s.source.getD s.rpos false) (s.readAhead 1)) ∨
    (∃ t, nextBit s = .raised .io t ∧ DecStops 1 s (.raised .io t)) := by
  rcases nextBit_cases s with ⟨hr, h, he⟩ | ⟨hr, h, h2, he⟩ | ⟨h, he⟩ | ⟨hr, h, h2, he⟩
  · left
    have e : s.consumed 0 1 = s.readAhead 1 := by
      simp only [State.consumed, State.readAhead]
      congr 1 <;> omega
    refine ⟨fun j hj hlt => ?_, ?_⟩
    · rw [← e] at hlt
      simp only [State.consumed] at hlt
      rwa [show j = s.ioOps by omega]
    · rw [he, e, List.getD_eq_getElem?_getD, List.getElem?_eq_none hr]
      rfl
  · left
    have e : s.consumed 1 2 = s.readAhead 1 := by
      simp only [State.consumed, State.readAhead]
      congr 1 <;> omega
    refine ⟨fun j hj hlt => ?_, by rw [he, e]⟩
    rw [← e] at hlt
    simp only [State.consumed] at hlt
    rcases Nat.eq_or_lt_of_le hj with rfl | hj
    · exact h
    · rwa [show j = s.ioOps + 1 by omega]
  · right
    refine ⟨_, he, _, rfl, ?_, ?_, ?_, ?_, ?_, ?_⟩ <;> simp [State.consumed]
    · simp only [State.readAhead]; omega
    · exact h
    · intro j h1 h2; omega
  · right
    refine ⟨_, he, _, rfl, ?_, ?_, ?_, ?_, ?_, ?_⟩ <;> simp [State.consumed]
    · simp only [State.readAhead]; omega
    · exact h2
    · intro j h1 h3
      rwa [show j = s.ioOps by omega]

/-! ### The decoder's start-up -/

/-- One more bit in front (R58). -/
theorem bitsValue_succ_front (src : List Bool) (pos n : Nat) :
    bitsValue src pos (n + 1) = sourceBit src pos * 2 ^ n + bitsValue src (pos + 1) n := by
  induction n with
  | zero => simp [bitsValue]
  | succ n ih =>
    rw [bitsValue, ih, bitsValue, show pos + 1 + n = pos + (n + 1) by omega]
    ring

theorem sourceBit_past {src : List Bool} {pos : Nat} (h : src.length ≤ pos) :
    sourceBit src pos = 0 := by
  rw [sourceBit, List.getD_eq_getElem?_getD, List.getElem?_eq_none h]
  rfl

/-- Past the end only zeros come, from whatever position. -/
theorem bitsValue_past {src : List Bool} {pos : Nat} (h : src.length ≤ pos) (n : Nat) :
    bitsValue src pos n = 0 := by
  induction n with
  | zero => rfl
  | succ n ih => rw [bitsValue, ih, sourceBit_past (by omega)]

theorem bitsValue_lt (src : List Bool) (pos n : Nat) : bitsValue src pos n < 2 ^ n := by
  induction n with
  | zero => simp [bitsValue]
  | succ n ih =>
    have : sourceBit src (pos + n) ≤ 1 := Bool.toNat_le _
    rw [bitsValue, Nat.pow_succ]
    omega

/-- `n` times `z <- 2*z + nextbit()`: all bits are read, or a source operation fails (R160). -/
theorem shiftInBits_cases (n : Nat) (s : State) :
    (s.ReadsOk n ∧ shiftInBits n s = .go ()
      { s.readAhead n with z := s.z * 2 ^ n + bitsValue s.source s.rpos n }) ∨
    DecStops n s (shiftInBits n s) := by
  induction n generalizing s with
  | zero =>
    left
    refine ⟨fun j hj hlt => ?_, ?_⟩
    · rw [State.readAhead_zero] at hlt; omega
    · rw [State.readAhead_zero]; simp [shiftInBits, bitsValue]
  | succ n ih =>
    rw [shiftInBits]
    rcases nextBit_reads s with ⟨h1, he⟩ | ⟨t, he, hst⟩
    · rw [he, Flow.bind_go]
      rcases ih { s.readAhead 1 with z := 2 * s.z + (s.source.getD s.rpos false).toNat } with
        ⟨h2, he2⟩ | hst
      · left
        refine ⟨h1.succ h2, ?_⟩
        rw [show (s.readAhead 1).z = s.z from rfl, he2]
        congr 1
        have hr := congrArg (fun t : State => (t.rpos, t.ioOps)) (s.readAhead_readAhead 1 n)
        simp only [State.readAhead, Nat.add_comm 1 n, Prod.mk.injEq] at hr
        simp only [State.readAhead]
        congr 1
        · rw [bitsValue_succ_front]
          by_cases hp : s.source.length ≤ s.rpos
          · rw [show max s.rpos (min s.source.length (s.rpos + 1)) = s.rpos by omega,
              bitsValue_past hp, bitsValue_past (by omega : s.source.length ≤ s.rpos + 1),
              sourceBit]
            ring
          · rw [show max s.rpos (min s.source.length (s.rpos + 1)) = s.rpos + 1 by omega, sourceBit]
            ring
        · exact hr.1
        · exact hr.2
      · right
        exact DecStops.cons (by rfl) h1 hst
    · right
      rw [he, Flow.bind_raised]
      exact hst.mono (by omega)

/-! ### The decoder's renormalisation against the trace of regions -/

theorem traceZ_past (p : Params) {src : List Bool} {pos : Nat} (h : src.length ≤ pos)
    (tr : List Region) (z : Nat) : traceZ p src tr z (pos + 1) = traceZ p src tr z pos := by
  induction tr generalizing z pos with
  | nil => rfl
  | cons r tr ih =>
    rw [traceZ, traceZ, sourceBit_past h, sourceBit_past (by omega), ih (by omega)]

/-- The state after the decoder passed through the regions `tr` (R163). -/
def afterDecoding (tr : List Region) (s : State) : State :=
  { s.readAhead tr.length with
    low := tr.foldl (expandEnd s.cfg) s.low
    high := tr.foldl (expandEnd s.cfg) s.high
    z := traceZ s.cfg s.source tr s.z s.rpos }

/-- How the decoder's renormalisation can end, with fuel `n`, when the regions ahead are `tr` (R163). -/
def DecEnds (n : Nat) (s : State) (tr : List Region) (x : Flow Unit) : Prop :=
  (tr.length < n ∧ s.ReadsOk tr.length ∧ x = .go () (afterDecoding tr s)) ∨
  DecStops tr.length s x ∨ (tr.length = n ∧ x = .stuck .renormDiverges)

/-- `z` written after a stop is no more than the other registers a stop may change. -/
theorem DecStops.of_expand {n : Nat} {s s1 : State} {x : Flow Unit}
    (hs : s = { s1 with low := s.low, high := s.high }) (h : DecStops n s x) : DecStops n s1 x := by
  obtain ⟨t, rfl, hlt, hle, hf, hb, hr, ht⟩ := h
  have e : s.ioOps = s1.ioOps ∧ s.ioFail = s1.ioFail ∧ s.rpos = s1.rpos ∧ s.source = s1.source := by
    rw [hs]; exact ⟨rfl, rfl, rfl, rfl⟩
  rw [e.1] at hlt hb hr
  rw [e.2.1] at hf hb
  rw [e.2.2.1, e.2.2.2] at hr
  exact ⟨t, rfl, hlt, by rw [hs] at hle; exact hle, hf, hb, hr, by rw [ht, hs]⟩

/-- One iteration of the decoder's loop before the rest. -/
theorem DecEnds.cons {n : Nat} {s : State} {r : Region} {tr : List Region}
    (ih : ∀ s1 : State, s1.cfg = s.cfg → s1.low = expandEnd s.cfg s.low r →
      s1.high = expandEnd s.cfg s.high r → DecEnds n s1 tr (decRenorm n s1)) :
    DecEnds (n + 1) s (r :: tr) ((decExpand r s).bind fun _ t => decRenorm n t) := by
  simp only [decExpand]
  rcases nextBit_reads (expandInterval r s) with ⟨h1, he⟩ | ⟨t, he, hst⟩
  · rw [he, Flow.bind_go, Flow.bind_go]
    have h1' : s.ReadsOk 1 := h1
    have hi := ih { (expandInterval r s).readAhead 1 with
      z := 2 * (s.z - regionOffset s.cfg r) + (s.source.getD s.rpos false).toNat } rfl rfl rfl
    rcases hi with ⟨hl, h2, he2⟩ | hst | ⟨hl, he2⟩
    · left
      refine ⟨by simpa using hl, h1'.succ h2, ?_⟩
      refine he2.trans ?_
      congr 1
      have hr := congrArg (fun t : State => (t.rpos, t.ioOps)) (s.readAhead_readAhead 1 tr.length)
      simp only [State.readAhead, Nat.add_comm 1 tr.length, Prod.mk.injEq] at hr
      simp only [afterDecoding, State.readAhead, expandInterval, List.foldl_cons, List.length_cons]
      congr 1
      · rw [traceZ]
        by_cases hp : s.source.length ≤ s.rpos
        · rw [show max s.rpos (min s.source.length (s.rpos + 1)) = s.rpos by omega,
            traceZ_past _ hp, sourceBit]
        · rw [show max s.rpos (min s.source.length (s.rpos + 1)) = s.rpos + 1 by omega, sourceBit]
      · exact hr.1
      · exact hr.2
    · right; left
      exact DecStops.cons (by rfl) h1' hst
    · right; right
      exact ⟨by simpa using hl, he2⟩
  · right; left
    rw [he, Flow.bind_raised, Flow.bind_raised]
    exact (hst.of_expand rfl).mono (by simp)

/-- Everything `dec_renorm` can do. -/
theorem decRenorm_cases (n : Nat) (s : State) :
    DecEnds n s (regionTrace s.cfg n s.low s.high) (decRenorm n s) := by
  induction n generalizing s with
  | zero => right; right; simp [regionTrace, decRenorm]
  | succ n ih =>
    have ih' : ∀ (r : Region) (s1 : State), s1.cfg = s.cfg → s1.low = expandEnd s.cfg s.low r →
        s1.high = expandEnd s.cfg s.high r →
        DecEnds n s1 (regionTrace s.cfg n (expandEnd s.cfg s.low r) (expandEnd s.cfg s.high r))
          (decRenorm n s1) := by
      intro r s1 hc hl hh
      have := ih s1
      rwa [hc, hl, hh] at this
    simp only [regionTrace, decRenorm]
    cases hr : region s.cfg s.low s.high with
    | left => exact DecEnds.cons (ih' .left)
    | right => exact DecEnds.cons (ih' .right)
    | middle => exact DecEnds.cons (ih' .middle)
    | none =>
      left
      refine ⟨by simp, fun j hj hlt => ?_, ?_⟩
      · rw [List.length_nil, State.readAhead_zero] at hlt; omega
      · simp only [afterDecoding, List.length_nil, State.readAhead_zero]
        rfl

end Sys2Proof.Machine
end

