-- ==== Sys2Proof/Laws/Commands.lean ====
section
/-! SUPPORT. Everything the rule of each command can do, said once: how the pseudocode of `ESYM`,
`EFLUSH`, `DINIT` and `DSYM` can end, and what `exec` makes of each command's rule. -/

namespace Sys2Proof.Machine

/-- `exec` of a command is the checks of R86 and then the command's own rule; this is that rule. -/
def ruleOf : Instr → State → Flow Unit
  | .minit, s => .go () { canonicalStart s with mode := .idle, eos := false, result := 0 }
  | .mcumb sym, s => .go () { s with result := zext32 (cumBegin s.freq sym) }
  | .mcume sym, s => .go () { s with result := zext32 (cumEnd s.freq sym) }
  | .mtotal, s => .go () { s with result := zext32 s.total }
  | .mupd sym, s => .go () { update sym s with result := 0 }
  | .einit, s => .go () { canonicalStart s with mode := .enc, eos := false, result := 0 }
  | .esym sym, s => encodeSymbol sym s
  | .eflush, s => terminateStream s
  | .dinit, s =>
    (loadZ (canonicalStart s)).bind fun _ t =>
    .go () { t with mode := .dec, eos := false, result := 0 }
  | .dsym, s => decodeSymbol s

theorem exec_eq_checkedRun (i : Instr) (s : State) : exec i s = checkedRun i s (ruleOf i) := by
  cases i <;> rfl

/-- Everything one execution can do: discarded in `FAULT`; `SEQUENCE`; `MODEL_RANGE`; or the end of the
command's own rule (R86). -/
theorem exec_cases (i : Instr) (s : State) :
    (s.mode = .fault ∧ exec i s = .next s) ∨
    (s.mode ≠ .fault ∧ legalIn i s.mode = false ∧ exec i s = .next { s with
      mode := .fault, cause := .sequence, result := (encode i).setWidth 32 }) ∨
    (s.mode ≠ .fault ∧ legalIn i s.mode = true ∧ operandInRange s.cfg i = false ∧
      exec i s = .next { s with
        mode := .fault, cause := .modelRange, result := (encode i).setWidth 32 }) ∨
    (s.mode ≠ .fault ∧ legalIn i s.mode = true ∧ operandInRange s.cfg i = true ∧
      exec i s = finish (encode i) (ruleOf i s)) := by
  rw [exec_eq_checkedRun, ← enterFault_precise .sequence _ _ rfl, ← enterFault_precise .modelRange _ _ rfl]
  exact checkedRun_cases i s (ruleOf i)

/-! ### `ESYM` -/

/-- How the rule of `ESYM s` can end (R141): `INVARIANT` before any change; completion, with the regions
of the narrowed interval passed through and the model updated; `IO` or `PENDING_OVF` in the
renormalisation, with a prefix of the bits sent; or, when the regions are `P` or more, no end. -/
theorem encodeSymbol_cases (sym : Nat) (s : State) :
    let ab := narrowSym s sym
    let tr := regionTrace s.cfg s.cfg.precision ab.1 ab.2
    let bits := traceBits tr s.pending.toNat
    (ab.2 ≤ ab.1 ∧ encodeSymbol sym s = .raised .invariant s) ∨
    (ab.1 < ab.2 ∧ tr.length < s.cfg.precision ∧ (∀ j < bits.length, s.ioOps + j ∉ s.ioFail) ∧
      tracePending tr s.pending.toNat < 2 ^ 32 ∧ overflowBits tr s.pending.toNat = none ∧
      encodeSymbol sym s = .go () { s with
        low := tr.foldl (expandEnd s.cfg) ab.1
        high := tr.foldl (expandEnd s.cfg) ab.2
        pending := BitVec.ofNat 32 (tracePending tr s.pending.toNat)
        out := s.out ++ bits.map .bit
        ioOps := s.ioOps + bits.length
        freq := (update sym s).freq
        total := (update sym s).total
        result := 0 }) ∨
    (ab.1 < ab.2 ∧ ∃ (sent : List Bool) (t : State), sent <+: bits ∧ sent.length < bits.length ∧
      (∀ o, overflowBits tr s.pending.toNat = some o → sent.length < o.length) ∧
      s.ioOps + sent.length ∈ s.ioFail ∧ (∀ j < sent.length, s.ioOps + j ∉ s.ioFail) ∧
      encodeSymbol sym s = .raised .io t ∧
      t = { s with
        low := t.low, high := t.high, pending := t.pending
        out := s.out ++ sent.map .bit, ioOps := s.ioOps + sent.length + 1 }) ∨
    (ab.1 < ab.2 ∧ ∃ (sent : List Bool) (t : State), sent <+: bits ∧
      overflowBits tr s.pending.toNat = some sent ∧
      2 ^ 32 ≤ s.pending.toNat + tr.length ∧ (∀ j < sent.length, s.ioOps + j ∉ s.ioFail) ∧
      encodeSymbol sym s = .raised .pendingOvf t ∧
      t = { s with
        low := t.low, high := t.high, pending := t.pending
        out := s.out ++ sent.map .bit, ioOps := s.ioOps + sent.length }) ∨
    (ab.1 < ab.2 ∧ tr.length = s.cfg.precision ∧ encodeSymbol sym s = .stuck .renormDiverges) := by
  intro ab tr bits
  by_cases hab : ab.2 ≤ ab.1
  · left
    refine ⟨hab, ?_⟩
    rw [encodeSymbol, if_pos hab]
  · right
    have hab' : ab.1 < ab.2 := by omega
    have he : encodeSymbol sym s = (encRenorm s.cfg.precision { s with low := ab.1, high := ab.2 }).bind
        fun _ t => .go () { update sym t with result := 0 } := by
      rw [encodeSymbol, if_neg hab]
    rcases encRenorm_cases s.cfg.precision { s with low := ab.1, high := ab.2 } with
      ⟨h1, h2, h3, ho, h4⟩ | ⟨sent, t, h1, h2, ho, h3, h4, h5, h6⟩ |
      ⟨sent, t, h1, ho, h2, h3, h4, h5⟩ | ⟨h1, h2⟩
    · left
      refine ⟨hab', h1, h2, h3, ho, ?_⟩
      rw [he, h4, Flow.bind_go]
      obtain ⟨hf, ht⟩ := update_congr sym (s := afterRegions tr { s with low := ab.1, high := ab.2 })
        (t := s) rfl rfl rfl
      rw [update_eq, hf, ht]
      rfl
    · right; left
      exact ⟨hab', sent, t, h1, h2, ho, h3, h4, by rw [he, h5, Flow.bind_raised], h6⟩
    · right; right; left
      exact ⟨hab', sent, t, h1, ho, h2, h3, by rw [he, h4, Flow.bind_raised], h5⟩
    · right; right; right
      exact ⟨hab', h1, by rw [he, h2, Flow.bind_stuck]⟩

/-! ### `EFLUSH` -/

/-- How the rule of `EFLUSH` can end (R142): `PENDING_OVF` before anything is sent; completion; or `IO`
at one of its operations, with the bits before it sent. -/
theorem terminateStream_cases (s : State) :
    let b := decide (s.cfg.quarter < s.low)
    let bits := b :: List.replicate (s.pending.toNat + 1) (!b)
    (s.pending.toNat = 2 ^ 32 - 1 ∧ terminateStream s = .raised .pendingOvf s) ∨
    (s.pending.toNat + 1 < 2 ^ 32 ∧ (∀ j < s.pending.toNat + 3, s.ioOps + j ∉ s.ioFail) ∧
      terminateStream s = .go () { s with
        out := s.out ++ bits.map .bit ++ [.flush]
        pending := 0, mode := .done, result := 0
        ioOps := s.ioOps + s.pending.toNat + 3 }) ∨
    (s.pending.toNat + 1 < 2 ^ 32 ∧ ∃ (sent : List Bool) (t : State), sent <+: bits ∧
      s.ioOps + sent.length ∈ s.ioFail ∧ (∀ j < sent.length, s.ioOps + j ∉ s.ioFail) ∧
      terminateStream s = .raised .io t ∧
      t = { s with
        pending := t.pending
        out := s.out ++ sent.map .bit, ioOps := s.ioOps + sent.length + 1 }) := by
  intro b bits
  by_cases hp : s.pending.toNat + 1 < 2 ^ 32
  · right
    have hv := pending_add_one_toNat s.pending hp
    have he : terminateStream s =
        (emitWithPending b { s with pending := s.pending + 1 }).bind fun _ u =>
        (flush u).bind fun _ v => .go () { v with mode := .done, result := 0 } := by
      rw [terminateStream, incPending_ok s hp, Flow.bind_go]
      congr 2
      show (!decide (s.low ≤ s.cfg.quarter)) = decide (s.cfg.quarter < s.low)
      by_cases h : s.low ≤ s.cfg.quarter
      · simp [h, Nat.not_lt.2 h]
      · simp [h, Nat.lt_of_not_le h]
    have hlen : bits.length = s.pending.toNat + 2 := by simp [bits]
    rcases emitWithPending_cases b { s with pending := s.pending + 1 } with
      ⟨hok, hg⟩ | ⟨j, hj, hf, hb, hg⟩
    · simp only [hv] at hok
      obtain ⟨u, hu⟩ : ∃ u : State, u = { s with
          pending := 0
          out := s.out ++ bits.map .bit, ioOps := s.ioOps + (s.pending.toNat + 2) } := ⟨_, rfl⟩
      have hg' : emitWithPending b { s with pending := s.pending + 1 } = .go () u := by
        rw [hg, hu, hv]
        rfl
      have huo : u.ioOps = s.ioOps + (s.pending.toNat + 2) ∧ u.ioFail = s.ioFail := by
        rw [hu]; exact ⟨rfl, rfl⟩
      rw [he, hg', Flow.bind_go]
      by_cases hlast : u.ioOps ∈ u.ioFail
      · right
        rw [huo.1, huo.2] at hlast
        refine ⟨hp, bits, u.sent [] 1, List.prefix_rfl, by rwa [hlen], by rwa [hlen], ?_, ?_⟩
        · rw [flush_fails u (by rwa [huo.1, huo.2]), Flow.bind_raised]
        · rw [hlen, hu]
          simp [State.sent, Nat.add_assoc]
      · left
        refine ⟨hp, fun j hj => ?_, ?_⟩
        · rcases Nat.lt_or_ge j (s.pending.toNat + 2) with h | h
          · exact hok j h
          · rw [huo.1, huo.2] at hlast
            rwa [show j = s.pending.toNat + 2 by omega]
        · rw [flush_ok u hlast, Flow.bind_go, hu]
          simp [State.sent, Nat.add_assoc]
    · right
      simp only [hv] at hj
      have hl : (bits.take j).length = j := by rw [List.length_take, hlen]; omega
      obtain ⟨u, hu⟩ : ∃ u : State, u = { s with
          pending := s.pending + 1
          out := s.out ++ (bits.take j).map .bit, ioOps := s.ioOps + j + 1 } := ⟨_, rfl⟩
      have hg' : emitWithPending b { s with pending := s.pending + 1 } = .raised .io u := by
        rw [hg, hu, hv]
        rfl
      refine ⟨hp, bits.take j, u, List.take_prefix _ _, by rwa [hl], by rwa [hl], ?_, ?_⟩
      · rw [he, hg', Flow.bind_raised]
      · rw [hl, hu]
  · left
    have := s.pending.isLt
    exact ⟨by omega, by rw [terminateStream, incPending_overflows s (by omega), Flow.bind_raised]⟩

/-! ### `DINIT` -/

/-- How the rule of `DINIT` can end (R165): completion with the first `P` bits of the source in `z`, or
`IO` at a source operation. -/
theorem ruleOf_dinit_cases (s : State) :
    (s.ReadsOk s.cfg.precision ∧ ruleOf .dinit s = .go ()
      { (canonicalStart s).readAhead s.cfg.precision with
        z := bitsValue s.source s.rpos s.cfg.precision
        mode := .dec, eos := false, result := 0 }) ∨
    DecStops s.cfg.precision (canonicalStart s) (ruleOf .dinit s) := by
  have he : ruleOf .dinit s =
      (shiftInBits s.cfg.precision (canonicalStart s)).bind fun _ t =>
      .go () { t with mode := .dec, eos := false, result := 0 } := rfl
  rcases shiftInBits_cases s.cfg.precision (canonicalStart s) with ⟨h, hg⟩ | h
  · left
    refine ⟨h, ?_⟩
    rw [he, hg, Flow.bind_go]
    simp
  · right
    rw [he]
    obtain ⟨t, ht, hrest⟩ := h
    rw [ht, Flow.bind_raised]
    exact ⟨t, rfl, hrest⟩

/-! ### `DSYM` -/

/-- How the rule of `DSYM` can end (R166): `INVARIANT` before any change; the end of the stream; a data
symbol decoded, the regions of its interval passed through; `IO` in the renormalisation; or, when the
regions are `P` or more, no end. -/
theorem decodeSymbol_cases (s : State) :
    (findSymbol s = none ∧ decodeSymbol s = .raised .invariant s) ∨
    (findSymbol s = some s.cfg.eosSym ∧ decodeSymbol s = .go () { s with
      eos := true, mode := .done, result := zext32 s.cfg.eosSym }) ∨
    ∃ sym, findSymbol s = some sym ∧ sym ≠ s.cfg.eosSym ∧
      let ab := narrowSym s sym
      let tr := regionTrace s.cfg s.cfg.precision ab.1 ab.2
      let s1 : State := { s with
        low := ab.1, high := ab.2, freq := (update sym s).freq, total := (update sym s).total }
      (tr.length < s.cfg.precision ∧ s.ReadsOk tr.length ∧
        decodeSymbol s = .go () { afterDecoding tr s1 with result := zext32 sym }) ∨
      DecStops tr.length s1 (decodeSymbol s) ∨
      (tr.length = s.cfg.precision ∧ decodeSymbol s = .stuck .renormDiverges) := by
  cases hf : findSymbol s with
  | none => exact .inl ⟨rfl, by rw [decodeSymbol, hf]⟩
  | some sym =>
    right
    by_cases hs : sym = s.cfg.eosSym
    · left
      exact ⟨by rw [hs], by simp only [decodeSymbol, hf]; rw [if_pos hs, hs]⟩
    · right
      refine ⟨sym, rfl, hs, ?_⟩
      intro ab tr s1
      have hu : update sym { s with low := ab.1, high := ab.2 } = s1 := by
        obtain ⟨hf, ht⟩ := update_congr sym (s := { s with low := ab.1, high := ab.2 }) (t := s)
          rfl rfl rfl
        rw [update_eq, hf, ht]
      have he : decodeSymbol s = (decRenorm s.cfg.precision s1).bind
          fun _ t => .go () { t with result := zext32 sym } := by
        simp only [decodeSymbol, hf]
        rw [if_neg hs, hu]
      rcases decRenorm_cases s.cfg.precision s1 with ⟨h1, h2, h3⟩ | h | ⟨h1, h2⟩
      · left
        exact ⟨h1, h2, by rw [he, h3, Flow.bind_go]⟩
      · right; left
        rw [he]
        obtain ⟨t, ht, hrest⟩ := h
        rw [ht, Flow.bind_raised]
        exact ⟨t, rfl, hrest⟩
      · right; right
        exact ⟨h1, by rw [he, h2, Flow.bind_stuck]⟩

end Sys2Proof.Machine
end

