-- ==== Sys2Proof/Laws/Encoding.lean ====
section
/-! SUPPORT. The two fields of a command word as arithmetic on its value, and the value of an encoded
command, said once (R80, R81). -/

namespace Sys2Proof

theorem opField_eq (w : CmdWord) : opField w = w.toNat / 4096 := by
  simp only [opField, BitVec.extractLsb'_toNat, Nat.shiftRight_eq_div_pow]
  have := w.isLt
  omega

theorem symField_eq (w : CmdWord) : symField w = w.toNat % 4096 := by
  simp [symField, BitVec.extractLsb'_toNat]

theorem symField_lt (w : CmdWord) : symField w < 4096 := by
  rw [symField_eq]
  omega

theorem opcodeOf_lt (i : Instr) : opcodeOf i < 16 := by
  cases i <;> simp [opcodeOf]

theorem fieldOf_lt (i : Instr) (h : i.wellFormed = true) : fieldOf i < 4096 := by
  cases i <;> simp_all [fieldOf, Instr.wellFormed, symbolFits]

theorem encode_toNat (i : Instr) (h : i.wellFormed = true) :
    (encode i).toNat = opcodeOf i * 4096 + fieldOf i := by
  have hf := fieldOf_lt i h
  have ho := opcodeOf_lt i
  rw [encode, BitVec.toNat_append]
  simp only [BitVec.toNat_ofNat]
  rw [← Nat.shiftLeft_add_eq_or_of_lt (by omega), Nat.shiftLeft_eq]
  omega

theorem opField_encode (i : Instr) (h : i.wellFormed = true) : opField (encode i) = opcodeOf i := by
  have hf := fieldOf_lt i h
  rw [opField_eq, encode_toNat i h]
  omega

theorem symField_encode (i : Instr) (h : i.wellFormed = true) : symField (encode i) = fieldOf i := by
  have hf := fieldOf_lt i h
  rw [symField_eq, encode_toNat i h]
  omega

end Sys2Proof
end

