-- ==== Sys2Proof/Laws/PerInstr.lean ====
section
/-! SUPPORT. The family EncodingFields: what stands in the two fields of the word of a command, command
by command (R80 to R82). -/

namespace Sys2Proof.Laws

/-- `OP` of the word of a well-formed command is the command's opcode, and `SYM` is its operand, or zero
when it has none. -/
def EncodingFields.Statement (i : Instr) : Prop :=
  i.wellFormed = true → opField (encode i) = opcodeOf i ∧ symField (encode i) = fieldOf i

theorem EncodingFields.all (i : Instr) : EncodingFields.Statement i :=
  fun h => ⟨opField_encode i h, symField_encode i h⟩

theorem EncodingFields.minit : EncodingFields.Statement .minit := EncodingFields.all _
theorem EncodingFields.mcumb (sym : Nat) : EncodingFields.Statement (.mcumb sym) := EncodingFields.all _
theorem EncodingFields.mcume (sym : Nat) : EncodingFields.Statement (.mcume sym) := EncodingFields.all _
theorem EncodingFields.mtotal : EncodingFields.Statement .mtotal := EncodingFields.all _
theorem EncodingFields.mupd (sym : Nat) : EncodingFields.Statement (.mupd sym) := EncodingFields.all _
theorem EncodingFields.einit : EncodingFields.Statement .einit := EncodingFields.all _
theorem EncodingFields.esym (sym : Nat) : EncodingFields.Statement (.esym sym) := EncodingFields.all _
theorem EncodingFields.eflush : EncodingFields.Statement .eflush := EncodingFields.all _
theorem EncodingFields.dinit : EncodingFields.Statement .dinit := EncodingFields.all _
theorem EncodingFields.dsym : EncodingFields.Statement .dsym := EncodingFields.all _

end Sys2Proof.Laws
end

