-- ==== Sys2Proof/Tests/Slice0.lean ====
section
/-! SUPPORT. Tests. Expected values come from spec/95 (the vector is named in each docstring) or from
the encoding tables of spec/30; the second half holds one witness for the hypotheses of each statement
of Certificates/Slice0/Obligations.lean. -/

namespace Sys2Proof.Tests

open Sys2Proof.Machine

/-- The outcome is a next state with the property. -/
def nextWith (x : Host.Outcome State Fault Refusal) (p : State → Bool) : Bool :=
  match x with
  | .next t => p t
  | .fault _ => false
  | .refused _ => false

theorem exists_next {x : Host.Outcome State Fault Refusal} {p : State → Prop} [DecidablePred p]
    (h : nextWith x (fun t => decide (p t)) = true) : ∃ t, x = .next t ∧ p t := by
  cases x with
  | next t => exact ⟨t, rfl, by simpa [nextWith] using h⟩
  | fault r => simp [nextWith] at h
  | refused r => simp [nextWith] at h

theorem inv_of {s : State} (h : decide s.Inv = true) : s.Inv := of_decide_eq_true h

/-- The response word the outcome would be answered with (R85). -/
def answered (x : Host.Outcome State Fault Refusal) (rsp : RspWord) : Bool :=
  nextWith x fun t => responseWord t == rsp

/-- The instance `(8, 4, 8)` of program P5, in a mode. -/
def small (m : Mode) : State :=
  { resetStateOf { precision := 8, k := 4, maxTotal := 8 } with mode := m }

/-- The instance `(32, 4, 8)` of M-2, M-3, P6 and P7, in a mode. -/
def wide (m : Mode) : State :=
  { resetStateOf { precision := 32, k := 4, maxTotal := 8 } with mode := m }

/-- An instance whose parameter set is not valid (F-27), with zeros for its free values. -/
def invalid : State :=
  { State.reset with
    cfg := { precision := 32, k := 4, maxTotal := 4 }
    freq := [0, 0, 0, 0], total := 0, high := 0, mode := .fault, cause := .modelConfig }

/-- A state in `FAULT` (as after F-1). -/
def faulted : State := { small .fault with cause := .modelRange, result := 0x5004 }

/-- P5 before command 6. -/
def p5enc : State := { small .enc with high := 234, freq := [5, 1, 1, 1], total := 8 }

/-- P5's decoder before its fifth `DSYM`, on an exhausted source. -/
def p5dec : State :=
  { small .dec with high := 234, freq := [5, 1, 1, 1], total := 8, z := 155 }

/-- P5's decoder before its last `DSYM`. -/
def p5end : State :=
  { small .dec with low := 32, high := 192, freq := [3, 2, 1, 1], total := 7, z := 176 }

/-! ### Well-formedness -/

/-- A symbol of 13 bits has no encoding (R80, R81): each check refuses it, and takes 4095. -/
theorem test_wellFormed_mcumb :
    (Instr.mcumb 4096).wellFormed = false ∧ (Instr.mcumb 4095).wellFormed = true := by decide
theorem test_wellFormed_mcume :
    (Instr.mcume 4096).wellFormed = false ∧ (Instr.mcume 4095).wellFormed = true := by decide
theorem test_wellFormed_mupd :
    (Instr.mupd 4096).wellFormed = false ∧ (Instr.mupd 4095).wellFormed = true := by decide
theorem test_wellFormed_esym :
    (Instr.esym 4096).wellFormed = false ∧ (Instr.esym 4095).wellFormed = true := by decide

/-! ### Decoding (R80 to R82, spec/95 section 2.8) -/

theorem test_decode_minit : decode 0b0001000000000000 = .instr .minit := by decide
theorem test_decode_mcumb : decode 0b0010000100000000 = .instr (.mcumb 256) := by decide
theorem test_decode_mcume : decode 0b0011000001100001 = .instr (.mcume 97) := by decide
theorem test_decode_mtotal : decode 0b0100000000000000 = .instr .mtotal := by decide
theorem test_decode_mupd : decode 0b0101000100000001 = .instr (.mupd 257) := by decide
theorem test_decode_einit : decode 0b1000000000000000 = .instr .einit := by decide
theorem test_decode_esym : decode 0b1001111111111111 = .instr (.esym 4095) := by decide
theorem test_decode_eflush : decode 0b1010000000000000 = .instr .eflush := by decide
theorem test_decode_dinit : decode 0b1100000000000000 = .instr .dinit := by decide
theorem test_decode_dsym : decode 0b1101000000000000 = .instr .dsym := by decide

/-- The words of section 2.8 that are no command. -/
theorem test_decode_rejects :
    ∀ w ∈ [0x0000, 0x6000, 0x7ABC, 0xB000, 0xE000, 0xFFFF, 0x1001, 0x4123, 0x8800, 0xA001, 0xC0F0, 0xD001],
      decodeTableWord 16 w = none := by decide

/-- The words of R87's examples. -/
theorem test_encode :
    encode (.esym 97) = 0x9061 ∧ encode (.mcumb 256) = 0x2100 ∧ encode (.mupd 257) = 0x5101 ∧
    encode .dsym = 0xD000 := by decide

/-! ### Arithmetic (spec/95 sections 2.2 and 2.3) -/

theorem test_rnd_tie_goes_up : rnd 6 1 4 = 2 ∧ rnd 10 3 4 = 8 ∧ rnd 1073741825 1 2 = 536870913 := by
  decide
theorem test_rnd_needs_65_bits : rnd 4294967296 1073741823 1073741824 = 4294967292 := by decide
theorem test_narrow :
    narrow 1336954752 3476082432 99 100 258 = (2157782815, 2166074008) := by decide
theorem test_region_bounds_are_strict :
    region Params.production 2147483648 3221225472 = .none ∧
    region Params.production 1073741825 3221225471 = .middle ∧
    region Params.production 1073741825 2147483647 = .left ∧
    region Params.production 2147483649 3221225471 = .right := by decide

/-! ### One step per command -/

/-- M-1, last rows: `MINIT` rebuilds the table. -/
theorem test_minit :
    nextWith (exec .minit { small .done with freq := [1, 2, 1, 1], total := 5, eos := true }) (fun t =>
      t.freq == [1, 1, 1, 1] && t.total == 4 && responseWord t == 0x00_00000000) = true := by decide

/-- M-3: the final ranges are `[0,1) [1,2) [2,7) [7,8)`. -/
theorem test_mcumb :
    answered (exec (.mcumb 2) { wide .idle with freq := [1, 1, 5, 1], total := 8 }) 0x00_00000002
      = true := by decide
theorem test_mcume :
    answered (exec (.mcume 2) { wide .idle with freq := [1, 1, 5, 1], total := 8 }) 0x00_00000007
      = true := by decide

/-- M-5: legal in `ENC`, with the mode in the response. -/
theorem test_mtotal_in_enc : answered (exec .mtotal (wide .enc)) 0x01_00000004 = true := by decide

/-- M-3, `MUPD 3` at the ceiling: `[1,2,4,1]` is halved to `[1,1,2,1]`, then incremented. -/
theorem test_mupd_rescales :
    nextWith (exec (.mupd 3) { wide .idle with freq := [1, 2, 4, 1], total := 8 }) (fun t =>
      t.freq == [1, 1, 2, 2] && t.total == 6) = true := by decide

/-- M-2: the test against the ceiling sees the total before the increment. -/
theorem test_mupd_reaches_the_ceiling :
    nextWith (exec (.mupd 0) { wide .idle with freq := [4, 1, 1, 1], total := 7 }) (fun t =>
      t.freq == [5, 1, 1, 1] && t.total == 8) = true := by decide

/-- Section 2.4. -/
theorem test_einit :
    nextWith (exec .einit { wide .done with low := 5, high := 9, pending := 3, z := 7 }) (fun t =>
      t.low == 0 && t.high == 4294967296 && t.pending == 0 && t.z == 0 && t.out.isEmpty &&
      responseWord t == 0x01_00000000) = true := by decide

/-- P5, command 6: regions RL, the narrowing uses the table before the rescale. -/
theorem test_esym :
    nextWith (exec (.esym 1) p5enc) (fun t =>
      t.low == 72 && t.high == 192 && t.out == [.bit true, .bit false] && t.freq == [2, 2, 1, 1] &&
      t.total == 6) = true := by decide

/-- P5, command 8: regions RM, one bit deferred. -/
theorem test_esym_defers :
    nextWith (exec (.esym 3) { p5end with mode := .enc }) (fun t =>
      t.low == 36 && t.high == 128 && t.pending == 1 && t.out == [.bit true]) = true := by decide

/-- P5, command 9: `low = 36 <= QUARTER`, so `0` and the deferred ones. -/
theorem test_eflush_low :
    nextWith (exec .eflush { small .enc with low := 36, high := 128, pending := 1 }) (fun t =>
      t.out == [.bit false, .bit true, .bit true, .flush] && t.pending == 0 &&
      responseWord t == 0x03_00000000) = true := by decide

/-- P6, command 5: `low = 1574821368 > QUARTER`, so `1` and three zeros. -/
theorem test_eflush_high :
    nextWith (exec .eflush { wide .enc with low := 1574821368, high := 3865470592, pending := 2 })
      (fun t => t.out == [.bit true, .bit false, .bit false, .bit false, .flush]) = true := by decide

/-- P6: `IN = 10011000` gives `z = 2550136832`, the last 24 bits being substituted zeros. -/
theorem test_dinit :
    nextWith (exec .dinit { wide .idle with
      source := [true, false, false, true, true, false, false, false] }) (fun t =>
      t.z == 2550136832 && t.rpos == 8 && responseWord t == 0x02_00000000) = true := by decide

/-- P5, fifth `DSYM`: RIGHT then LEFT, on substituted zeros. -/
theorem test_dsym :
    nextWith (exec .dsym p5dec) (fun t =>
      t.low == 72 && t.high == 192 && t.z == 108 && responseWord t == 0x02_00000001) = true := by decide

/-- P5, last `DSYM`: `EOS`, and nothing but `STATUS` and `RESULT` changes. -/
theorem test_dsym_eos : answered (exec .dsym p5end) 0x0B_00000003 = true := by decide

/-! ### Steps, faults, reset -/

/-- M-1: the first `MTOTAL` after reset. -/
theorem test_step_runs_the_fetched_word :
    nextWith (step (State.reset.withFetchWord 16 0x4000)) (fun t =>
      t.responses == [0x00_00000101] && t.inputs.isEmpty) = true := by decide

/-- F-14: `SEQUENCE` after the end of a stream leaves `EOS` set. -/
theorem test_sequence_keeps_eos :
    answered (exec .dsym { small .done with eos := true }) 0x6C_0000D000 = true := by decide

/-- F-9: `SEQUENCE` outranks `MODEL_RANGE`. -/
theorem test_sequence_outranks_range :
    answered (exec (.esym 4095) (small .idle)) 0x64_00009FFF = true := by decide

/-- F-17: a format-`N` word with a field is no command. -/
theorem test_illegal_word : answered (runCommand 0x1001 (small .enc)) 0x54_00001001 = true := by decide

/-- F-22's shape on P5's command 6: the second sink operation fails; one bit was sent. -/
theorem test_io_fault :
    nextWith (exec (.esym 1) { p5enc with ioFail := [1] }) (fun t =>
      t.out == [.bit true] && t.ioOps == 2 && responseWord t == 0x34_00009001) = true := by decide

/-- F-26. -/
theorem test_pending_overflow :
    nextWith (exec (.esym 2) { wide .enc with
      freq := [3, 1, 1, 3], total := 8, pending := 0xFFFFFFFF }) (fun t =>
      t.out.isEmpty && responseWord t == 0x74_00009002) = true := by decide

/-- F-27, F-28: an invalid set comes up in `FAULT`. -/
theorem test_invalid_parameters :
    responseWord (resetStateOf { precision := 32, k := 4, maxTotal := 4 }) = 0x24_00000000 ∧
    responseWord (resetStateOf { precision := 8, k := 257, maxTotal := 512 }) = 0x24_00000000 := by
  decide

/-- Section 2.10: only reset recovers, and it rebuilds the table. -/
theorem test_reset_recovers :
    nextWith (takeInput .reset { faulted with freq := [5, 1, 1, 1], total := 8 }) (fun t =>
      t.freq == [1, 1, 1, 1] && responseWord t == 0x00_00000000) = true := by decide

/-- R220 on P5's command 6: reset after one operation leaves one bit and no response. -/
theorem test_reset_during :
    nextWith (takeInput (.resetDuring 0x9001 1) p5enc) (fun t =>
      t.out == [.bit true] && t.responses.isEmpty && t.mode == .idle && t.high == 256) = true := by
  decide

/-- R87. -/
theorem test_assembler :
    assembleLine Params.production "  MUPD 0x1F ; note".toList = some [.mupd 31] ∧
    assembleLine Params.production "ESYM ' '".toList = some [.esym 32] ∧
    assembleLine Params.production "MINIT 3".toList = none ∧
    assembleLine Params.production "; nothing".toList = some [] := by decide

/-! ### Witnesses: the hypotheses of each statement, met together -/

/-- At both ends of the operand field. -/
theorem witness_EncodedCommandDecodesToItself :
    (Instr.esym 0).wellFormed = true ∧ (Instr.mcumb 4095).wellFormed = true ∧
    Instr.dsym.wellFormed = true := by decide

theorem witness_DecodedWordIsTheEncodingOfItsCommand :
    decode 0x9FFF = .instr (.esym 4095) ∧ decode 0x2000 = .instr (.mcumb 0) ∧
    decode 0xD000 = .instr .dsym := by decide

theorem witness_DecoderSelectsRowsByMatchAndMask :
    { mnemonic := "MUPD", matchBits := 0x5000, mask := 0xF000 } ∈ opcodeTable ∧
    { mnemonic := "DSYM", matchBits := 0xD000, mask := 0xFFFF } ∈ opcodeTable := by decide

/-- A reserved opcode, and format-`N` words with the smallest and the largest field. -/
theorem witness_IllegalWordRaisesIllegalCmd :
    (∀ w ∈ [0x0000, 0x7ABC, 0xFFFF, 0x1001, 0xDFFF],
      w / 4096 ∈ [0x0, 0x6, 0x7, 0xB, 0xE, 0xF] ∨
      (w / 4096 ∈ [0x1, 0x4, 0x8, 0xA, 0xC, 0xD] ∧ w % 4096 ≠ 0)) ∧
    ({ small .enc with inputs := [.command 0x7ABC] } : State).mode ≠ .fault := by decide

/-- A command that completes, and one that meets `renormDiverges` in a state no run reaches
(`high > WHOLE`). -/
theorem witness_StepRunsTheDecodedCommand :
    decode 0x9001 = .instr (.esym 1) ∧ decode 0x9000 = .instr (.esym 0) ∧
    (∃ t, exec (.esym 1) p5enc = .next t ∧ t.mode = .enc) ∧
    exec (.esym 0) { small .enc with low := 300, high := 304 } = .fault .renormDiverges :=
  ⟨by decide, by decide, exists_next (by decide), rfl⟩

theorem witness_ResponseHoldsStatusAndResultAfterTheCommand :
    ∃ t, step { p5enc with inputs := [.command 0x9001, .reset] } = .next t ∧ t.inputs = [.reset] :=
  exists_next (by decide)

theorem witness_ResetEstablishesTheResetState :
    ({ faulted with inputs := [.reset, .reset] } : State).inputs = .reset :: [.reset] ∧
    faulted.cfg.valid = true := by decide

theorem witness_InvalidParametersComeUpInFault :
    ({ invalid with inputs := [.reset] } : State).inputs = .reset :: [] ∧
    invalid.cfg.valid = false := by decide

/-- Before the first operation, between two and past the last, of an encode and of a decode command;
with an operation that fails; and with an invalid parameter set. -/
theorem witness_ResetDuringACommandDropsIt :
    ({ p5enc with inputs := [.resetDuring 0x9001 0] } : State).Inv ∧ p5enc.cfg.valid = true ∧
    ({ p5enc with inputs := [.resetDuring 0x9001 1] } : State).Inv ∧
    ({ p5enc with inputs := [.resetDuring 0x9001 50] } : State).Inv ∧
    ({ p5enc with inputs := [.resetDuring 0x9001 1], ioFail := [1] } : State).Inv ∧
    ({ p5dec with inputs := [.resetDuring 0xD000 3], source := [true, true, false] } : State).Inv ∧
    ({ p5dec with inputs := [.resetDuring 0xC000 50], source := [true] } : State).Inv ∧
    ({ invalid with inputs := [.resetDuring 0x1000 0] } : State).Inv ∧
    invalid.cfg.valid = false :=
  ⟨inv_of (by decide), by decide, inv_of (by decide), inv_of (by decide), inv_of (by decide),
    inv_of (by decide), inv_of (by decide), inv_of (by decide), by decide⟩

/-- R220, U23: reset after one bit of `ESYM 1`'s two keeps that bit; reset after `isExhausted`, `readBit`
and `isExhausted` of a `DSYM` that consumes two bits keeps one consumed. -/
theorem test_resetDuring_keeps_what_was_done :
    nextWith (takeInput (.resetDuring 0x9001 1) p5enc)
      (fun t => t.out.length == 1 && t.mode == .idle && t.responses == []) = true ∧
    nextWith (takeInput (.resetDuring 0xD000 3) { p5dec with source := [true, true, false] })
      (fun t => t.rpos == 1 && t.mode == .idle && t.responses == []) = true := by decide

/-- In every mode. -/
theorem witness_EveryStepKeepsTheInvariant :
    (small .idle).Inv ∧ p5dec.Inv ∧ p5end.Inv ∧ ({ small .done with eos := true } : State).Inv ∧
    faulted.Inv ∧ invalid.Inv ∧ ({ p5enc with inputs := [.command 0x9001] } : State).Inv ∧
    ∃ t, step { p5enc with inputs := [.command 0x9001] } = .next t ∧ t.low = 72 :=
  ⟨by decide, by decide, by decide, inv_of (by decide), by decide, by decide, inv_of (by decide),
    exists_next (by decide)⟩

theorem witness_EveryStepFromTheInvariantAnswersNext :
    ({ p5dec with inputs := [.command 0xD000] } : State).Inv ∧
    ({ p5dec with inputs := [.resetDuring 0xD000 1] } : State).Inv ∧
    ({ p5dec with inputs := [.placeSource [true]] } : State).Inv :=
  ⟨inv_of (by decide), inv_of (by decide), inv_of (by decide)⟩

/-- Only a state that is already in `FAULT` with that cause meets them. -/
theorem witness_InvariantFaultIsUnreachable :
    ({ faulted with cause := .invariant } : State).Inv ∧
    ∃ t, exec .dsym { faulted with cause := .invariant } = .next t ∧ t.cause = .invariant :=
  ⟨inv_of (by decide), exists_next (by decide)⟩

theorem witness_MinitConstructsTheModel :
    (small .done).mode ≠ .fault ∧ faulted.mode = .fault ∧
    (0x1001 : CmdWord).toNat / 4096 = 0x1 ∧ (0x1001 : CmdWord).toNat % 4096 ≠ 0 ∧
    (0x1FFF : CmdWord).toNat / 4096 = 0x1 ∧ (0x1FFF : CmdWord).toNat % 4096 ≠ 0 := by decide

/-- The symbols 0 and `K - 1`, `K` and 4095. -/
theorem witness_ModelQueriesReturnTheirValue :
    (small .enc).mode ≠ .fault ∧ 0 < (small .enc).cfg.k ∧ 3 < (small .enc).cfg.k ∧
    (small .enc).cfg.k ≤ 4 ∧ (small .enc).cfg.k ≤ 4095 ∧
    (0x4001 : CmdWord).toNat / 4096 = 0x4 ∧ (0x4001 : CmdWord).toNat % 4096 ≠ 0 ∧
    (small .enc).ModelInv ∧ 1 ≤ (small .enc).cfg.k := by decide

/-- Each clause: below the ceiling by one, at the ceiling, out of the alphabet, out of `IDLE`. -/
theorem witness_MupdUpdatesTheModelOrFaults :
    (small .idle).mode = .idle ∧ 3 < (small .idle).cfg.k ∧
    ({ small .idle with freq := [4, 1, 1, 1], total := 7 } : State).total < (small .idle).cfg.maxTotal ∧
    (small .idle).cfg.maxTotal ≤ ({ small .idle with freq := [5, 1, 1, 1], total := 8 } : State).total ∧
    (small .idle).cfg.k ≤ 4 ∧ p5enc.mode = .enc ∧ p5dec.mode = .dec ∧ (small .done).mode = .done := by
  decide

/-- A completed query and a faulting one. -/
theorem witness_ModelQueriesAreIdempotent :
    (∃ t, exec (.mcumb 3) p5enc = .next t ∧ t.result = 7) ∧
    (∃ t, exec (.mcume 4) p5enc = .next t ∧ t.mode = .fault) :=
  ⟨exists_next (by decide), exists_next (by decide)⟩

theorem witness_CumulativeRangesTileTheTotal :
    p5enc.ModelInv ∧ 3 < p5enc.cfg.k ∧ 2 + 1 < p5enc.cfg.k ∧ 1 ≤ p5enc.cfg.k := by decide

/-- Below the ceiling and at it. -/
theorem witness_UpdateKeepsTheModelInvariant :
    p5end.cfg.valid = true ∧ p5end.ModelInv ∧ p5end.total < p5end.cfg.maxTotal ∧ p5enc.ModelInv ∧
    p5enc.total = p5enc.cfg.maxTotal ∧ 0 < p5enc.cfg.k ∧ 3 < p5enc.cfg.k := by decide

/-- Two states that agree on the parameters and the model and on nothing else that matters. -/
theorem witness_ModelDependsOnItsUpdatesAlone :
    p5enc.cfg = p5dec.cfg ∧ p5enc.freq = p5dec.freq ∧ p5enc.total = p5dec.total ∧ p5enc ≠ p5dec := by
  decide

theorem witness_RoundingIsNearestWithTiesUp :
    1 ≤ 257 ∧ 2 ≤ 32 ∧ 4294967296 ≤ 2 ^ 32 ∧ 257 ≤ 257 ∧ 257 ≤ 2 ^ (32 - 2) ∧ 4 ≤ 2 ^ 2 ∧ 1 ≤ 2 ^ (2 - 2) := by
  decide

theorem witness_RoundingProperties : 1 ≤ 4 ∧ 4 ≤ 4 ∧ 0 ≤ 4 ∧ 1 ≤ 3 := by decide

theorem witness_NarrowingNeverCollapsesAndTiles :
    p5enc.Inv ∧ p5enc.mode = .enc ∧ p5dec.Inv ∧ p5dec.mode = .dec ∧ 3 < p5enc.cfg.k ∧
    2 + 1 < p5enc.cfg.k :=
  ⟨inv_of (by decide), by decide, inv_of (by decide), by decide, by decide, by decide⟩

/-- One interval of each region. -/
theorem witness_RegionFacts :
    (small .enc).cfg.valid = true ∧ 0 < 127 ∧ 256 ≤ (small .enc).cfg.whole ∧
    region (small .enc).cfg 0 127 = .left ∧ region (small .enc).cfg 129 256 = .right ∧
    region (small .enc).cfg 65 191 = .middle ∧ region (small .enc).cfg 64 191 = .none := by decide

theorem witness_RenormalisationEndsWithinItsBound :
    (small .enc).cfg.valid = true ∧ 127 < 128 ∧ 128 ≤ (small .enc).cfg.whole ∧ 0 < 256 ∧
    256 ≤ (small .enc).cfg.whole := by decide

theorem witness_EinitStartsAnEncodeSession :
    (small .dec).mode ≠ .fault ∧ faulted.mode = .fault ∧
    (0x8800 : CmdWord).toNat / 4096 = 0x8 ∧ (0x8800 : CmdWord).toNat % 4096 ≠ 0 := by decide

/-- With no bit deferred, and with as many as the bound allows; the symbols 0 and `K - 1`. -/
theorem witness_EsymEncodesItsSymbol :
    p5enc.Inv ∧ p5enc.mode = .enc ∧ 0 < p5enc.cfg.k ∧ 3 < p5enc.cfg.k ∧ p5enc.IoNeverFails ∧
    p5enc.pending.toNat + p5enc.cfg.precision ≤ 2 ^ 32 ∧
    ({ p5enc with pending := 0xFFFFFFF8 } : State).Inv ∧
    (0xFFFFFFF8 : BitVec 32).toNat + p5enc.cfg.precision ≤ 2 ^ 32 :=
  ⟨by decide, by decide, by decide, by decide, by decide, by decide, inv_of (by decide), by decide⟩

theorem witness_EflushTerminatesTheStream :
    p5enc.mode = .enc ∧ p5enc.IoNeverFails ∧ p5enc.pending.toNat + 1 < 2 ^ 32 ∧
    (0xFFFFFFFE : BitVec 32).toNat + 1 < 2 ^ 32 := by decide

/-- A completed `ESYM` and one that an operation stops. -/
theorem witness_EsymSendsBoundedlyManyBits :
    p5enc.Inv ∧ (∃ t, exec (.esym 1) p5enc = .next t ∧ t.mode = .enc) ∧
    ({ p5enc with ioFail := [1] } : State).Inv ∧
    ∃ t, exec (.esym 1) { p5enc with ioFail := [1] } = .next t ∧ t.mode = .fault :=
  ⟨by decide, exists_next (by decide), inv_of (by decide), exists_next (by decide)⟩

theorem witness_EncodeCommandsFrame :
    (∃ t, exec (.esym 0) { p5end with mode := .enc } = .next t ∧ t.mode ≠ .fault) ∧
    p5end.total < p5end.cfg.maxTotal ∧ p5enc.mode ≠ .fault ∧
    ∃ t, exec .eflush p5enc = .next t ∧ t.mode ≠ .fault :=
  ⟨exists_next (by decide), by decide, by decide, exists_next (by decide)⟩

/-- An exhausted source and one with bits left. -/
theorem witness_DinitLoadsTheFirstBits :
    (small .done).mode ≠ .fault ∧ (small .done).rpos ≤ (small .done).source.length ∧
    (small .done).IoNeverFails ∧
    1 ≤ ({ small .done with source := [true, false], rpos := 1 } : State).source.length := by decide

theorem witness_DecoderFindsExactlyOneSymbol : p5dec.Inv ∧ p5dec.mode = .dec := by decide

theorem witness_DsymEndsTheStreamAtEos :
    p5end.Inv ∧ p5end.mode = .dec ∧ (narrowSym p5end (p5end.cfg.k - 1)).1 ≤ p5end.z ∧
    p5end.z < (narrowSym p5end (p5end.cfg.k - 1)).2 := by decide

/-- A data symbol, with bits left in the source and without. -/
theorem witness_DsymDecodesADataSymbol :
    p5dec.Inv ∧ p5dec.mode = .dec ∧ 1 < p5dec.cfg.k - 1 ∧ (narrowSym p5dec 1).1 ≤ p5dec.z ∧
    p5dec.z < (narrowSym p5dec 1).2 ∧ p5dec.IoNeverFails ∧
    ({ p5dec with source := [true, true, false] } : State).Inv :=
  ⟨by decide, by decide, by decide, by decide, by decide, by decide, inv_of (by decide)⟩

/-- `DINIT`; a data symbol below the ceiling; the end of the stream. -/
theorem witness_DecodeCommandsFrame :
    (∃ t, exec .dinit (small .idle) = .next t ∧ t.mode ≠ .fault) ∧
    (∃ t, exec .dsym { p5end with z := 100 } = .next t ∧ t.mode = .dec) ∧
    p5end.total < p5end.cfg.maxTotal ∧
    ∃ t, exec .dsym p5end = .next t ∧ t.mode = .done :=
  ⟨exists_next (by decide), exists_next (by decide), by decide, exists_next (by decide)⟩

theorem witness_DecodeOfAnExhaustedSourceNeverEnds :
    (small .dec).Inv ∧ (small .dec).mode = .dec ∧ (small .dec).IoNeverFails ∧
    (small .dec).rpos = (small .dec).source.length ∧ (small .dec).low = 0 ∧ (small .dec).z = 0 := by
  decide

/-- Out of sequence, and in sequence with a next state. -/
theorem witness_CommandsOutOfSequenceFault :
    p5enc.mode ≠ .fault ∧ p5enc.mode ≠ .idle ∧ p5dec.mode ≠ .enc ∧ p5enc.mode ≠ .dec ∧
    ∃ t, exec .dsym p5dec = .next t ∧ t.mode = .dec :=
  ⟨by decide, by decide, by decide, by decide, exists_next (by decide)⟩

theorem witness_SymbolOutOfRangeRaisesModelRange :
    p5enc.cfg.k ≤ 4 ∧ p5enc.cfg.k ≤ 4095 ∧ p5enc.mode = .enc ∧ (small .idle).mode = .idle := by decide

theorem witness_FaultModeDiscardsEveryCommand :
    faulted.mode = .fault ∧
    ({ faulted with inputs := [.command 0x1000] } : State).inputs = .command 0x1000 :: [] ∧
    (∃ t, step { faulted with inputs := [.reset] } = .next t ∧ t.mode ≠ .fault) ∧
    ∃ t, step { faulted with inputs := [.resetDuring 0x1000 0] } = .next t ∧ t.mode ≠ .fault :=
  ⟨by decide, by decide, exists_next (by decide), exists_next (by decide)⟩

/-- A command in `FAULT` and out of it; reset of a valid and of an invalid instance. -/
theorem witness_ModeTransitionsAreComplete :
    (∃ t, exec .minit faulted = .next t ∧ t.mode = .fault) ∧
    (∃ t, exec .dsym p5end = .next t ∧ t.mode = .done) ∧
    (∃ t, takeInput .reset faulted = .next t ∧ t.mode = .idle) ∧ faulted.cfg.valid = true ∧
    (∃ t, takeInput .reset invalid = .next t ∧ t.mode = .fault) ∧ invalid.cfg.valid = false :=
  ⟨exists_next (by decide), exists_next (by decide), exists_next (by decide), by decide,
    exists_next (by decide), by decide⟩

theorem witness_FaultEntryRecordsTheCommand :
    p5enc.mode ≠ .fault ∧ (∃ t, exec .dsym p5enc = .next t ∧ t.mode = .fault) ∧
    ∃ t, exec (.esym 1) { p5enc with ioFail := [1] } = .next t ∧ t.mode = .fault :=
  ⟨by decide, exists_next (by decide), exists_next (by decide)⟩

/-- `MODEL_RANGE`; and `INVARIANT`, from a state no run reaches (`z` outside the interval). -/
theorem witness_PreciseFaultsChangeNothingElse :
    p5enc.mode ≠ .fault ∧
    (∃ t, exec (.esym 4) p5enc = .next t ∧ t.mode = .fault ∧ t.cause = .modelRange) ∧
    ∃ t, exec .dsym { p5dec with z := 250 } = .next t ∧ t.mode = .fault ∧ t.cause = .invariant :=
  ⟨by decide, exists_next (by decide), exists_next (by decide)⟩

/-- The second bit of an `ESYM`; the first bit and the `flush` of an `EFLUSH`; an `isExhausted` at the end
of the source and a `readBit` before it, of each decode command; and `DINIT`'s first operation. -/
theorem witness_IoFaultStopsAtTheFirstFailure :
    (∃ t, exec (.esym 1) { p5enc with ioFail := [1] } = .next t ∧ t.mode = .fault ∧ t.cause = .io) ∧
    (∃ t, exec .eflush { p5enc with ioFail := [0] } = .next t ∧ t.mode = .fault ∧ t.cause = .io) ∧
    (∃ t, exec .eflush { p5enc with ioFail := [2] } = .next t ∧ t.mode = .fault ∧ t.cause = .io) ∧
    (∃ t, exec .dsym { p5dec with ioFail := [1] } = .next t ∧ t.mode = .fault ∧ t.cause = .io) ∧
    (∃ t, exec .dsym { p5dec with source := [true, true], ioFail := [3] } = .next t ∧
      t.mode = .fault ∧ t.cause = .io) ∧
    (∃ t, exec .dinit { small .idle with source := [true, true], ioFail := [3] } = .next t ∧
      t.mode = .fault ∧ t.cause = .io) ∧
    (small .idle).cfg.valid = true ∧ (small .idle).mode ≠ .fault ∧
    ({ small .idle with ioFail := [0] } : State).ioOps ∈ [0] :=
  ⟨exists_next (by decide), exists_next (by decide), exists_next (by decide), exists_next (by decide),
    exists_next (by decide), exists_next (by decide), by decide, by decide, by decide⟩

/-- R65: the failing operation is the second `readBit`; only the first one's bit is consumed. -/
theorem test_failed_readBit_consumes_nothing :
    nextWith (exec .dinit { small .idle with source := [true, true], ioFail := [3] })
      (fun t => t.rpos == 1 && t.cause == .io && t.result == 0xC000) = true := by decide

/-- F-25 and F-26. -/
theorem witness_PendingOverflowFaults :
    let s : State := { wide .enc with freq := [3, 1, 1, 3], total := 8, pending := 0xFFFFFFFF }
    s.Inv ∧ s.mode = .enc ∧ 2 < s.cfg.k ∧ s.pending.toNat = 2 ^ 32 - 1 ∧
    region s.cfg (narrowSym s 2).1 (narrowSym s 2).2 = .middle ∧
    (∃ t, exec (.esym 2) s = .next t ∧ t.mode = .fault ∧ t.cause = .pendingOvf) ∧
    ∃ t, exec .eflush s = .next t ∧ t.mode = .fault ∧ t.cause = .pendingOvf :=
  ⟨by decide, by decide, by decide, by decide, by decide, exists_next (by decide),
    exists_next (by decide)⟩

theorem witness_OnlyEncodingWritesTheSink :
    (∃ t, exec (.esym 1) p5enc = .next t ∧ t.out.length = 2) ∧
    ∃ t, exec .dsym p5dec = .next t ∧ t.out = [] :=
  ⟨exists_next (by decide), exists_next (by decide)⟩

theorem witness_OnlyDecodingReadsTheSource :
    (∃ t, exec .dsym { p5dec with source := [true, true, false] } = .next t ∧ t.rpos = 2) ∧
    ∃ t, exec .mtotal p5dec = .next t ∧ t.rpos = 0 :=
  ⟨exists_next (by decide), exists_next (by decide)⟩

theorem witness_ParametersNeverChange :
    ∃ t, step { p5enc with inputs := [.resetDuring 0x9001 1] } = .next t ∧ t.mode = .idle :=
  exists_next (by decide)

theorem witness_EosBitIsWrittenAsListed :
    (∃ t, exec .dsym p5end = .next t ∧ t.eos = true) ∧
    (∃ t, exec .einit { small .done with eos := true } = .next t ∧ t.mode ≠ .fault) ∧
    ∃ t, exec .mtotal { small .done with eos := true } = .next t ∧ t.eos = true :=
  ⟨exists_next (by decide), exists_next (by decide), exists_next (by decide)⟩

/-- One command of each clause. -/
theorem witness_ResultHoldsWhatTheCommandReturns :
    p5enc.Inv ∧ (∃ t, exec (.mcumb 3) p5enc = .next t ∧ t.mode ≠ .fault) ∧
    (∃ t, exec (.mcume 3) p5enc = .next t ∧ t.mode ≠ .fault) ∧
    (∃ t, exec .mtotal p5enc = .next t ∧ t.mode ≠ .fault) ∧
    (∃ t, exec (.esym 3) p5enc = .next t ∧ t.mode ≠ .fault) ∧
    (∃ t, exec (.esym 4) p5enc = .next t ∧ t.mode = .fault) ∧ p5dec.Inv ∧
    (∃ t, exec .dsym p5dec = .next t ∧ t.mode ≠ .fault) ∧ faulted.Inv ∧
    ∃ t, exec .minit faulted = .next t ∧ t.mode = .fault :=
  ⟨by decide, exists_next (by decide), exists_next (by decide), exists_next (by decide),
    exists_next (by decide), exists_next (by decide), by decide, exists_next (by decide), by decide,
    exists_next (by decide)⟩

theorem witness_EncoderAndDecoderStayInLockstep :
    p5enc.Inv ∧ p5dec.Inv ∧ p5enc.mode = .enc ∧ p5dec.mode = .dec ∧ p5enc.cfg = p5dec.cfg ∧
    p5enc.low = p5dec.low ∧ p5enc.high = p5dec.high ∧ p5enc.freq = p5dec.freq ∧
    p5enc.total = p5dec.total ∧ (∃ t, exec (.esym 1) p5enc = .next t ∧ t.mode = .enc) ∧
    ∃ t, exec .dsym p5dec = .next t ∧ t.mode = .dec ∧ t.result.toNat = 1 :=
  ⟨by decide, by decide, by decide, by decide, by decide, by decide, by decide, by decide, by decide,
    exists_next (by decide), exists_next (by decide)⟩

theorem witness_EncodeSessionCompletes :
    (small .idle).Inv ∧ (small .idle).mode ≠ .fault ∧ (small .idle).IoNeverFails ∧
    (∀ b ∈ [0, 2], b < (small .idle).cfg.k - 1) ∧
    ([0, 2].length + 2) * (small .idle).cfg.precision < 2 ^ 32 := by decide

/-- The empty sequence on `(8, 4, 8)`: `ESYM EOS` narrows `[0, 256)` to `[192, 256)`, one region R, the
bit `1` and `[128, 256)`; `EFLUSH` adds `10`. -/
theorem witness_DecodeReturnsWhatWasEncoded :
    (small .idle).Inv ∧ (small .idle).mode ≠ .fault ∧ (∀ b ∈ ([] : List Nat), b < (small .idle).cfg.k - 1) ∧
    (∃ t, runEncode [] (small .idle) = .next t ∧ t.mode = .done ∧
      emittedBits t.out = [true, true, false]) ∧
    ({ small .idle with source := [true, true, false] } : State).Inv ∧
    (small .idle).IoNeverFails :=
  ⟨by decide, by decide, by decide, exists_next (by decide), inv_of (by decide), by decide⟩

end Sys2Proof.Tests
end

section
/-! What every command writes to `RESULT` (R29): how an execution can end, what each rule that completes
leaves in `MODE` and `RESULT`, and that every returned value fits the register. -/

namespace Sys2Proof

/-- `V1` to `V4` of R12, as inequalities. -/
theorem Params.valid_iff (p : Params) :
    p.valid = true ↔ (4 ≤ p.precision ∧ p.precision ≤ 32) ∧ (2 ≤ p.k ∧ p.k ≤ 4096) ∧
      p.k < p.maxTotal ∧ p.maxTotal ≤ p.quarter := by
  simp [Params.valid, and_assoc]

end Sys2Proof

namespace Sys2Proof.Machine

/-! ### How an execution can end -/

/-- Every next state of an execution: the same state in `FAULT`; a fault taken with the command's own
word; or the state the command's rule completed in. -/
theorem exec_next_cases {i : Instr} {s t : State} (h : exec i s = .next t) :
    (s.mode = .fault ∧ t = s) ∨
    (s.mode ≠ .fault ∧ ∃ (c : Cause) (u : State), t = enterFault c (encode i) u) ∨
    (s.mode ≠ .fault ∧ operandInRange s.cfg i = true ∧ ruleOf i s = .go () t) := by
  rw [exec_eq_checkedRun] at h
  rcases checkedRun_cases i s (ruleOf i) with
    ⟨hm, he⟩ | ⟨hm, -, he⟩ | ⟨hm, -, -, he⟩ | ⟨hm, -, hr, he⟩ <;> rw [he] at h
  · exact .inl ⟨hm, by cases h; rfl⟩
  · exact .inr (.inl ⟨hm, .sequence, s, by cases h; rfl⟩)
  · exact .inr (.inl ⟨hm, .modelRange, s, by cases h; rfl⟩)
  · cases hx : ruleOf i s <;> rw [hx] at h
    case go => cases h; exact .inr (.inr ⟨hm, hr, rfl⟩)
    case raised c u => cases h; exact .inr (.inl ⟨hm, c, u, rfl⟩)
    case stuck => cases h

/-! ### `MODE` and `RESULT` after a rule that completes -/

theorem encodeSymbol_go {sym : Nat} {s t : State} (h : encodeSymbol sym s = .go () t) :
    t.mode = s.mode ∧ t.result = 0 := by
  rcases encodeSymbol_cases sym s with ⟨-, he⟩ | ⟨-, -, -, -, -, he⟩ |
    ⟨-, _, _, -, -, -, -, -, he, -⟩ | ⟨-, _, _, -, -, -, -, he, -⟩ | ⟨-, -, he⟩ <;>
    rw [he] at h <;> cases h
  exact ⟨rfl, rfl⟩

theorem terminateStream_go {s t : State} (h : terminateStream s = .go () t) :
    t.mode = .done ∧ t.result = 0 := by
  rcases terminateStream_cases s with ⟨-, he⟩ | ⟨-, -, he⟩ | ⟨-, _, _, -, -, -, he, -⟩ <;>
    rw [he] at h <;> cases h
  exact ⟨rfl, rfl⟩

theorem ruleOf_dinit_go {s t : State} (h : ruleOf .dinit s = .go () t) :
    t.mode = .dec ∧ t.result = 0 := by
  rcases ruleOf_dinit_cases s with ⟨-, he⟩ | ⟨_, he, -⟩ <;> rw [he] at h <;> cases h
  exact ⟨rfl, rfl⟩

theorem decodeSymbol_go {s t : State} (h : decodeSymbol s = .go () t) :
    (t.mode = .done ∨ t.mode = s.mode) ∧ ∃ sym, findSymbol s = some sym ∧ t.result = zext32 sym := by
  rcases decodeSymbol_cases s with ⟨-, he⟩ | ⟨hf, he⟩ |
    ⟨sym, hf, -, ⟨-, -, he⟩ | ⟨_, he, -⟩ | ⟨-, he⟩⟩ <;> rw [he] at h <;> cases h
  · exact ⟨.inl rfl, _, hf, rfl⟩
  · exact ⟨.inr rfl, sym, hf, rfl⟩

/-- The number a command returns when it completes (R29): the value asked for, the decoded symbol (none
when the search fails), and 0 for every other command. -/
def returnedValue (s : State) : Instr → Option Nat
  | .mcumb sym => some (cumBegin s.freq sym)
  | .mcume sym => some (cumEnd s.freq sym)
  | .mtotal => some s.total
  | .dsym => findSymbol s
  | .minit | .mupd _ | .einit | .esym _ | .eflush | .dinit => some 0

/-- A rule that completes outside `FAULT` stays outside it and writes the returned value to `RESULT`. -/
theorem ruleOf_go {i : Instr} {s t : State} (hm : s.mode ≠ .fault) (h : ruleOf i s = .go () t) :
    t.mode ≠ .fault ∧ ∃ v, returnedValue s i = some v ∧ t.result = zext32 v := by
  cases i with
  | minit | einit => cases h; exact ⟨by simp, 0, rfl, rfl⟩
  | mcumb sym | mcume sym | mtotal => cases h; exact ⟨hm, _, rfl, rfl⟩
  | mupd sym => cases h; exact ⟨by simpa using hm, 0, rfl, rfl⟩
  | esym sym =>
    obtain ⟨hmode, hres⟩ := encodeSymbol_go h
    exact ⟨by rwa [hmode], 0, rfl, hres⟩
  | eflush =>
    obtain ⟨hmode, hres⟩ := terminateStream_go h
    exact ⟨by simp [hmode], 0, rfl, hres⟩
  | dinit =>
    obtain ⟨hmode, hres⟩ := ruleOf_dinit_go h
    exact ⟨by simp [hmode], 0, rfl, hres⟩
  | dsym =>
    obtain ⟨hmode, hres⟩ := decodeSymbol_go h
    exact ⟨by rcases hmode with e | e <;> simp [e, hm], hres⟩

/-! ### The returned values fit `RESULT` -/

theorem State.Inv.valid {s : State} (hi : s.Inv) (hm : s.mode ≠ .fault) : s.cfg.valid = true := by
  obtain ⟨⟨hcause, -, hconfig, -⟩, -⟩ := hi
  have hnone := hcause.2 hm
  simpa [hnone] using hconfig

/-- `total` has at most 31 bits (R11, R22). -/
theorem State.Inv.total_lt {s : State} (hi : s.Inv) (hm : s.mode ≠ .fault) : s.total < 2 ^ 32 := by
  obtain ⟨⟨-, hp⟩, -⟩ := (Params.valid_iff _).1 (hi.valid hm)
  obtain ⟨-, ⟨-, htotal, -⟩, -⟩ := hi
  have hw : s.cfg.cntW ≤ 32 := by unfold Params.cntW; omega
  exact htotal.trans_le (Nat.pow_le_pow_right (by decide) hw)

theorem cumBegin_le_cumEnd (t : FreqTable) (sym : Nat) : cumBegin t sym ≤ cumEnd t sym :=
  Nat.le_add_right _ _

/-- M2 and M3 of R34: no cumulative frequency of a symbol is above `total`. -/
theorem State.Inv.cumEnd_le_total {s : State} (hi : s.Inv) (hm : s.mode ≠ .fault) {sym : Nat}
    (hs : sym < s.cfg.k) : cumEnd s.freq sym ≤ s.total := by
  obtain ⟨-, -, hmodel, -⟩ := hi
  obtain ⟨hlen, -, hsum, -⟩ := hmodel hm
  exact hsum ▸ cumEnd_le_sum s.freq sym (hlen ▸ hs)

/-- What the search finds is the one candidate that matches (R161). -/
theorem findSymbol_eq_some_iff (s : State) (sym : Nat) :
    findSymbol s = some sym ↔ (List.range s.cfg.k).filter (symMatches s) = [sym] := by
  unfold findSymbol
  split
  · next found hf => simp [hf]
  · next hne => exact ⟨nofun, fun h => absurd h (hne sym)⟩

theorem findSymbol_lt {s : State} {sym : Nat} (h : findSymbol s = some sym) : sym < s.cfg.k := by
  rw [findSymbol_eq_some_iff] at h
  have hmem : sym ∈ (List.range s.cfg.k).filter (symMatches s) := by simp [h]
  exact List.mem_range.1 (List.mem_of_mem_filter hmem)

theorem returnedValue_lt {i : Instr} {s : State} {v : Nat} (hi : s.Inv) (hm : s.mode ≠ .fault)
    (hr : operandInRange s.cfg i = true) (hv : returnedValue s i = some v) : v < 2 ^ 32 := by
  have htotal := hi.total_lt hm
  cases i with
  | mcumb sym =>
    cases hv
    have hcum := hi.cumEnd_le_total hm (of_decide_eq_true hr)
    exact ((cumBegin_le_cumEnd s.freq sym).trans hcum).trans_lt htotal
  | mcume sym => cases hv; exact (hi.cumEnd_le_total hm (of_decide_eq_true hr)).trans_lt htotal
  | mtotal => cases hv; exact htotal
  | dsym =>
    obtain ⟨-, ⟨-, hk⟩, -⟩ := (Params.valid_iff _).1 (hi.valid hm)
    have hlt := findSymbol_lt hv
    omega
  | minit | mupd _ | einit | esym _ | eflush | dinit => cases hv; decide

/-! ### `RESULT` after an execution -/

theorem zext32_toNat {v : Nat} (h : v < 2 ^ 32) : (zext32 v).toNat = v :=
  Nat.mod_eq_of_lt h

theorem enterFault_result_toNat (c : Cause) (w : CmdWord) (s : State) :
    (enterFault c w s).result.toNat = w.toNat := by
  rw [enterFault_result, BitVec.toNat_setWidth_of_le (by decide)]

/-- A completed command leaves its returned value in `RESULT`, as an exact number. -/
theorem exec_completed_result {i : Instr} {s t : State} (hi : s.Inv) (h : exec i s = .next t)
    (ht : t.mode ≠ .fault) : returnedValue s i = some t.result.toNat := by
  rcases exec_next_cases h with ⟨hm, rfl⟩ | ⟨-, c, u, rfl⟩ | ⟨hm, hr, hgo⟩
  · exact absurd hm ht
  · exact absurd (enterFault_mode c (encode i) u) ht
  · obtain ⟨-, v, hv, hres⟩ := ruleOf_go hm hgo
    rw [hv, hres, zext32_toNat (returnedValue_lt hi hm hr hv)]

/-- A command that faults leaves its word in `RESULT`: a rule that completes does not enter `FAULT`. -/
theorem exec_faulted_result {i : Instr} {s t : State} (h : exec i s = .next t)
    (hm : s.mode ≠ .fault) (ht : t.mode = .fault) : t.result.toNat = (encode i).toNat := by
  rcases exec_next_cases h with ⟨hf, -⟩ | ⟨-, c, u, rfl⟩ | ⟨-, -, hgo⟩
  · exact absurd hf hm
  · exact enterFault_result_toNat c (encode i) u
  · obtain ⟨hne, -⟩ := ruleOf_go hm hgo
    exact absurd ht hne

/-- A command received in `FAULT` is discarded (R200). -/
theorem exec_in_fault {i : Instr} {s : State} (hm : s.mode = .fault) : exec i s = .next s := by
  rw [exec_eq_checkedRun, checkedRun_in_fault i s _ hm]

/-- Settles O51, from the ends of an execution and the value each completed rule returns. -/
theorem resultHoldsWhatTheCommandReturns : Obligations.ResultHoldsWhatTheCommandReturns := by
  unfold Obligations.ResultHoldsWhatTheCommandReturns
  intro i s t hi h
  refine ⟨fun ht => ?_, exec_faulted_result h, fun hm => ?_⟩
  · have hv := exec_completed_result hi h ht
    refine ⟨?_, ?_, ?_, ?_, fun hb he htot hd => ?_⟩
    · rintro sym rfl
      exact (Option.some.inj hv).symm
    · rintro sym rfl
      exact (Option.some.inj hv).symm
    · rintro rfl
      exact (Option.some.inj hv).symm
    · rintro rfl
      exact ⟨hv, findSymbol_lt hv⟩
    · have hzero : some 0 = some t.result.toNat := by
        cases i with
        | mcumb sym => exact absurd rfl (hb sym)
        | mcume sym => exact absurd rfl (he sym)
        | mtotal => exact absurd rfl htot
        | dsym => exact absurd rfl hd
        | minit | mupd _ | einit | esym _ | eflush | dinit => exact hv
      exact BitVec.eq_of_toNat_eq (Option.some.inj hzero).symm
  · rw [exec_in_fault hm] at h
    cases h
    rfl

end Sys2Proof.Machine
end

section
/-! The decoder read backwards (R80 to R84): the two fields decide which command a word is. From this
follow the opcode map of R82, row by row, and the words that are no command. -/

namespace Sys2Proof

/-! ### The command of a word -/

theorem decodeFormatN_eq_instr_iff {op field : Nat} {i j : Instr} :
    decodeFormatN op field i = .instr j ↔ field = 0 ∧ j = i := by
  by_cases h : field = 0 <;> simp [decodeFormatN, h, eq_comm]

/-- A word decodes to a command exactly when `OP` is the command's opcode and `SYM` its operand, or zero
when it has none. -/
theorem decode_eq_instr_iff (w : CmdWord) (i : Instr) :
    decode w = .instr i ↔ opField w = opcodeOf i ∧ symField w = fieldOf i := by
  constructor
  · intro h
    unfold decode at h
    split at h
    case h_1 hop | h_4 hop | h_6 hop | h_8 hop | h_9 hop | h_10 hop =>
      obtain ⟨hfield, rfl⟩ := decodeFormatN_eq_instr_iff.1 h
      exact ⟨hop, hfield⟩
    case h_2 hop | h_3 hop | h_5 hop | h_7 hop =>
      cases h
      exact ⟨hop, rfl⟩
    case h_11 => cases h
  · rintro ⟨hop, hfield⟩
    cases i with
    | minit | mtotal | einit | eflush | dinit | dsym =>
      simp only [opcodeOf, fieldOf] at hop hfield
      simp [decode, hop, hfield, decodeFormatN]
    | mcumb sym | mcume sym | mupd sym | esym sym =>
      simp only [opcodeOf, fieldOf] at hop hfield
      simp [decode, hop, hfield]

/-- The opcodes of the format-`N` commands (R82). -/
def formatNOpcodes : List Nat := [0x1, 0x4, 0x8, 0xA, 0xC, 0xD]

/-- The opcodes of no command (R83). -/
def reservedOpcodes : List Nat := [0x0, 0x6, 0x7, 0xB, 0xE, 0xF]

theorem opcodeOf_not_reserved (i : Instr) : opcodeOf i ∉ reservedOpcodes := by
  cases i <;> simp [opcodeOf, reservedOpcodes]

theorem fieldOf_eq_zero {i : Instr} (h : opcodeOf i ∈ formatNOpcodes) : fieldOf i = 0 := by
  cases i <;> simp_all [opcodeOf, fieldOf, formatNOpcodes]

/-! ### The rows of the opcode map -/

/-- No two rows of R82 share a mnemonic, and no two share an opcode. -/
theorem mnemonicOf_eq_iff (i j : Instr) : mnemonicOf i = mnemonicOf j ↔ opcodeOf i = opcodeOf j := by
  cases i <;> cases j <;> simp [mnemonicOf, opcodeOf]

/-- The word decodes to a command with this mnemonic. -/
def DecodesToMnemonic (name : String) (w : CmdWord) : Prop :=
  ∃ i, decode w = .instr i ∧ mnemonicOf i = name

theorem decodesToMnemonic_iff_of_formatN {i : Instr} (hi : opcodeOf i ∈ formatNOpcodes)
    (w : CmdWord) :
    DecodesToMnemonic (mnemonicOf i) w ↔ opField w = opcodeOf i ∧ symField w = 0 := by
  constructor
  · rintro ⟨j, hdecode, hname⟩
    obtain ⟨hop, hfield⟩ := (decode_eq_instr_iff w j).1 hdecode
    have hji : opcodeOf j = opcodeOf i := (mnemonicOf_eq_iff j i).1 hname
    exact ⟨hop.trans hji, hfield.trans (fieldOf_eq_zero (hji ▸ hi))⟩
  · rintro ⟨hop, hfield⟩
    exact ⟨i, (decode_eq_instr_iff w i).2 ⟨hop, hfield.trans (fieldOf_eq_zero hi).symm⟩, rfl⟩

/-- A family of commands, one for each operand, that share one opcode: format `S` (R80). -/
def IsFormatS (c : Nat → Instr) : Prop :=
  ∀ sym, opcodeOf (c sym) = opcodeOf (c 0) ∧ fieldOf (c sym) = sym

theorem decodesToMnemonic_iff_of_formatS {c : Nat → Instr} (hc : IsFormatS c) (w : CmdWord) :
    DecodesToMnemonic (mnemonicOf (c 0)) w ↔ opField w = opcodeOf (c 0) := by
  constructor
  · rintro ⟨j, hdecode, hname⟩
    obtain ⟨hop, -⟩ := (decode_eq_instr_iff w j).1 hdecode
    exact hop.trans ((mnemonicOf_eq_iff j (c 0)).1 hname)
  · intro hop
    obtain ⟨hopc, hfieldc⟩ := hc (symField w)
    exact ⟨c (symField w), (decode_eq_instr_iff w _).2 ⟨hop.trans hopc.symm, hfieldc.symm⟩,
      (mnemonicOf_eq_iff _ _).2 hopc⟩

/-! ### The masks of the opcode map -/

theorem eq_iff_fields (v w : CmdWord) : v = w ↔ opField v = opField w ∧ symField v = symField w := by
  rw [← BitVec.toNat_inj, opField_eq, opField_eq, symField_eq, symField_eq]
  omega

/-- The mask of format `S` keeps `OP` and clears `SYM`. -/
theorem toNat_and_opMask (w : CmdWord) : (w &&& 0xF000).toNat = opField w * 4096 := by
  have hmask : (0xF000 : CmdWord) = BitVec.allOnes 16 <<< 12 := by decide
  have hw := w.isLt
  rw [hmask, ← BitVec.shiftLeft_ushiftRight, opField_eq, BitVec.toNat_shiftLeft,
    BitVec.toNat_ushiftRight, Nat.shiftRight_eq_div_pow, Nat.shiftLeft_eq]
  omega

theorem and_opMask_eq_iff (w : CmdWord) {m : CmdWord} (hm : symField m = 0) :
    w &&& 0xF000 = m ↔ opField w = opField m := by
  rw [symField_eq] at hm
  rw [← BitVec.toNat_inj, toNat_and_opMask, opField_eq m]
  omega

theorem and_fullMask (w : CmdWord) : w &&& 0xFFFF = w := BitVec.and_allOnes

/-! ### R82: match and mask select what the decoder selects -/

/-- The row of a format-`N` command: its one word, compared in every bit. -/
def formatNRow (i : Instr) : OpcodeRow :=
  { mnemonic := mnemonicOf i, matchBits := encode i, mask := 0xFFFF }

/-- The row of a format-`S` family: its word with operand 0, compared in `OP` only. -/
def formatSRow (c : Nat → Instr) : OpcodeRow :=
  { mnemonic := mnemonicOf (c 0), matchBits := encode (c 0), mask := 0xF000 }

theorem opcodeTable_eq : opcodeTable =
    [formatNRow .minit, formatSRow .mcumb, formatSRow .mcume, formatNRow .mtotal, formatSRow .mupd,
      formatNRow .einit, formatSRow .esym, formatNRow .eflush, formatNRow .dinit, formatNRow .dsym] := by
  decide

/-- A command whose operand is 0, or that has none, can be encoded. -/
theorem wellFormed_of_fieldOf_eq_zero {i : Instr} (h : fieldOf i = 0) : i.wellFormed = true := by
  cases i <;> simp_all [fieldOf, Instr.wellFormed, symbolFits]

/-- The decoder and the row agree on every word (R82). -/
def OpcodeRow.AgreesWithDecoder (r : OpcodeRow) : Prop :=
  ∀ w : CmdWord, w &&& r.mask = r.matchBits ↔ DecodesToMnemonic r.mnemonic w

theorem formatNRow_agreesWithDecoder {i : Instr} (hi : opcodeOf i ∈ formatNOpcodes) :
    (formatNRow i).AgreesWithDecoder := by
  intro w
  have hfield : fieldOf i = 0 := fieldOf_eq_zero hi
  have hwf := wellFormed_of_fieldOf_eq_zero hfield
  calc w &&& 0xFFFF = encode i
      ↔ opField w = opcodeOf i ∧ symField w = 0 := by
        rw [and_fullMask, eq_iff_fields, opField_encode i hwf, symField_encode i hwf, hfield]
    _ ↔ DecodesToMnemonic (mnemonicOf i) w := (decodesToMnemonic_iff_of_formatN hi w).symm

theorem formatSRow_agreesWithDecoder {c : Nat → Instr} (hc : IsFormatS c) :
    (formatSRow c).AgreesWithDecoder := by
  intro w
  obtain ⟨-, hfield⟩ := hc 0
  have hwf := wellFormed_of_fieldOf_eq_zero hfield
  calc w &&& 0xF000 = encode (c 0)
      ↔ opField w = opcodeOf (c 0) := by
        rw [and_opMask_eq_iff w ((symField_encode _ hwf).trans hfield), opField_encode _ hwf]
    _ ↔ DecodesToMnemonic (mnemonicOf (c 0)) w := (decodesToMnemonic_iff_of_formatS hc w).symm

/-- Every row of R82 is of one of the two formats. -/
theorem opcodeTable_agreesWithDecoder : ∀ r ∈ opcodeTable, r.AgreesWithDecoder := by
  simp only [opcodeTable_eq, List.forall_mem_cons]
  exact ⟨formatNRow_agreesWithDecoder (i := .minit) (by decide),
    formatSRow_agreesWithDecoder (c := .mcumb) fun _ => ⟨rfl, rfl⟩,
    formatSRow_agreesWithDecoder (c := .mcume) fun _ => ⟨rfl, rfl⟩,
    formatNRow_agreesWithDecoder (i := .mtotal) (by decide),
    formatSRow_agreesWithDecoder (c := .mupd) fun _ => ⟨rfl, rfl⟩,
    formatNRow_agreesWithDecoder (i := .einit) (by decide),
    formatSRow_agreesWithDecoder (c := .esym) fun _ => ⟨rfl, rfl⟩,
    formatNRow_agreesWithDecoder (i := .eflush) (by decide),
    formatNRow_agreesWithDecoder (i := .dinit) (by decide),
    formatNRow_agreesWithDecoder (i := .dsym) (by decide), List.forall_mem_nil _⟩

/-- Settles O4: each row agrees with the decoder on every word. -/
theorem decoderSelectsRowsByMatchAndMask : Obligations.DecoderSelectsRowsByMatchAndMask := by
  unfold Obligations.DecoderSelectsRowsByMatchAndMask
  intro w r hr
  exact opcodeTable_agreesWithDecoder r hr w

/-! ### The words that are no command -/

/-- R83, R84: a reserved `OP`, or a format-`N` `OP` with a non-zero field. -/
theorem decode_ne_instr_of_illegal {w : CmdWord}
    (h : opField w ∈ reservedOpcodes ∨ (opField w ∈ formatNOpcodes ∧ symField w ≠ 0)) (i : Instr) :
    decode w ≠ .instr i := by
  intro hdecode
  obtain ⟨hop, hfield⟩ := (decode_eq_instr_iff w i).1 hdecode
  rw [hop, hfield] at h
  rcases h with hres | ⟨hN, hne⟩
  · exact opcodeOf_not_reserved i hres
  · exact hne (fieldOf_eq_zero hN)

end Sys2Proof

namespace Sys2Proof.Machine

/-- R86 (2): both kinds of word that are no command are answered alike. -/
theorem runCommand_of_no_command {w : CmdWord} (h : ∀ i, decode w ≠ .instr i) (s : State) :
    runCommand w s = .next (respond (illegalCommand w s)) := by
  unfold runCommand
  cases hd : decode w with
  | instr i => exact absurd hd (h i)
  | reservedOpcode op | nonzeroField op field => rfl

theorem illegalCommand_of_running (w : CmdWord) {s : State} (hm : s.mode ≠ .fault) :
    illegalCommand w s =
      { s with mode := .fault, cause := .illegalCmd, result := w.setWidth 32 } := by
  rw [illegalCommand, if_neg hm, enterFault_precise .illegalCmd w s rfl]

theorem step_command {s : State} {w : CmdWord} {rest : List Input} (h : s.inputs = .command w :: rest) :
    step s = runCommand w { s with inputs := rest } := by
  rw [step, h]
  rfl

/-- Settles O5: the word is no command, and `ILLEGAL_CMD` is a precise fault. -/
theorem illegalWordRaisesIllegalCmd : Obligations.IllegalWordRaisesIllegalCmd := by
  unfold Obligations.IllegalWordRaisesIllegalCmd
  intro s w rest hin hm hill
  rw [← opField_eq, ← symField_eq] at hill
  rw [step_command hin, runCommand_of_no_command (decode_ne_instr_of_illegal hill),
    illegalCommand_of_running w (s := { s with inputs := rest }) hm]

end Sys2Proof.Machine
end

section
/-! The model commands (R110 to R114): what an execution does when its checks pass and when each of them
fails, and the values of the frequency table the model invariants fix. -/

namespace Sys2Proof

/-- R84: a format-`N` opcode with a non-zero field. -/
theorem decode_of_nonzero_field {w : CmdWord} {op : Nat} (hN : op ∈ formatNOpcodes)
    (hop : w.toNat / 4096 = op) (hfield : w.toNat % 4096 ≠ 0) :
    decode w = .nonzeroField op (w.toNat % 4096) := by
  rw [← opField_eq] at hop
  rw [← symField_eq] at hfield ⊢
  simp only [formatNOpcodes, List.mem_cons, List.not_mem_nil, or_false] at hN
  rcases hN with rfl | rfl | rfl | rfl | rfl | rfl <;> simp [decode, decodeFormatN, hop, hfield]

/-- A command whose operand fits the field can be encoded (R80, R81). -/
theorem wellFormed_of_fieldOf_lt {i : Instr} (h : fieldOf i < 4096) : i.wellFormed = true := by
  cases i <;> simp_all [fieldOf, Instr.wellFormed, symbolFits]

/-- The word a fault records in `RESULT` (R199), from its two fields. -/
theorem encode_setWidth (i : Instr) {op field : Nat} (hop : opcodeOf i = op)
    (hfield : fieldOf i = field) (hlt : field < 4096) :
    (encode i).setWidth 32 = BitVec.ofNat 32 (op * 4096 + field) := by
  have hwf : i.wellFormed = true := wellFormed_of_fieldOf_lt (hfield ▸ hlt)
  apply BitVec.eq_of_toNat_eq
  rw [BitVec.toNat_setWidth, BitVec.toNat_ofNat, encode_toNat i hwf, hop, hfield]

end Sys2Proof

namespace Sys2Proof.Machine

/-! ### The checks of R86 -/

theorem Mode.running_iff (m : Mode) : m.running = true ↔ m ≠ .fault := by
  cases m <;> simp [Mode.running]

/-- The matrix of R203 has no `Y` in `FAULT`. -/
theorem ne_fault_of_legalIn {i : Instr} {m : Mode} (h : legalIn i m = true) : m ≠ .fault := by
  rintro rfl
  cases i <;> cases h

/-- A command that passes its checks runs its rule (R86). -/
theorem exec_eq_finish {i : Instr} {s : State} (hl : legalIn i s.mode = true)
    (hr : operandInRange s.cfg i = true) : exec i s = finish (encode i) (ruleOf i s) := by
  rw [exec_eq_checkedRun, checkedRun_runs i s _ (ne_fault_of_legalIn hl) hl hr]

/-- R86 (3): a command out of sequence records its word. -/
theorem exec_out_of_sequence {i : Instr} {s : State} (hm : s.mode ≠ .fault)
    (hl : legalIn i s.mode = false) :
    exec i s = .next { s with
      mode := .fault, cause := .sequence, result := (encode i).setWidth 32 } := by
  rw [exec_eq_checkedRun, checkedRun_illegal i s _ hm hl, enterFault_precise _ _ _ rfl]

/-- R86 (4), R108: a command with a symbol outside the alphabet records its word. -/
theorem exec_out_of_range {i : Instr} {s : State} (hl : legalIn i s.mode = true)
    (hr : operandInRange s.cfg i = false) :
    exec i s = .next { s with
      mode := .fault, cause := .modelRange, result := (encode i).setWidth 32 } := by
  rw [exec_eq_checkedRun, checkedRun_out_of_range i s _ (ne_fault_of_legalIn hl) hl hr,
    enterFault_precise _ _ _ rfl]

/-! ### The table under the model invariants -/

/-- The last range ends at the sum of the table (M5 of R34). -/
theorem cumEnd_last {t : FreqTable} (h : 1 ≤ t.length) : cumEnd t (t.length - 1) = t.sum := by
  rw [cumEnd_eq_take t _ (by omega), Nat.sub_add_cancel h, List.take_length]

theorem State.ModelInv.one_le_readFreq {s : State} (hi : s.ModelInv) {sym : Nat}
    (hs : sym < s.cfg.k) : 1 ≤ readFreq s.freq sym := by
  obtain ⟨hlen, hpos, -⟩ := hi
  have hlt : sym < s.freq.length := hlen ▸ hs
  exact readFreq_eq s.freq sym hlt ▸ hpos _ (List.getElem_mem hlt)

theorem State.ModelInv.cumEnd_last_eq_total {s : State} (hi : s.ModelInv) (hk : 1 ≤ s.cfg.k) :
    cumEnd s.freq (s.cfg.k - 1) = s.total := by
  obtain ⟨hlen, -, hsum, -⟩ := hi
  rw [hsum, ← hlen]
  exact cumEnd_last (hlen ▸ hk)

/-! ### The obligations -/

/-- Settles O16: outside `FAULT` the rule of `MINIT` runs, in `FAULT` the command is discarded, and a
non-zero field makes its word no command. -/
theorem minitConstructsTheModel : Obligations.MinitConstructsTheModel := by
  unfold Obligations.MinitConstructsTheModel
  refine ⟨fun s hm => ?_, fun s hm => exec_in_fault hm, fun w hop hfield => ?_⟩
  · exact exec_eq_finish ((Mode.running_iff _).2 hm) rfl
  · exact decode_of_nonzero_field (by decide) hop hfield

/-- Settles O17: in the alphabet each query runs its rule, outside it the range check faults; the corner
cases are the last range and the positive entries of the model invariants. -/
theorem modelQueriesReturnTheirValue : Obligations.ModelQueriesReturnTheirValue := by
  unfold Obligations.ModelQueriesReturnTheirValue
  refine ⟨fun s sym hm hs => ?_, fun s sym hm hs hsym => ?_, fun s hm => ?_,
    fun w hop hfield => ?_, fun s hi hk => ?_⟩
  · have hl := (Mode.running_iff _).2 hm
    exact ⟨exec_eq_finish (i := .mcumb sym) hl (decide_eq_true hs),
      exec_eq_finish (i := .mcume sym) hl (decide_eq_true hs)⟩
  · have hl := (Mode.running_iff _).2 hm
    have hr := decide_eq_false hs.not_gt
    have hbegin : (encode (.mcumb sym)).setWidth 32 = BitVec.ofNat 32 (0x2 * 4096 + sym) :=
      encode_setWidth (.mcumb sym) rfl rfl hsym
    have hend : (encode (.mcume sym)).setWidth 32 = BitVec.ofNat 32 (0x3 * 4096 + sym) :=
      encode_setWidth (.mcume sym) rfl rfl hsym
    constructor
    · rw [exec_out_of_range (i := .mcumb sym) hl hr, hbegin]
    · rw [exec_out_of_range (i := .mcume sym) hl hr, hend]
  · exact exec_eq_finish ((Mode.running_iff _).2 hm) rfl
  · exact decode_of_nonzero_field (by decide) hop hfield
  · have ⟨_, _, _, hge, hle⟩ := hi
    exact ⟨hi.cumEnd_last_eq_total hk, hge, hle, fun sym hs => hi.one_le_readFreq hs⟩

/-- Settles O18: in `IDLE` the update runs below the ceiling or at it, unless the range check faults; the
other modes are out of sequence. -/
theorem mupdUpdatesTheModelOrFaults : Obligations.MupdUpdatesTheModelOrFaults := by
  unfold Obligations.MupdUpdatesTheModelOrFaults
  intro s sym hsym
  have hword : (encode (.mupd sym)).setWidth 32 = BitVec.ofNat 32 (0x5 * 4096 + sym) :=
    encode_setWidth (.mupd sym) rfl rfl hsym
  refine ⟨fun hm hs hlt => ?_, fun hm hs hge => ?_, fun hm hs => ?_, fun hm => ?_⟩
  · rw [exec_eq_finish (i := .mupd sym) (decide_eq_true hm) (decide_eq_true hs), ruleOf,
      update_below sym s hlt, finish_go]
  · rw [exec_eq_finish (i := .mupd sym) (decide_eq_true hm) (decide_eq_true hs), ruleOf,
      update_at_ceiling sym s hge, finish_go, funext halve_eq_max]
  · rw [exec_out_of_range (i := .mupd sym) (decide_eq_true hm) (decide_eq_false hs.not_gt), hword]
  · obtain ⟨hne, hnf⟩ : s.mode ≠ .idle ∧ s.mode ≠ .fault := by rcases hm with h | h | h <;> simp [h]
    rw [exec_out_of_sequence (i := .mupd sym) hnf (decide_eq_false hne), hword]

end Sys2Proof.Machine
end

section
/-! Rounding (R130) as a pair of bounds on `T * rnd w c T`, the width its numerator needs, and the start
of an encode session (R140). -/

namespace Sys2Proof.Machine

/-! ### The bounds of `rnd` -/

/-- The rounded value is at most half a unit above `w * c / T`; a tie attains the bound. -/
theorem two_mul_mul_rnd_le (w c T : Nat) : 2 * (T * rnd w c T) ≤ 2 * (w * c) + T := by
  rw [← mul_assoc 2 T, ← mul_assoc 2 w]
  exact Nat.mul_div_le _ _

/-- The rounded value is less than half a unit below `w * c / T`: a tie does not go down. -/
theorem lt_two_mul_mul_rnd_add (w c : Nat) {T : Nat} (hT : 1 ≤ T) :
    2 * (w * c) < 2 * (T * rnd w c T) + T := by
  have h : 2 * w * c + T < 2 * T * rnd w c T + 2 * T := Nat.lt_mul_div_succ _ (by omega)
  rw [mul_assoc 2 T, mul_assoc 2 w] at h
  omega

/-- With `q = 2^(P-2)` the numerator is at most `8*q^2 + q`, and `2^(2*P)` is `16*q^2`. -/
theorem rnd_numerator_lt {P w c T : Nat} (hP : 2 ≤ P) (hw : w ≤ 2 ^ P) (hc : c ≤ T)
    (hT : T ≤ 2 ^ (P - 2)) : 2 * w * c + T < 2 ^ (2 * P) := by
  obtain ⟨n, rfl⟩ := Nat.exists_eq_add_of_le' hP
  rw [Nat.add_sub_cancel] at hT
  have hpos : 0 < 2 ^ n := Nat.two_pow_pos n
  have hsq : 2 ^ n ≤ 2 ^ n * 2 ^ n := Nat.le_mul_self _
  calc 2 * w * c + T
      ≤ 2 * 2 ^ (n + 2) * 2 ^ n + 2 ^ n := by gcongr; exact hc.trans hT
    _ = 8 * (2 ^ n * 2 ^ n) + 2 ^ n := by ring
    _ < 16 * (2 ^ n * 2 ^ n) := by omega
    _ = 2 ^ (2 * (n + 2)) := by ring

/-- Settles O23, from the two bounds of the division in `rnd` and the width of its numerator. -/
theorem roundingIsNearestWithTiesUp : Obligations.RoundingIsNearestWithTiesUp := by
  unfold Obligations.RoundingIsNearestWithTiesUp
  exact ⟨fun w c T hT => ⟨rfl, lt_two_mul_mul_rnd_add w c hT, two_mul_mul_rnd_le w c T⟩,
    fun _ _ _ _ => rnd_numerator_lt⟩

/-! ### `EINIT` -/

/-- Settles O28: outside `FAULT` the rule of `EINIT` runs, in `FAULT` the command is discarded, and a
non-zero field makes its word no command. -/
theorem einitStartsAnEncodeSession : Obligations.EinitStartsAnEncodeSession := by
  unfold Obligations.EinitStartsAnEncodeSession
  refine ⟨fun s hm => ?_, fun s hm => exec_in_fault hm, fun w hop hfield => ?_⟩
  · exact exec_eq_finish ((Mode.running_iff _).2 hm) rfl
  · exact decode_of_nonzero_field (by decide) hop hfield

end Sys2Proof.Machine
end

section
/-! The value of a bit string, for the round trip of R169. A decoder's `z` with the bits still in its
source, and an encoder's deferred bits with the bits it will still send, are each one rational number;
the regions of a renormalisation (R137, R163) map both in the same way. -/

namespace Sys2Proof

theorem Params.half_eq {p : Params} (hp : p.valid = true) : p.half = 2 * p.quarter := by
  obtain ⟨⟨hge, -⟩, -⟩ := p.valid_iff.1 hp
  rw [Params.half, Params.quarter, ← pow_succ', show p.precision - 2 + 1 = p.precision - 1 by omega]

theorem Params.whole_eq {p : Params} (hp : p.valid = true) : p.whole = 2 * p.half := by
  obtain ⟨⟨hge, -⟩, -⟩ := p.valid_iff.1 hp
  rw [Params.whole, Params.half, ← pow_succ', Nat.sub_add_cancel (by omega)]

theorem Params.half_le_whole {p : Params} (hp : p.valid = true) : p.half ≤ p.whole := by
  have := Params.whole_eq hp
  omega

theorem Params.quarter_pos (p : Params) : 0 < p.quarter := Nat.two_pow_pos _

/-- A command with an operand of 12 bits or none is read back from its word (R80 to R82). -/
theorem decode_encode {i : Instr} (h : i.wellFormed = true) : decode (encode i) = .instr i :=
  (decode_eq_instr_iff _ i).2 ⟨opField_encode i h, symField_encode i h⟩

end Sys2Proof

namespace Sys2Proof.Machine

/-! ### Bit strings as fractions -/

/-- A bit string as a binary fraction: the first bit counts one half. -/
def bitsFraction : List Bool → ℚ
  | [] => 0
  | b :: bs => ((b.toNat : ℚ) + bitsFraction bs) / 2

theorem bitsFraction_nonneg (bs : List Bool) : 0 ≤ bitsFraction bs := by
  induction bs with
  | nil => simp [bitsFraction]
  | cons b bs ih => simp only [bitsFraction]; positivity

theorem bitsFraction_lt_one (bs : List Bool) : bitsFraction bs < 1 := by
  induction bs with
  | nil => simp [bitsFraction]
  | cons b bs ih =>
    have hb : (b.toNat : ℚ) ≤ 1 := by exact_mod_cast Bool.toNat_le b
    simp only [bitsFraction]
    linarith

/-- Bits put in front of a fraction: zeros halve it, ones halve its distance from 1. -/
theorem two_pow_mul_bitsFraction_replicate (b : Bool) (n : Nat) (bs : List Bool) :
    2 ^ n * (bitsFraction (List.replicate n b ++ bs) - (b.toNat : ℚ)) =
      bitsFraction bs - (b.toNat : ℚ) := by
  induction n with
  | zero => simp
  | succ n ih =>
    rw [← ih, List.replicate_succ, List.cons_append, bitsFraction]
    ring

/-- The source from position `pos` on, one bit taken off; past its end the bit is 0 (R57). -/
theorem two_mul_bitsFraction_drop (src : List Bool) (pos : Nat) :
    2 * bitsFraction (src.drop pos) =
      (sourceBit src pos : ℚ) + bitsFraction (src.drop (pos + 1)) := by
  rcases Nat.lt_or_ge pos src.length with h | h
  · rw [List.drop_eq_getElem_cons h, bitsFraction, sourceBit, List.getD_eq_getElem _ _ h]
    ring
  · rw [sourceBit_past h, List.drop_eq_nil_of_le h, List.drop_eq_nil_of_le (by omega)]
    simp [bitsFraction]

/-- The first `n` bits as an integer, and what is behind them (R160). -/
theorem bitsValue_add_bitsFraction_drop (src : List Bool) (pos n : Nat) :
    (bitsValue src pos n : ℚ) + bitsFraction (src.drop (pos + n)) =
      2 ^ n * bitsFraction (src.drop pos) := by
  induction n with
  | zero => simp [bitsValue]
  | succ n ih =>
    have hbit := two_mul_bitsFraction_drop src (pos + n)
    rw [pow_succ', mul_assoc, ← ih, mul_add, hbit, bitsValue, ← add_assoc pos]
    push_cast
    ring

/-! ### The region map on rationals -/

/-- `expandEnd` without the truncation of natural subtraction (R137). -/
def expandValue (p : Params) (v : ℚ) (r : Region) : ℚ := 2 * (v - regionOffset p r)

theorem foldl_expandValue_le_iff (p : Params) (tr : List Region) (v w : ℚ) :
    tr.foldl (expandValue p) v ≤ tr.foldl (expandValue p) w ↔ v ≤ w := by
  induction tr generalizing v w with
  | nil => rfl
  | cons r tr ih =>
    rw [List.foldl_cons, List.foldl_cons, ih, expandValue, expandValue]
    constructor <;> intro h <;> linarith

theorem foldl_expandValue_lt_iff (p : Params) (tr : List Region) (v w : ℚ) :
    tr.foldl (expandValue p) v < tr.foldl (expandValue p) w ↔ v < w := by
  rw [← not_le, ← not_le, foldl_expandValue_le_iff]

/-- What a region subtracts is never above the lower end of the interval (R134, R137). -/
theorem regionOffset_region_le (p : Params) (low high : Nat) :
    regionOffset p (region p low high) ≤ low := by
  unfold region
  split_ifs <;> simp only [regionOffset] <;> omega

/-- Induction over the regions of a renormalisation (R137): a property of an interval and its trace
holds when it holds of the empty trace and passes from the expanded interval to the interval. -/
theorem regionTrace_induction {p : Params} {motive : Nat → Nat → List Region → Prop}
    (nil : ∀ low high, motive low high [])
    (cons : ∀ low high r tr, region p low high = r → r ≠ .none →
      motive (expandEnd p low r) (expandEnd p high r) tr → motive low high (r :: tr))
    (n low high : Nat) : motive low high (regionTrace p n low high) := by
  induction n generalizing low high with
  | zero => exact nil low high
  | succ n ih =>
    rw [regionTrace]
    cases hr : region p low high with
    | none => exact nil low high
    | left | right | middle => exact cons low high _ _ hr (by decide) (ih _ _)

/-- On values at or above the lower end no subtraction of the trace truncates. -/
theorem cast_foldl_expandEnd (p : Params) (n low high : Nat) {x : Nat} (hx : low ≤ x) :
    (((regionTrace p n low high).foldl (expandEnd p) x : Nat) : ℚ) =
      (regionTrace p n low high).foldl (expandValue p) (x : ℚ) := by
  refine regionTrace_induction (p := p)
    (motive := fun low _ tr => ∀ x : Nat, low ≤ x →
      ((tr.foldl (expandEnd p) x : Nat) : ℚ) = tr.foldl (expandValue p) (x : ℚ))
    (fun _ _ _ _ => rfl) ?_ n low high x hx
  intro low high r tr hr _ ih x hx
  have hoff : regionOffset p r ≤ low := hr ▸ regionOffset_region_le p low high
  have hstep : ((expandEnd p x r : Nat) : ℚ) = expandValue p x r := by
    simp [expandEnd, expandValue, Nat.cast_sub (hoff.trans hx)]
  rw [List.foldl_cons, List.foldl_cons, ← hstep]
  exact ih _ (by unfold expandEnd; omega)

/-- A renormalisation that ends within its fuel ends in region `NONE` (R137). -/
theorem region_foldl_expandEnd (p : Params) (n low high : Nat)
    (h : (regionTrace p n low high).length < n) :
    region p ((regionTrace p n low high).foldl (expandEnd p) low)
      ((regionTrace p n low high).foldl (expandEnd p) high) = .none := by
  induction n generalizing low high with
  | zero => omega
  | succ n ih =>
    rw [regionTrace] at h ⊢
    cases hr : region p low high with
    | none => exact hr
    | left | right | middle =>
      rw [hr] at h
      exact ih _ _ (Nat.lt_of_succ_lt_succ h)

/-! ### The encoder's and the decoder's value -/

/-- Where a stream whose remaining bits are `bits` points in the interval of an encoder with `pending`
deferred bits: each deferred bit stands for one doubling about `HALF` (R136, R137). -/
def streamValue (p : Params) (bits : List Bool) (pending : Nat) : ℚ :=
  p.half + 2 ^ pending * (p.whole * bitsFraction bits - p.half)

/-- Where `z` and the bits of the source from `pos` on point in the interval of a decoder. -/
def sourceValue (src : List Bool) (z pos : Nat) : ℚ := z + bitsFraction (src.drop pos)

theorem streamValue_zero {p : Params} (bits : List Bool) :
    streamValue p bits 0 = p.whole * bitsFraction bits := by
  simp [streamValue]

/-- `z` is the integer part of the decoder's value. -/
theorem sourceValue_mem_iff (src : List Bool) (z pos a b : Nat) :
    ((a : ℚ) ≤ sourceValue src z pos ∧ sourceValue src z pos < b) ↔ a ≤ z ∧ z < b := by
  have h0 := bitsFraction_nonneg (src.drop pos)
  have h1 := bitsFraction_lt_one (src.drop pos)
  unfold sourceValue
  constructor
  · rintro ⟨ha, hb⟩
    have ha' : (a : ℚ) < (z + 1 : Nat) := by push_cast; linarith
    have hb' : (z : ℚ) < (b : Nat) := by linarith
    exact ⟨Nat.lt_succ_iff.1 (by exact_mod_cast ha'), by exact_mod_cast hb'⟩
  · rintro ⟨ha, hb⟩
    have ha' : (a : ℚ) ≤ z := by exact_mod_cast ha
    have hb' : (z : ℚ) + 1 ≤ b := by exact_mod_cast hb
    exact ⟨by linarith, by linarith⟩

/-- A decided bit with the deferred opposite bits points into its half of the interval (R136). -/
theorem streamValue_emit {p : Params} (hp : p.valid = true) (b : Bool) (pending : Nat)
    (bits : List Bool) :
    streamValue p (b :: List.replicate pending (!b) ++ bits) pending =
      p.half * (b.toNat + bitsFraction bits) := by
  have hrep := two_pow_mul_bitsFraction_replicate (!b) pending bits
  have hwhole : (p.whole : ℚ) = 2 * p.half := by exact_mod_cast Params.whole_eq hp
  have hnot : ((!b).toNat : ℚ) = 1 - b.toNat := by cases b <;> simp
  rw [hnot] at hrep
  rw [List.cons_append, streamValue, bitsFraction, hwhole]
  linear_combination (p.half : ℚ) * hrep

/-- A decided bit with the deferred ones, or one bit more deferred, moves the encoder's value as its
region moves the ends of the interval (R136, R137). -/
theorem streamValue_region {p : Params} (hp : p.valid = true) {r : Region} (hr : r ≠ .none)
    (pending : Nat) (bits : List Bool) :
    streamValue p bits (tracePending [r] pending) =
      expandValue p (streamValue p (traceBits [r] pending ++ bits) pending) r := by
  have hwhole : (p.whole : ℚ) = 2 * p.half := by exact_mod_cast Params.whole_eq hp
  cases r with
  | none => exact absurd rfl hr
  | left =>
    have hemit := streamValue_emit hp false pending bits
    simp only [traceBits, tracePending, List.append_nil, expandValue, regionOffset, streamValue_zero]
    rw [← Bool.not_false, hemit, hwhole]
    simp [mul_assoc]
  | right =>
    have hemit := streamValue_emit hp true pending bits
    simp only [traceBits, tracePending, List.append_nil, expandValue, regionOffset, streamValue_zero]
    rw [← Bool.not_true, hemit, hwhole, Bool.toNat_true]
    push_cast
    ring
  | middle =>
    have hhalf : (p.half : ℚ) = 2 * p.quarter := by exact_mod_cast Params.half_eq hp
    simp only [traceBits, tracePending, List.nil_append, expandValue, regionOffset, streamValue,
      pow_succ]
    linear_combination -hhalf

theorem traceBits_cons {r : Region} (hr : r ≠ .none) (tr : List Region) (pending : Nat) :
    traceBits (r :: tr) pending =
      traceBits [r] pending ++ traceBits tr (tracePending [r] pending) := by
  cases r with
  | none => exact absurd rfl hr
  | left | right | middle => simp [traceBits, tracePending]

theorem tracePending_cons {r : Region} (hr : r ≠ .none) (tr : List Region) (pending : Nat) :
    tracePending (r :: tr) pending = tracePending tr (tracePending [r] pending) := by
  cases r with
  | none => exact absurd rfl hr
  | left | right | middle => rfl

/-- The encoder's value through a renormalisation (R137). -/
theorem streamValue_regionTrace {p : Params} (hp : p.valid = true) (n low high pending : Nat)
    (bits : List Bool) :
    streamValue p bits (tracePending (regionTrace p n low high) pending) =
      (regionTrace p n low high).foldl (expandValue p)
        (streamValue p (traceBits (regionTrace p n low high) pending ++ bits) pending) := by
  refine regionTrace_induction (p := p)
    (motive := fun _ _ tr => ∀ pending, streamValue p bits (tracePending tr pending) =
      tr.foldl (expandValue p) (streamValue p (traceBits tr pending ++ bits) pending))
    (fun _ _ _ => rfl) ?_ n low high pending
  intro low high r tr _ hne ih pending
  rw [tracePending_cons hne, ih, traceBits_cons hne, List.append_assoc, List.foldl_cons,
    streamValue_region hp hne]

/-- The decoder's value through a renormalisation, one bit consumed in each region (R163). -/
theorem sourceValue_regionTrace (p : Params) (src : List Bool) (n low high pos : Nat) {z : Nat}
    (hz : low ≤ z) :
    sourceValue src (traceZ p src (regionTrace p n low high) z pos)
        (pos + (regionTrace p n low high).length) =
      (regionTrace p n low high).foldl (expandValue p) (sourceValue src z pos) := by
  refine regionTrace_induction (p := p)
    (motive := fun low _ tr => ∀ z pos, low ≤ z →
      sourceValue src (traceZ p src tr z pos) (pos + tr.length) =
        tr.foldl (expandValue p) (sourceValue src z pos))
    (fun _ _ _ _ _ => rfl) ?_ n low high z pos hz
  intro low high r tr hr _ ih z pos hz
  have hoff : regionOffset p r ≤ low := hr ▸ regionOffset_region_le p low high
  have hstep : sourceValue src (2 * (z - regionOffset p r) + sourceBit src pos) (pos + 1) =
      expandValue p (sourceValue src z pos) r := by
    have hbit := two_mul_bitsFraction_drop src pos
    simp only [sourceValue, expandValue]
    push_cast [Nat.cast_sub (hoff.trans hz)]
    linarith
  rw [traceZ, List.length_cons, Nat.add_comm tr.length, ← Nat.add_assoc, List.foldl_cons, ← hstep]
  exact ih _ _ (by unfold expandEnd; omega)

end Sys2Proof.Machine
end

section
/-! What a completed command of the host has done, the sum of the table, and the narrowed intervals:
each inside the old one, no two overlapping, and found by the search (R131 to R133, R162). -/

namespace Sys2Proof

theorem Params.eosSym_lt {p : Params} (hp : p.valid = true) : p.eosSym < p.k := by
  obtain ⟨-, ⟨hk, -⟩, -⟩ := p.valid_iff.1 hp
  unfold Params.eosSym
  omega

/-- The symbols of a session, its data and then `EOS`, are symbols of the alphabet. -/
theorem forall_mem_append_eosSym_lt {p : Params} (hp : p.valid = true) {data : List Nat}
    (hdata : ∀ b ∈ data, b < p.eosSym) : ∀ sym ∈ data ++ [p.eosSym], sym < p.k := by
  have heos := Params.eosSym_lt hp
  rw [List.forall_mem_append, List.forall_mem_singleton]
  exact ⟨fun b hb => (hdata b hb).trans heos, heos⟩

end Sys2Proof

namespace Sys2Proof.Machine

/-! ### The host's commands -/

theorem issue_eq_answer {i : Instr} (h : i.wellFormed = true) (s : State) :
    issue i s = answer (exec i s) := by
  rw [issue, runCommand, decode_encode h]

/-- R200: a faulted engine answers every word and stays as it is. -/
theorem issue_in_fault (i : Instr) {s : State} (hm : s.mode = .fault) :
    issue i s = .next (respond s) := by
  rw [issue, runCommand]
  cases decode (encode i) with
  | instr j => exact congrArg answer (exec_in_fault hm)
  | reservedOpcode op | nonzeroField op field =>
    exact congrArg (fun t => Host.Outcome.next (respond t)) (if_pos hm)

/-- A command that is answered outside `FAULT` has completed its rule. -/
theorem issue_completed {i : Instr} {s t : State} (hi : i.wellFormed = true)
    (h : issue i s = .next t) (ht : t.mode ≠ .fault) :
    ∃ u, ruleOf i s = .go () u ∧ t = respond u := by
  rw [issue_eq_answer hi] at h
  cases hx : exec i s <;> rw [hx] at h <;> cases h
  rcases exec_next_cases hx with ⟨hm, rfl⟩ | ⟨-, c, u, rfl⟩ | ⟨-, -, hgo⟩
  · exact absurd hm ht
  · exact absurd (enterFault_mode c (encode i) u) ht
  · exact ⟨_, hgo, rfl⟩

theorem issue_of_go {i : Instr} {s t : State} (hi : i.wellFormed = true)
    (hl : legalIn i s.mode = true) (hr : operandInRange s.cfg i = true) (h : ruleOf i s = .go () t) :
    issue i s = .next (respond t) := by
  rw [issue_eq_answer hi, exec_eq_finish hl hr, h]
  rfl

theorem issueAll_cons_next {i : Instr} {rest : List Instr} {s t : State}
    (h : issueAll (i :: rest) s = .next t) :
    ∃ u, issue i s = .next u ∧ issueAll rest u = .next t := by
  rw [issueAll] at h
  cases hi : issue i s <;> rw [hi] at h
  case next u => exact ⟨u, rfl, h⟩
  case fault | refused => cases h

theorem issueAll_in_fault {is : List Instr} {s t : State} (hm : s.mode = .fault)
    (h : issueAll is s = .next t) : t.mode = .fault := by
  induction is generalizing s with
  | nil => cases h; exact hm
  | cons i is ih =>
    obtain ⟨u, hu, hrest⟩ := issueAll_cons_next h
    rw [issue_in_fault i hm] at hu
    cases hu
    exact ih (s := respond s) hm hrest

/-- When the last state is outside `FAULT`, the first command has completed its rule. -/
theorem issueAll_cons_completed {i : Instr} {rest : List Instr} {s t : State}
    (hi : i.wellFormed = true) (h : issueAll (i :: rest) s = .next t) (ht : t.mode ≠ .fault) :
    ∃ u, ruleOf i s = .go () u ∧ issueAll rest (respond u) = .next t := by
  obtain ⟨v, hv, hrest⟩ := issueAll_cons_next h
  obtain ⟨u, hu, rfl⟩ := issue_completed hi hv fun hm => ht (issueAll_in_fault hm hrest)
  exact ⟨u, hu, hrest⟩

/-! ### The model's table and the narrowed intervals -/

/-- The table has its `K` entries and `total` is their sum (M2 of R34). -/
def State.TableSummed (s : State) : Prop := s.freq.length = s.cfg.k ∧ s.total = s.freq.sum

theorem canonicalStart_tableSummed (s : State) : (canonicalStart s).TableSummed := by
  simp [State.TableSummed]

theorem update_tableSummed {sym : Nat} {s : State} (h : s.TableSummed) (hs : sym < s.cfg.k) :
    (update sym s).TableSummed := by
  obtain ⟨hlen, hsum⟩ := h
  unfold update
  split
  · refine ⟨by simpa using hlen, ?_⟩
    simpa using (sum_increment (s.freq.map halve) sym (by simpa [hlen] using hs)).symm
  · refine ⟨by simpa using hlen, ?_⟩
    simpa [hsum] using (sum_increment s.freq sym (by rwa [hlen])).symm

theorem rnd_mono (w T : Nat) {c d : Nat} (h : c ≤ d) : rnd w c T ≤ rnd w d T :=
  Nat.div_le_div_right (Nat.add_le_add_right (Nat.mul_le_mul_left _ h) _)

/-- R131 (e): no cut of the interval lies beyond its width. -/
theorem rnd_le_width (w : Nat) {c T : Nat} (h : c ≤ T) : rnd w c T ≤ w := by
  rcases Nat.eq_zero_or_pos T with rfl | hT
  · simp [rnd]
  · have hwc : w * c ≤ w * T := Nat.mul_le_mul_left w h
    refine Nat.lt_succ_iff.1 ((Nat.div_lt_iff_lt_mul (by omega)).2 ?_)
    calc 2 * w * c + T < 2 * (w * T) + 2 * T := by rw [mul_assoc]; omega
      _ = (w + 1) * (2 * T) := by ring

/-- The range of a symbol ends before the range of a later one begins (M4 of R34). -/
theorem cumEnd_le_cumBegin (t : FreqTable) {sym other : Nat} (h : sym < other) :
    cumEnd t sym ≤ cumBegin t other := by
  induction t generalizing sym other with
  | nil => simp [cumEnd, cumBegin, readFreq]
  | cons f t ih =>
    obtain ⟨other, rfl⟩ : ∃ o, other = o + 1 := ⟨other - 1, by omega⟩
    cases sym with
    | zero => simp [cumEnd, cumBegin, readFreq]
    | succ sym =>
      have := ih (Nat.lt_of_succ_lt_succ h)
      simp only [cumEnd, cumBegin, readFreq, List.take_succ_cons, List.sum_cons,
        List.getD_cons_succ] at this ⊢
      omega

/-- The narrowed intervals of two symbols do not overlap (R133). -/
theorem narrowSym_disjoint (s : State) {sym other : Nat} (h : sym < other) :
    (narrowSym s sym).2 ≤ (narrowSym s other).1 :=
  Nat.add_le_add_left (rnd_mono _ _ (cumEnd_le_cumBegin s.freq h)) _

/-- R162: the search returns the symbol whose narrowed interval contains `z`. -/
theorem findSymbol_eq_some {s : State} {sym : Nat} (hs : sym < s.cfg.k)
    (hz : (narrowSym s sym).1 ≤ s.z ∧ s.z < (narrowSym s sym).2) : findSymbol s = some sym := by
  have honly : ∀ other, symMatches s other = (other == sym) := by
    intro other
    rw [Bool.eq_iff_iff]
    simp only [symMatches, Bool.and_eq_true, decide_eq_true_eq, beq_iff_eq]
    constructor
    · rintro ⟨hlo, hhi⟩
      rcases Nat.lt_trichotomy other sym with h | h | h
      · have := narrowSym_disjoint s h; omega
      · exact h
      · have := narrowSym_disjoint s h; omega
    · rintro rfl
      exact hz
  rw [findSymbol_eq_some_iff, funext honly, List.filter_beq,
    List.count_eq_one_of_mem List.nodup_range (List.mem_range.2 hs), List.replicate_one]

end Sys2Proof.Machine
end

section
/-! The round trip of R169. A completed `ENCODE` is a chain of completed `ESYM` ended by an `EFLUSH`; its
bits point into every interval of the chain; a decoder in lockstep with the encoder (R168) finds the
symbol whose narrowed interval they point into. -/

namespace Sys2Proof.Machine

/-! ### The encoder's session -/

/-- The regions the interval of a symbol passes through (R137, R163). -/
def symbolTrace (s : State) (sym : Nat) : List Region :=
  regionTrace s.cfg s.cfg.precision (narrowSym s sym).1 (narrowSym s sym).2

/-- What a completed `ESYM` has done (R141). -/
theorem encodeSymbol_eq_go {sym : Nat} {s t : State} (h : encodeSymbol sym s = .go () t) :
    (symbolTrace s sym).length < s.cfg.precision ∧
    t.pending.toNat = tracePending (symbolTrace s sym) s.pending.toNat ∧
    t = { s with
      low := (symbolTrace s sym).foldl (expandEnd s.cfg) (narrowSym s sym).1
      high := (symbolTrace s sym).foldl (expandEnd s.cfg) (narrowSym s sym).2
      pending := t.pending
      out := s.out ++ (traceBits (symbolTrace s sym) s.pending.toNat).map .bit
      ioOps := t.ioOps
      freq := (update sym s).freq, total := (update sym s).total, result := 0 } := by
  rcases encodeSymbol_cases sym s with ⟨-, he⟩ | ⟨-, hlen, -, hpend, -, he⟩ |
    ⟨-, _, _, -, -, -, -, -, he, -⟩ | ⟨-, _, _, -, -, -, -, he, -⟩ | ⟨-, -, he⟩ <;>
    rw [he] at h <;> cases h
  exact ⟨hlen, by rw [BitVec.toNat_ofNat]; exact Nat.mod_eq_of_lt hpend, rfl⟩

theorem encodeSymbol_cfg {sym : Nat} {s t : State} (h : encodeSymbol sym s = .go () t) :
    t.cfg = s.cfg := by
  obtain ⟨-, -, hstate⟩ := encodeSymbol_eq_go h
  rw [hstate]

/-- The bits `EFLUSH` sends (R142). -/
def flushBits (s : State) : List Bool :=
  decide (s.cfg.quarter < s.low) ::
    List.replicate (s.pending.toNat + 1) (!decide (s.cfg.quarter < s.low))

theorem terminateStream_out {s t : State} (h : terminateStream s = .go () t) :
    t.out = s.out ++ (flushBits s).map .bit ++ [.flush] := by
  rcases terminateStream_cases s with ⟨-, he⟩ | ⟨-, -, he⟩ | ⟨-, _, _, -, -, -, he, -⟩ <;>
    rw [he] at h <;> cases h
  rfl

/-- The commands an encoder still has to take: an `ESYM` for each symbol, then `EFLUSH`. All of them
complete, and `bits` are the bits they send. -/
inductive CompletedSession : State → List Nat → List Bool → Prop
  | flush {s t : State} : terminateStream s = .go () t → CompletedSession s [] (flushBits s)
  | symbol {s t : State} {sym : Nat} {syms : List Nat} {bits : List Bool} :
      encodeSymbol sym s = .go () t → CompletedSession (respond t) syms bits →
      CompletedSession s (sym :: syms) (traceBits (symbolTrace s sym) s.pending.toNat ++ bits)

/-- An `ENCODE` that ends in `DONE` is a completed session, and `OUT` has its bits and the `Flush`
(R144). -/
theorem issueAll_completedSession {syms : List Nat} {s t : State}
    (hsyms : ∀ sym ∈ syms, sym < 4096)
    (h : issueAll (syms.map .esym ++ [.eflush]) s = .next t) (ht : t.mode = .done) :
    ∃ bits, t.out = s.out ++ bits.map .bit ++ [.flush] ∧ CompletedSession s syms bits := by
  have hrunning : t.mode ≠ .fault := by simp [ht]
  induction syms generalizing s with
  | nil =>
    obtain ⟨u, hu, hrest⟩ := issueAll_cons_completed rfl h hrunning
    cases hrest
    exact ⟨flushBits s, (respond_out u).trans (terminateStream_out hu), .flush hu⟩
  | cons sym syms ih =>
    rw [List.forall_mem_cons] at hsyms
    obtain ⟨hsym, hsyms⟩ := hsyms
    have hwf : (Instr.esym sym).wellFormed = true := wellFormed_of_fieldOf_lt hsym
    obtain ⟨u, hu, hrest⟩ := issueAll_cons_completed hwf h hrunning
    obtain ⟨bits, hout, hsession⟩ := ih hsyms hrest
    refine ⟨_, ?_, .symbol hu hsession⟩
    obtain ⟨-, -, hstate⟩ := encodeSymbol_eq_go hu
    rw [hout, respond_out, hstate]
    simp

/-! ### The emitted bits point into the interval -/

/-- What holds of an encoder between its commands and is needed of it here: the parameters, the table,
and the region in which every renormalisation ends (R139). -/
structure State.EncoderReady (s : State) : Prop where
  valid : s.cfg.valid = true
  table : s.TableSummed
  region_none : region s.cfg s.low s.high = .none

/-- The interval contains what the bits point to. -/
def PointsInto (low high : Nat) (v : ℚ) : Prop :=
  (low : ℚ) ≤ v ∧ v < high

theorem encodeSymbol_ready {sym : Nat} {s t : State} (hs : s.EncoderReady) (hsym : sym < s.cfg.k)
    (h : encodeSymbol sym s = .go () t) : (respond t).EncoderReady := by
  obtain ⟨hp, htable, -⟩ := hs
  obtain ⟨hlen, -, hstate⟩ := encodeSymbol_eq_go h
  obtain ⟨hfreq, htotal⟩ := update_tableSummed htable hsym
  rw [update_cfg] at hfreq
  rw [hstate]
  exact ⟨hp, ⟨hfreq, htotal⟩, region_foldl_expandEnd _ _ _ _ hlen⟩

theorem region_eq_none_iff (p : Params) (low high : Nat) :
    region p low high = .none ↔
      p.half ≤ high ∧ low ≤ p.half ∧ (low ≤ p.quarter ∨ p.threeQuarter ≤ high) := by
  unfold region
  split_ifs <;> simp <;> omega

/-- The bits of `EFLUSH` point to `QUARTER` or to `HALF`, whichever the interval contains (R142). -/
theorem streamValue_flushBits {s : State} (hp : s.cfg.valid = true) :
    streamValue s.cfg (flushBits s) s.pending.toNat =
      if s.cfg.quarter < s.low then (s.cfg.half : ℚ) else s.cfg.quarter := by
  have hhalf : (s.cfg.half : ℚ) = s.cfg.quarter * 2 := by
    exact_mod_cast (Params.half_eq hp).trans (Nat.mul_comm _ _)
  rw [flushBits, List.replicate_succ', ← List.cons_append, streamValue_emit hp]
  by_cases h : s.cfg.quarter < s.low
  · simp [h, bitsFraction]
  · simp [h, bitsFraction, hhalf]

theorem flushBits_pointsInto {s : State} (hs : s.EncoderReady) :
    PointsInto s.low s.high (streamValue s.cfg (flushBits s) s.pending.toNat) := by
  obtain ⟨hp, -, hregion⟩ := hs
  obtain ⟨hhigh, hlow, hwide⟩ := (region_eq_none_iff _ _ _).1 hregion
  have hhalf := Params.half_eq hp
  have hquarter := s.cfg.quarter_pos
  rw [streamValue_flushBits hp]
  unfold Params.threeQuarter at hwide
  split_ifs with hq
  · have hlt : s.cfg.half < s.high := by omega
    exact ⟨by exact_mod_cast hlow, by exact_mod_cast hlt⟩
  · have hlt : s.cfg.quarter < s.high := by omega
    exact ⟨by exact_mod_cast not_lt.1 hq, by exact_mod_cast hlt⟩

/-- The ends of a trace and a value are mapped alike, so the value lies in the interval behind the trace
exactly when it lies in the one before it. -/
theorem pointsInto_foldl_iff (p : Params) (n : Nat) {low high : Nat} (h : low ≤ high) (v : ℚ) :
    PointsInto ((regionTrace p n low high).foldl (expandEnd p) low)
        ((regionTrace p n low high).foldl (expandEnd p) high)
        ((regionTrace p n low high).foldl (expandValue p) v) ↔
      PointsInto low high v := by
  rw [PointsInto, cast_foldl_expandEnd p n low high le_rfl, cast_foldl_expandEnd p n low high h,
    foldl_expandValue_le_iff, foldl_expandValue_lt_iff]
  rfl

theorem narrowSym_le (s : State) (sym : Nat) : (narrowSym s sym).1 ≤ (narrowSym s sym).2 :=
  Nat.add_le_add_left (rnd_mono _ _ (cumBegin_le_cumEnd _ _)) _

/-- R133: a narrowed interval lies inside the old one. -/
theorem narrowSym_subset {s : State} {sym : Nat} (hs : s.EncoderReady) (hsym : sym < s.cfg.k) :
    s.low ≤ (narrowSym s sym).1 ∧ (narrowSym s sym).2 ≤ s.high := by
  obtain ⟨-, ⟨hlen, hsum⟩, hregion⟩ := hs
  obtain ⟨hhigh, hlow, -⟩ := (region_eq_none_iff _ _ _).1 hregion
  have hcum : cumEnd s.freq sym ≤ s.total := hsum ▸ cumEnd_le_sum s.freq sym (by rwa [hlen])
  have hcut := rnd_le_width (s.high - s.low) hcum
  refine ⟨Nat.le_add_right _ _, ?_⟩
  have : s.low + rnd (s.high - s.low) (cumEnd s.freq sym) s.total ≤ s.high := by omega
  exact this

/-- The encoder's value moves with the interval of the symbol it encodes (R137, R141). -/
theorem streamValue_encodeSymbol {sym : Nat} {s t : State} (hs : s.EncoderReady)
    (h : encodeSymbol sym s = .go () t) (bits : List Bool) :
    streamValue t.cfg bits t.pending.toNat =
      (symbolTrace s sym).foldl (expandValue s.cfg)
        (streamValue s.cfg (traceBits (symbolTrace s sym) s.pending.toNat ++ bits)
          s.pending.toNat) := by
  obtain ⟨-, hpend, -⟩ := encodeSymbol_eq_go h
  rw [encodeSymbol_cfg h, hpend]
  exact streamValue_regionTrace hs.valid _ _ _ _ _

/-- What points into the interval after an `ESYM` points, with the bits of the `ESYM` in front, into the
symbol's narrowed interval before it. -/
theorem pointsInto_narrowSym {sym : Nat} {s t : State} {bits : List Bool} (hs : s.EncoderReady)
    (h : encodeSymbol sym s = .go () t)
    (ht : PointsInto t.low t.high (streamValue t.cfg bits t.pending.toNat)) :
    PointsInto (narrowSym s sym).1 (narrowSym s sym).2
      (streamValue s.cfg (traceBits (symbolTrace s sym) s.pending.toNat ++ bits)
        s.pending.toNat) := by
  rw [streamValue_encodeSymbol hs h] at ht
  obtain ⟨-, -, hstate⟩ := encodeSymbol_eq_go h
  rw [hstate] at ht
  exact (pointsInto_foldl_iff _ _ (narrowSym_le s sym) _).1 ht

theorem PointsInto.mono {a b low high : Nat} {v : ℚ} (h : PointsInto a b v) (ha : low ≤ a)
    (hb : b ≤ high) : PointsInto low high v := by
  obtain ⟨hlo, hhi⟩ := h
  have ha' : (low : ℚ) ≤ a := by exact_mod_cast ha
  have hb' : (b : ℚ) ≤ high := by exact_mod_cast hb
  exact ⟨ha'.trans hlo, hhi.trans_le hb'⟩

/-- At every command of a completed session the bits still to come point into the current interval. -/
theorem CompletedSession.pointsInto {s : State} {syms : List Nat} {bits : List Bool}
    (h : CompletedSession s syms bits) (hs : s.EncoderReady) (hsyms : ∀ sym ∈ syms, sym < s.cfg.k) :
    PointsInto s.low s.high (streamValue s.cfg bits s.pending.toNat) := by
  induction h with
  | flush _ => exact flushBits_pointsInto hs
  | @symbol s t sym syms bits hgo _ ih =>
    rw [List.forall_mem_cons] at hsyms
    obtain ⟨hsym, hsyms⟩ := hsyms
    have hcfg : t.cfg = s.cfg := encodeSymbol_cfg hgo
    have ht := ih (encodeSymbol_ready hs hsym hgo) (by rwa [respond_cfg, hcfg])
    obtain ⟨hlow, hhigh⟩ := narrowSym_subset hs hsym
    exact (pointsInto_narrowSym hs hgo ht).mono hlow hhigh

/-! ### The decoder in lockstep -/

/-- A decoder that agrees with the encoder on the parameters, the interval and the model (R168), and
whose `z` and source point where the encoder's remaining bits do. -/
structure Lockstep (e d : State) (bits : List Bool) : Prop where
  cfg : d.cfg = e.cfg
  low : d.low = e.low
  high : d.high = e.high
  freq : d.freq = e.freq
  total : d.total = e.total
  mode : d.mode = .dec
  eos : d.eos = false
  io : d.IoNeverFails
  value : sourceValue d.source d.z d.rpos = streamValue e.cfg bits e.pending.toNat

/-- A stop needs an operation that fails (R65). -/
theorem DecStops.not_of_ioNeverFails {n : Nat} {s : State} {x : Flow Unit} (h : DecStops n s x) :
    ¬ s.IoNeverFails := by
  obtain ⟨t, -, hlt, -, hmem, -⟩ := h
  intro hio
  have := hio _ hmem
  omega

/-- The decoder's value depends on the bits ahead alone, not on where past the end `rpos` stops (R57). -/
theorem sourceValue_readAhead (s : State) (z n : Nat) :
    sourceValue s.source z (s.readAhead n).rpos = sourceValue s.source z (s.rpos + n) := by
  rcases Nat.lt_or_ge (s.rpos + n) s.source.length with h | h
  · rw [show (s.readAhead n).rpos = s.rpos + n by simp only [State.readAhead]; omega]
  · have hr : s.source.length ≤ (s.readAhead n).rpos := by simp only [State.readAhead]; omega
    rw [sourceValue, sourceValue, List.drop_eq_nil_of_le hr, List.drop_eq_nil_of_le h]

theorem readAhead_ioNeverFails {s : State} (h : s.IoNeverFails) (n : Nat) :
    (s.readAhead n).IoNeverFails := by
  intro j hj
  have hlt : j < s.ioOps := h j hj
  simp only [State.readAhead]
  omega

theorem Lockstep.narrowSym_eq {e d : State} {bits : List Bool} (h : Lockstep e d bits) (sym : Nat) :
    narrowSym d sym = narrowSym e sym := by
  simp only [narrowSym, h.low, h.high, h.freq, h.total]

theorem Lockstep.symbolTrace_eq {e d : State} {bits : List Bool} (h : Lockstep e d bits) (sym : Nat) :
    symbolTrace d sym = symbolTrace e sym := by
  simp only [symbolTrace, h.narrowSym_eq, h.cfg]

/-- In lockstep `z` lies in the narrowed interval the bits point into. -/
theorem Lockstep.z_mem {e d : State} {bits : List Bool} (h : Lockstep e d bits) {sym : Nat}
    (hv : PointsInto (narrowSym e sym).1 (narrowSym e sym).2
      (streamValue e.cfg bits e.pending.toNat)) :
    (narrowSym d sym).1 ≤ d.z ∧ d.z < (narrowSym d sym).2 := by
  rw [h.narrowSym_eq]
  rw [← h.value] at hv
  exact (sourceValue_mem_iff _ _ _ _ _).1 hv

/-- A `DSYM` that finds a data symbol completes when no source operation fails and the loop's bound
suffices (R166). -/
theorem decodeSymbol_eq_go {s : State} {sym : Nat} (hfind : findSymbol s = some sym)
    (hne : sym ≠ s.cfg.eosSym) (hlen : (symbolTrace s sym).length < s.cfg.precision)
    (hio : s.IoNeverFails) :
    decodeSymbol s = .go () { afterDecoding (symbolTrace s sym) { s with
      low := (narrowSym s sym).1, high := (narrowSym s sym).2
      freq := (update sym s).freq, total := (update sym s).total } with result := zext32 sym } := by
  rcases decodeSymbol_cases s with ⟨hf, -⟩ | ⟨hf, -⟩ |
    ⟨found, hf, -, ⟨-, -, he⟩ | hstop | ⟨hstuck, -⟩⟩ <;>
    rw [hfind] at hf <;> cases hf
  · exact absurd rfl hne
  · exact he
  · exact absurd hio hstop.not_of_ioNeverFails
  · exact absurd hstuck hlen.ne

/-- A `DSYM` that finds `EOS` ends the stream (R166). -/
theorem decodeSymbol_eos {s : State} (hfind : findSymbol s = some s.cfg.eosSym) :
    decodeSymbol s = .go () { s with
      eos := true, mode := .done, result := zext32 s.cfg.eosSym } := by
  rcases decodeSymbol_cases s with ⟨hf, -⟩ | ⟨-, he⟩ | ⟨found, hf, hne, -⟩
  · rw [hfind] at hf; cases hf
  · exact he
  · rw [hfind] at hf; cases hf; exact absurd rfl hne

/-- One data symbol of the round trip: the decoder returns the symbol the encoder encoded, and the two
are in lockstep again (R168). -/
theorem Lockstep.decodeSymbol_go {e e' d : State} {bits : List Bool} {sym : Nat}
    (he : e.EncoderReady) (hgo : encodeSymbol sym e = .go () e')
    (h : Lockstep e d (traceBits (symbolTrace e sym) e.pending.toNat ++ bits))
    (hv : PointsInto e'.low e'.high (streamValue e'.cfg bits e'.pending.toNat))
    (hsym : sym < e.cfg.k) (hne : sym ≠ e.cfg.eosSym) :
    ∃ d', decodeSymbol d = .go () d' ∧ d'.result = zext32 sym ∧
      Lockstep (respond e') (respond d') bits := by
  have hz := h.z_mem (pointsInto_narrowSym he hgo hv)
  have hfind : findSymbol d = some sym := findSymbol_eq_some (h.cfg ▸ hsym) hz
  obtain ⟨hlen, -, hstate⟩ := encodeSymbol_eq_go hgo
  have hdec := decodeSymbol_eq_go hfind (by rwa [h.cfg]) (by rwa [h.symbolTrace_eq, h.cfg]) h.io
  refine ⟨_, hdec, rfl, ?_⟩
  obtain ⟨hfreq, htotal⟩ := update_congr sym h.cfg h.freq h.total
  have hvalue := streamValue_encodeSymbol he hgo bits
  rw [← h.value, ← h.symbolTrace_eq, ← h.cfg, symbolTrace,
    ← sourceValue_regionTrace _ _ _ _ _ _ hz.1, ← sourceValue_readAhead] at hvalue
  rw [hstate]
  constructor
  case cfg => exact h.cfg
  case low => simp only [respond_low, afterDecoding, h.symbolTrace_eq, h.cfg, h.narrowSym_eq]
  case high => simp only [respond_high, afterDecoding, h.symbolTrace_eq, h.cfg, h.narrowSym_eq]
  case freq => exact hfreq
  case total => exact htotal
  case mode => exact h.mode
  case eos => exact h.eos
  case io => exact readAhead_ioNeverFails h.io _
  case value => rw [hstate] at hvalue; exact hvalue.symm

/-! ### The decode loop -/

theorem issue_dsym {d d' : State} (hm : d.mode = .dec) (h : decodeSymbol d = .go () d') :
    issue .dsym d = .next (respond d') :=
  issue_of_go (i := .dsym) rfl (decide_eq_true hm) rfl h

theorem decodeLoop_data {d d' : State} (hm : d.mode = .dec) (h : decodeSymbol d = .go () d')
    (hm' : d'.mode = .dec) (heos : d'.eos = false) (fuel : Nat) (output : List Nat) :
    decodeLoop (fuel + 1) output d = decodeLoop fuel (output ++ [d'.result.toNat]) (respond d') := by
  rw [decodeLoop, issue_dsym hm h]
  simp [hm', heos]

theorem decodeLoop_eos {d d' : State} (hm : d.mode = .dec) (h : decodeSymbol d = .go () d')
    (hm' : d'.mode = .done) (heos : d'.eos = true) (fuel : Nat) (output : List Nat) :
    decodeLoop (fuel + 1) output d = .finished output (respond d') := by
  rw [decodeLoop, issue_dsym hm h]
  simp [hm', heos]

/-- A decoder in lockstep with a completed session returns its data symbols and ends at `EOS`. -/
theorem decodeLoop_of_lockstep {data : List Nat} {e d : State} {bits : List Bool}
    (hsession : CompletedSession e (data ++ [e.cfg.eosSym]) bits) (he : e.EncoderReady)
    (hdata : ∀ b ∈ data, b < e.cfg.eosSym) (h : Lockstep e d bits) (output : List Nat) :
    ∃ u, decodeLoop (data.length + 1) output d = .finished (output ++ data) u ∧
      u.mode = .done ∧ u.eos = true := by
  have hp := he.valid
  have hsyms := forall_mem_append_eosSym_lt hp hdata
  induction data generalizing e d bits output with
  | nil =>
    cases hsession with
    | @symbol _ e' _ _ bits hgo hrest =>
      have heos := Params.eosSym_lt hp
      have hv := hrest.pointsInto (encodeSymbol_ready he heos hgo) (by simp)
      have hz := h.z_mem (pointsInto_narrowSym he hgo hv)
      have hfind : findSymbol d = some d.cfg.eosSym := by
        rw [h.cfg]
        exact findSymbol_eq_some (h.cfg ▸ heos) hz
      rw [List.append_nil]
      exact ⟨_, decodeLoop_eos h.mode (decodeSymbol_eos hfind) rfl rfl 0 output, rfl, rfl⟩
  | cons sym data ih =>
    rw [List.forall_mem_cons] at hdata
    rw [List.cons_append, List.forall_mem_cons] at hsyms
    obtain ⟨hne, hdata⟩ := hdata
    obtain ⟨hsym, hsyms⟩ := hsyms
    cases hsession with
    | @symbol _ e' _ _ bits hgo hrest =>
      have hcfg : (respond e').cfg = e.cfg := encodeSymbol_cfg (t := e') hgo
      have he' := encodeSymbol_ready he hsym hgo
      have hv := hrest.pointsInto he' (by rwa [hcfg])
      obtain ⟨d', hd, hresult, h'⟩ := h.decodeSymbol_go he hgo hv hsym hne.ne
      have hvalue : d'.result.toNat = sym := by
        obtain ⟨-, ⟨-, hk⟩, -⟩ := (Params.valid_iff _).1 hp
        rw [hresult, zext32_toNat (by omega)]
      rw [List.length_cons, decodeLoop_data h.mode hd h'.mode h'.eos, hvalue,
        ← List.singleton_append (l := data), ← List.append_assoc]
      rw [← hcfg] at hrest hdata hsyms hp
      exact ih hrest he' hdata h' _ hp hsyms

/-! ### The two sessions from their first commands -/

/-- A completed `EINIT` (R140). -/
def einitState (s : State) : State :=
  { canonicalStart s with mode := .enc, eos := false, result := 0 }

/-- A completed `DINIT` (R165). -/
def dinitState (s : State) : State :=
  { (canonicalStart s).readAhead s.cfg.precision with
    z := bitsValue s.source s.rpos s.cfg.precision
    mode := .dec, eos := false, result := 0 }

theorem einitState_ready {s : State} (hp : s.cfg.valid = true) :
    (respond (einitState s)).EncoderReady := by
  refine ⟨hp, canonicalStart_tableSummed s, (region_eq_none_iff _ _ _).2 ⟨?_, Nat.zero_le _, ?_⟩⟩
  · exact Params.half_le_whole hp
  · exact .inl (Nat.zero_le _)

/-- The two sessions start in lockstep when the decoder has the session's bits ahead. -/
theorem lockstep_start {s d : State} {bits : List Bool} (hcfg : d.cfg = s.cfg)
    (hio : d.IoNeverFails) (hsource : d.source.drop d.rpos = bits) :
    Lockstep (respond (einitState s)) (respond (dinitState d)) bits := by
  have hvalue : sourceValue d.source (bitsValue d.source d.rpos d.cfg.precision)
      ((canonicalStart d).readAhead d.cfg.precision).rpos = streamValue s.cfg bits 0 := by
    calc sourceValue d.source _ ((canonicalStart d).readAhead d.cfg.precision).rpos
        = sourceValue d.source _ (d.rpos + d.cfg.precision) :=
          sourceValue_readAhead (canonicalStart d) _ _
      _ = 2 ^ d.cfg.precision * bitsFraction (d.source.drop d.rpos) :=
          bitsValue_add_bitsFraction_drop _ _ _
      _ = streamValue s.cfg bits 0 := by
          rw [streamValue_zero, hsource, hcfg, Params.whole]
          push_cast
          rfl
  constructor
  case cfg => exact hcfg
  case low => rfl
  case high => exact congrArg Params.whole hcfg
  case freq => exact congrArg (fun p : Params => List.replicate p.k 1) hcfg
  case total => exact congrArg Params.k hcfg
  case mode => rfl
  case eos => rfl
  case io => exact readAhead_ioNeverFails (s := canonicalStart d) hio _
  case value => exact hvalue

theorem issue_dinit {d : State} (hm : d.mode ≠ .fault) (hio : d.IoNeverFails) :
    issue .dinit d = .next (respond (dinitState d)) := by
  refine issue_of_go (i := .dinit) rfl ((Mode.running_iff _).2 hm) rfl ?_
  rcases ruleOf_dinit_cases d with ⟨-, he⟩ | hstop
  · exact he
  · exact absurd hio hstop.not_of_ioNeverFails

theorem runDecode_eq {d : State} (hm : d.mode ≠ .fault) (hio : d.IoNeverFails) (fuel : Nat) :
    runDecode fuel d = decodeLoop fuel [] (respond (dinitState d)) := by
  rw [runDecode, issue_dinit hm hio]
  exact if_neg nofun

/-- The commands of `ENCODE` after `EINIT`, as one `ESYM` per symbol with `EOS` the last (R88). -/
theorem encodeCommands_eq (p : Params) (data : List Nat) :
    encodeCommands p data = .einit :: ((data ++ [p.eosSym]).map .esym ++ [.eflush]) := by
  simp [encodeCommands]

theorem emittedBits_append_flush (bits : List Bool) :
    emittedBits (bits.map .bit ++ [.flush]) = bits := by
  simp [emittedBits, List.filterMap_map]

/-- An `ENCODE` that ends in `DONE` is `EINIT` and a completed session that sends the emitted bits. -/
theorem runEncode_completedSession {data : List Nat} {s t : State} (hp : s.cfg.valid = true)
    (hdata : ∀ b ∈ data, b < s.cfg.eosSym) (h : runEncode data s = .next t) (ht : t.mode = .done) :
    CompletedSession (respond (einitState s)) (data ++ [s.cfg.eosSym])
      (emittedBits (t.out.drop s.out.length)) := by
  rw [runEncode, encodeCommands_eq] at h
  obtain ⟨u, hu, hrest⟩ := issueAll_cons_completed rfl h (by simp [ht])
  cases hu
  obtain ⟨-, ⟨-, hk⟩, -⟩ := (Params.valid_iff _).1 hp
  have hsyms : ∀ sym ∈ data ++ [s.cfg.eosSym], sym < 4096 := fun sym hsym =>
    (forall_mem_append_eosSym_lt hp hdata sym hsym).trans_le hk
  obtain ⟨bits, hout, hsession⟩ := issueAll_completedSession hsyms hrest ht
  have hbits : emittedBits (t.out.drop s.out.length) = bits := by
    rw [hout, List.append_assoc]
    exact (congrArg emittedBits List.drop_left).trans (emittedBits_append_flush bits)
  rwa [hbits]

/-- Settles O54: `ENCODE` is a completed session, `DINIT` puts the decoder in lockstep with it, and the
decode loop follows it to `EOS`. -/
theorem decodeReturnsWhatWasEncoded : Obligations.DecodeReturnsWhatWasEncoded := by
  unfold Obligations.DecodeReturnsWhatWasEncoded
  intro data s t d hs hm hdata hrun ht _ hdm hcfg hio hsource
  have hp := hs.valid hm
  have hsession := runEncode_completedSession hp hdata hrun ht
  obtain ⟨u, hloop, hdone, heos⟩ := decodeLoop_of_lockstep hsession (einitState_ready hp) hdata
    (lockstep_start hcfg hio hsource) []
  exact ⟨u, (runDecode_eq hdm hio _).trans hloop, hdone, heos⟩

end Sys2Proof.Machine
end

section
/-! The faults before a command's own rule (R191, R196) and the discard of `FAULT` (R200): where the
matrix of R203 has no `Y`, the causes a rule itself can raise, and what a command word does in `FAULT`. -/

namespace Sys2Proof.Machine

/-! ### Out of sequence -/

/-- The matrix of R203 outside `FAULT`: only `MUPD`, `ESYM`, `EFLUSH` and `DSYM` are tied to a mode. -/
theorem legalIn_eq_false_iff {i : Instr} {m : Mode} (hm : m ≠ .fault) :
    legalIn i m = false ↔
      ((∃ sym, i = .mupd sym) ∧ m ≠ .idle) ∨
      (((∃ sym, i = .esym sym) ∨ i = .eflush) ∧ m ≠ .enc) ∨
      (i = .dsym ∧ m ≠ .dec) := by
  cases i with
  | minit | mcumb _ | mcume _ | mtotal | einit | dinit => simp [legalIn, (Mode.running_iff m).2 hm]
  | mupd _ | esym _ | eflush | dsym => simp [legalIn]

/-- A rule itself raises an imprecise fault, or `INVARIANT` before it changes anything (R194, R202). -/
theorem ruleOf_raised {i : Instr} {s t : State} {c : Cause} (h : ruleOf i s = .raised c t) :
    c.imprecise = true ∨ (c = .invariant ∧ t = s) := by
  cases i with
  | minit | mcumb _ | mcume _ | mtotal | mupd _ | einit => cases h
  | esym sym =>
    rcases encodeSymbol_cases sym s with ⟨-, he⟩ | ⟨-, -, -, -, -, he⟩ |
      ⟨-, _, _, -, -, -, -, -, he, -⟩ | ⟨-, _, _, -, -, -, -, he, -⟩ | ⟨-, -, he⟩ <;>
      cases he.symm.trans h
    · exact .inr ⟨rfl, rfl⟩
    · exact .inl rfl
    · exact .inl rfl
  | eflush =>
    rcases terminateStream_cases s with ⟨-, he⟩ | ⟨-, -, he⟩ | ⟨-, _, _, -, -, -, he, -⟩ <;>
      cases he.symm.trans h
    · exact .inl rfl
    · exact .inl rfl
  | dinit =>
    rcases ruleOf_dinit_cases s with ⟨-, he⟩ | ⟨_, he, -⟩ <;> cases he.symm.trans h
    exact .inl rfl
  | dsym =>
    rcases decodeSymbol_cases s with ⟨-, he⟩ | ⟨-, he⟩ |
      ⟨_, -, -, ⟨-, -, he⟩ | ⟨_, he, -⟩ | ⟨-, he⟩⟩ <;> cases he.symm.trans h
    · exact .inr ⟨rfl, rfl⟩
    · exact .inl rfl

/-- A command the matrix allows does not end in `SEQUENCE`: a completed rule stays outside `FAULT`, and
neither the range check nor a rule raises that cause. -/
theorem exec_legal_not_sequence {i : Instr} {s t : State} (hm : s.mode ≠ .fault)
    (hl : legalIn i s.mode = true) (h : exec i s = .next t) :
    ¬ (t.mode = .fault ∧ t.cause = .sequence) := by
  rintro ⟨hfault, hcause⟩
  cases hr : operandInRange s.cfg i with
  | false =>
    rw [exec_out_of_range hl hr] at h
    cases h
    cases hcause
  | true =>
    rw [exec_eq_finish hl hr] at h
    cases hx : ruleOf i s <;> rw [hx] at h <;> cases h
    · obtain ⟨hrunning, -⟩ := ruleOf_go hm hx
      exact hrunning hfault
    · obtain rfl := hcause
      rcases ruleOf_raised hx with himp | ⟨hinv, -⟩
      · cases himp
      · cases hinv

/-- Settles O39: the listed cases are those the matrix of R203 excludes, and a command it allows does not
end in `SEQUENCE`. -/
theorem commandsOutOfSequenceFault : Obligations.CommandsOutOfSequenceFault := by
  unfold Obligations.CommandsOutOfSequenceFault
  intro i s hm outOfSequence
  have hiff : legalIn i s.mode = false ↔ outOfSequence := legalIn_eq_false_iff hm
  refine ⟨fun hout => exec_out_of_sequence hm (hiff.2 hout), fun hin t => ?_⟩
  exact exec_legal_not_sequence hm (Bool.of_not_eq_false (mt hiff.1 hin))

/-! ### Out of range -/

/-- Settles O40: the sequence check passes and the range check does not. -/
theorem symbolOutOfRangeRaisesModelRange : Obligations.SymbolOutOfRangeRaisesModelRange := by
  unfold Obligations.SymbolOutOfRangeRaisesModelRange
  intro i sym s hk hm hcmd
  have hrange : decide (sym < s.cfg.k) = false := decide_eq_false hk.not_gt
  have hrunning := (Mode.running_iff s.mode).2 hm
  rcases hcmd with rfl | rfl | ⟨rfl, hidle⟩ | ⟨rfl, henc⟩
  · exact exec_out_of_range hrunning hrange
  · exact exec_out_of_range hrunning hrange
  · exact exec_out_of_range (decide_eq_true hidle) hrange
  · exact exec_out_of_range (decide_eq_true henc) hrange

/-! ### The discard of `FAULT` -/

/-- R200: the response repeats `STATUS` and `RESULT`, whether or not the word is a command. -/
theorem runCommand_in_fault (w : CmdWord) {s : State} (hm : s.mode = .fault) :
    runCommand w s = .next (respond s) := by
  by_cases h : ∃ i, decode w = .instr i
  · obtain ⟨i, hi⟩ := h
    rw [runCommand, hi]
    exact congrArg answer (exec_in_fault hm)
  · rw [runCommand_of_no_command (not_exists.1 h), illegalCommand, if_pos hm]

theorem step_command_in_fault {s : State} {w : CmdWord} {rest : List Input} (hm : s.mode = .fault)
    (h : s.inputs = .command w :: rest) :
    step s = .next { s with inputs := rest, responses := s.responses ++ [responseWord s] } := by
  rw [step_command h]
  exact runCommand_in_fault w hm

/-- Settles O41: a command word is discarded; of the other inputs only the two resets touch `MODE`. -/
theorem faultModeDiscardsEveryCommand : Obligations.FaultModeDiscardsEveryCommand := by
  unfold Obligations.FaultModeDiscardsEveryCommand
  refine ⟨fun s w rest => step_command_in_fault, fun s t hm h ht => ?_⟩
  cases hin : s.inputs with
  | nil =>
    rw [step, hin] at h
    cases h
    exact absurd hm ht
  | cons e rest =>
    cases e with
    | command w =>
      rw [step_command_in_fault hm hin] at h
      cases h
      exact absurd hm ht
    | reset => exact ⟨rest, .inl rfl⟩
    | resetDuring w ops => exact ⟨rest, .inr ⟨w, ops, rfl⟩⟩
    | placeSource bits =>
      rw [step, hin] at h
      cases h
      exact absurd hm ht

end Sys2Proof.Machine
end

section
/-! Reset between two commands (R220 to R222): the state it leaves for a valid parameter set, the fault
an invalid one comes up in, and the environment, which neither touches. -/

namespace Sys2Proof.Machine

theorem step_reset {s : State} {rest : List Input} (h : s.inputs = .reset :: rest) :
    step s = .next (resetEngine { s with inputs := rest }) := by
  rw [step, h]
  rfl

/-! ### What reset establishes -/

theorem resetEngine_of_valid {s : State} (hp : s.cfg.valid = true) :
    resetEngine s =
      { canonicalStart s with mode := .idle, eos := false, cause := .none, result := 0 } :=
  if_pos hp

theorem resetEngine_of_invalid {s : State} (hp : s.cfg.valid = false) :
    resetEngine s =
      { unspecify s with mode := .fault, eos := false, cause := .modelConfig, result := 0 } :=
  if_neg (ne_true_of_eq_false hp)

/-- R222: whatever the engine held before, an invalid parameter set fixes `STATUS` and `RESULT`. -/
theorem resetEngine_status_of_invalid {s : State} (hp : s.cfg.valid = false) :
    (resetEngine s).mode = .fault ∧ (resetEngine s).cause = .modelConfig ∧
      (resetEngine s).eos = false ∧ (resetEngine s).result = 0 := by
  rw [resetEngine_of_invalid hp]
  exact ⟨rfl, rfl, rfl, rfl⟩

/-- R220: reset keeps the parameters and everything outside the engine. -/
theorem resetEngine_frame (s : State) :
    (resetEngine s).cfg = s.cfg ∧ (resetEngine s).inputs = s.inputs ∧
      (resetEngine s).responses = s.responses ∧ (resetEngine s).out = s.out ∧
      (resetEngine s).source = s.source ∧ (resetEngine s).rpos = s.rpos := by
  cases hp : s.cfg.valid with
  | true => rw [resetEngine_of_valid hp]; exact ⟨rfl, rfl, rfl, rfl, rfl, rfl⟩
  | false => rw [resetEngine_of_invalid hp]; exact ⟨rfl, rfl, rfl, rfl, rfl, rfl⟩

/-! ### The obligations -/

/-- Settles O8: reset takes its valid branch, and `MINIT` writes values the reset state already holds. -/
theorem resetEstablishesTheResetState : Obligations.ResetEstablishesTheResetState := by
  unfold Obligations.ResetEstablishesTheResetState
  intro s rest hin hp t
  have hreset : resetEngine { s with inputs := rest } = t := resetEngine_of_valid hp
  obtain ⟨hminit, -, -⟩ := minitConstructsTheModel
  have hstatus : statusWord t = 0x00 := by
    change Cause.none.code ++ BitVec.ofBool false ++ Mode.idle.code = 0x00
    rfl
  exact ⟨hreset ▸ step_reset hin, hstatus, hminit t nofun⟩

/-- Settles O9: reset takes its invalid branch, leaves `FAULT` as the mode, in which every word is
discarded, and keeps the parameters, so that the next reset takes the same branch. -/
theorem invalidParametersComeUpInFault : Obligations.InvalidParametersComeUpInFault := by
  unfold Obligations.InvalidParametersComeUpInFault
  refine ⟨fun s rest hin hp => ?_, by decide, by decide, by decide, by decide⟩
  obtain ⟨hmode, hcause, heos, hresult⟩ :=
    resetEngine_status_of_invalid (s := { s with inputs := rest }) hp
  obtain ⟨hcfg, hinputs, hresponses, hout, hsource, hrpos⟩ :=
    resetEngine_frame { s with inputs := rest }
  have hstatus : statusWord (resetEngine { s with inputs := rest }) = 0x24 := by
    rw [statusWord, hmode, hcause, heos]
    rfl
  have hinvalid : (resetEngine { s with inputs := rest }).cfg.valid = false := by rw [hcfg, hp]
  exact ⟨_, step_reset hin, hmode, hcause, heos, hresult, hstatus, hcfg, hinputs, hresponses, hout,
    hsource, hrpos, fun w => runCommand_in_fault w hmode, _, rfl,
    resetEngine_status_of_invalid hinvalid⟩

end Sys2Proof.Machine
end

section
/-! The decoder and the encoder are inverse to each other (R80 to R82); a step on a command word is the
execution of its command and one response (R66, R85). -/

namespace Sys2Proof

/-- Settles O2: both fields of the word are read back. -/
theorem encodedCommandDecodesToItself : Obligations.EncodedCommandDecodesToItself := by
  unfold Obligations.EncodedCommandDecodesToItself
  exact fun _ => decode_encode

/-- Settles O3: the fields of the word are those of the command, so the operand fits, and two words with
the same fields are equal. -/
theorem decodedWordIsTheEncodingOfItsCommand : Obligations.DecodedWordIsTheEncodingOfItsCommand := by
  unfold Obligations.DecodedWordIsTheEncodingOfItsCommand
  intro w i h
  obtain ⟨hop, hfield⟩ := (decode_eq_instr_iff w i).1 h
  have hwf : i.wellFormed = true := wellFormed_of_fieldOf_lt (hfield ▸ symField_lt w)
  refine ⟨hwf, (eq_iff_fields _ _).2 ⟨?_, ?_⟩⟩
  · rw [opField_encode i hwf, hop]
  · rw [symField_encode i hwf, hfield]

/-- Settles O1: the decoder is evaluated on each word. -/
theorem specWordsDecodeToTheirCommands : Obligations.SpecWordsDecodeToTheirCommands := by
  unfold Obligations.SpecWordsDecodeToTheirCommands
  decide

end Sys2Proof

namespace Sys2Proof.Machine

/-- Settles O55: the assembler is evaluated on each line. -/
theorem assemblerSpellsTheExamples : Obligations.AssemblerSpellsTheExamples := by
  unfold Obligations.AssemblerSpellsTheExamples
  decide

/-! ### A step on a command word -/

theorem exec_ne_refused (i : Instr) (s : State) (r : Refusal) : exec i s ≠ .refused r := by
  rcases exec_cases i s with ⟨-, he⟩ | ⟨-, -, he⟩ | ⟨-, -, -, he⟩ | ⟨-, -, -, he⟩ <;> rw [he]
  · nofun
  · nofun
  · nofun
  · cases ruleOf i s <;> nofun

theorem runCommand_of_decode {w : CmdWord} {i : Instr} (h : decode w = .instr i) (s : State) :
    runCommand w s = answer (exec i s) := by
  rw [runCommand, h]

theorem withFetchWord_eq (s : State) (w : CmdWord) :
    s.withFetchWord 16 w.toNat = { s with inputs := .command w :: s.inputs } := by
  have hword : tableWord 16 w.toNat = w := by
    rw [tableWord, Nat.mod_eq_of_lt w.isLt, BitVec.ofNat_toNat, BitVec.setWidth_eq]
  rw [State.withFetchWord, hword]

/-- Settles O6: the step takes the word, the decoder gives the command, and the answer appends the
response. -/
theorem stepRunsTheDecodedCommand : Obligations.StepRunsTheDecodedCommand := by
  unfold Obligations.StepRunsTheDecodedCommand
  refine ⟨fun s w rest i hin hd => ?_, withFetchWord_eq⟩
  have hstep : step s = answer (exec i { s with inputs := rest }) := by
    rw [step_command hin, runCommand_of_decode hd]
  refine ⟨fun t h => ?_, fun r h => ?_, exec_ne_refused i _⟩
  · rw [hstep, h]
    rfl
  · rw [hstep, h]
    rfl

end Sys2Proof.Machine
end

section
/-! Where an execution can end, and what a rule has written when it completes or raises a fault: one
inversion lemma for each command with pseudocode of its own, and from them what no rule writes. -/

namespace Sys2Proof.Machine

/-- Every next state of an execution, with the checks that were passed on the way (R86). -/
theorem exec_ends {i : Instr} {s t : State} (h : exec i s = .next t) :
    (s.mode = .fault ∧ t = s) ∨
    (s.mode ≠ .fault ∧ ∃ c, (c = .sequence ∨ c = .modelRange) ∧
      t = { s with mode := .fault, cause := c, result := (encode i).setWidth 32 }) ∨
    (legalIn i s.mode = true ∧ operandInRange s.cfg i = true ∧
      ∃ c u, ruleOf i s = .raised c u ∧ t = enterFault c (encode i) u) ∨
    (legalIn i s.mode = true ∧ operandInRange s.cfg i = true ∧ ruleOf i s = .go () t) := by
  rcases exec_cases i s with ⟨hm, he⟩ | ⟨hm, -, he⟩ | ⟨hm, -, -, he⟩ | ⟨-, hl, hr, he⟩ <;> rw [he] at h
  · cases h
    exact .inl ⟨hm, rfl⟩
  · cases h
    exact .inr (.inl ⟨hm, _, .inl rfl, rfl⟩)
  · cases h
    exact .inr (.inl ⟨hm, _, .inr rfl, rfl⟩)
  · cases hx : ruleOf i s <;> rw [hx] at h <;> cases h
    · exact .inr (.inr (.inr ⟨hl, hr, rfl⟩))
    · exact .inr (.inr (.inl ⟨hl, hr, _, _, rfl, rfl⟩))

/-! ### What a completed rule has written -/

/-- What a completed `EFLUSH` has done (R142). -/
theorem terminateStream_eq_go {s t : State} (h : terminateStream s = .go () t) :
    t = { s with
      out := s.out ++ (flushBits s).map .bit ++ [.flush]
      pending := 0, mode := .done, result := 0
      ioOps := s.ioOps + s.pending.toNat + 3 } := by
  rcases terminateStream_cases s with ⟨-, he⟩ | ⟨-, -, he⟩ | ⟨-, _, _, -, -, -, he, -⟩ <;>
    rw [he] at h <;> cases h
  rfl

/-- What a completed `DINIT` has done (R165). -/
theorem ruleOf_dinit_eq_go {s t : State} (h : ruleOf .dinit s = .go () t) : t = dinitState s := by
  rcases ruleOf_dinit_cases s with ⟨-, he⟩ | ⟨_, he, -⟩ <;> rw [he] at h <;> cases h
  rfl

/-- A completed `DSYM` that found a data symbol (R166). -/
def dsymState (s : State) (sym : Nat) : State :=
  { afterDecoding (symbolTrace s sym) { s with
      low := (narrowSym s sym).1, high := (narrowSym s sym).2
      freq := (update sym s).freq, total := (update sym s).total } with
    result := zext32 sym }

/-- What a completed `DSYM` has done: ended the stream, or decoded a data symbol (R166). -/
theorem decodeSymbol_completed {s t : State} (h : decodeSymbol s = .go () t) :
    (findSymbol s = some s.cfg.eosSym ∧
      t = { s with eos := true, mode := .done, result := zext32 s.cfg.eosSym }) ∨
    ∃ sym, findSymbol s = some sym ∧ sym ≠ s.cfg.eosSym ∧
      (symbolTrace s sym).length < s.cfg.precision ∧ t = dsymState s sym := by
  rcases decodeSymbol_cases s with ⟨-, he⟩ | ⟨hf, he⟩ |
    ⟨sym, hf, hne, ⟨hlen, -, he⟩ | ⟨_, he, -⟩ | ⟨-, he⟩⟩ <;> rw [he] at h <;> cases h
  · exact .inl ⟨hf, rfl⟩
  · exact .inr ⟨sym, hf, hne, hlen, rfl⟩

/-! ### What a rule that raises a fault has written -/

/-- `t` differs from `s` in registers, in bits sent, in `rpos` and in the operation counter only. -/
def State.Interrupted (s t : State) : Prop :=
  ∃ sent : List Bool, t = { s with
    freq := t.freq, total := t.total, low := t.low, high := t.high, pending := t.pending, z := t.z
    out := s.out ++ sent.map .bit, rpos := t.rpos, ioOps := t.ioOps }

theorem State.Interrupted.refl (s : State) : s.Interrupted s := ⟨[], by simp⟩

theorem encodeSymbol_interrupted {sym : Nat} {s t : State} {c : Cause}
    (h : encodeSymbol sym s = .raised c t) : s.Interrupted t := by
  rcases encodeSymbol_cases sym s with ⟨-, he⟩ | ⟨-, -, -, -, -, he⟩ |
    ⟨-, sent, u, -, -, -, -, -, he, hu⟩ | ⟨-, sent, u, -, -, -, -, he, hu⟩ | ⟨-, -, he⟩ <;>
    cases he.symm.trans h
  · exact .refl _
  · exact ⟨sent, by rw [hu]⟩
  · exact ⟨sent, by rw [hu]⟩

theorem terminateStream_interrupted {s t : State} {c : Cause}
    (h : terminateStream s = .raised c t) : s.Interrupted t := by
  rcases terminateStream_cases s with ⟨-, he⟩ | ⟨-, -, he⟩ | ⟨-, sent, u, -, -, -, he, hu⟩ <;>
    cases he.symm.trans h
  · exact .refl _
  · exact ⟨sent, by rw [hu]⟩

/-- Where the source stops a rule, whatever registers it had written before. -/
theorem DecStops.interrupted {n : Nat} {s t : State} {c : Cause} (f : FreqTable)
    (total low high z : Nat) (pending : BitVec 32) (h : DecStops n { s with
      freq := f, total := total, low := low, high := high, z := z, pending := pending }
      (.raised c t)) : s.Interrupted t := by
  obtain ⟨u, hx, -, -, -, -, -, hu⟩ := h
  cases hx
  exact ⟨[], by rw [hu]; simp⟩

theorem decodeSymbol_interrupted {s t : State} {c : Cause}
    (h : decodeSymbol s = .raised c t) : s.Interrupted t := by
  rcases decodeSymbol_cases s with ⟨-, he⟩ | ⟨-, he⟩ |
    ⟨sym, -, -, ⟨-, -, he⟩ | hstop | ⟨-, he⟩⟩
  · cases he.symm.trans h
    exact .refl _
  · cases he.symm.trans h
  · cases he.symm.trans h
  · rw [h] at hstop
    exact hstop.interrupted _ _ _ _ _ _
  · cases he.symm.trans h

theorem ruleOf_interrupted {i : Instr} {s t : State} {c : Cause} (h : ruleOf i s = .raised c t) :
    s.Interrupted t := by
  cases i with
  | minit | mcumb _ | mcume _ | mtotal | mupd _ | einit => cases h
  | esym sym => exact encodeSymbol_interrupted h
  | eflush => exact terminateStream_interrupted h
  | dinit =>
    rcases ruleOf_dinit_cases s with ⟨-, he⟩ | hstop
    · cases he.symm.trans h
    · rw [h] at hstop
      exact hstop.interrupted _ _ _ _ _ _
  | dsym => exact decodeSymbol_interrupted h

/-! ### What no command writes -/

/-- `t` has the parameters, the channels, the source's contents and the environment's failures of `s`. -/
structure State.SameFixed (s t : State) : Prop where
  cfg : t.cfg = s.cfg
  inputs : t.inputs = s.inputs
  responses : t.responses = s.responses
  source : t.source = s.source
  ioFail : t.ioFail = s.ioFail

theorem State.Interrupted.sameFixed {s t : State} (h : s.Interrupted t) : s.SameFixed t := by
  obtain ⟨sent, ht⟩ := h
  rw [ht]
  exact ⟨rfl, rfl, rfl, rfl, rfl⟩

theorem enterFault_sameFixed (c : Cause) (w : CmdWord) {s t : State} (h : s.SameFixed t) :
    s.SameFixed (enterFault c w t) :=
  ⟨by simp [h.cfg], by simp [h.inputs], by simp [h.responses], by simp [h.source], by simp [h.ioFail]⟩

/-- A completed rule also keeps `CAUSE` and the model's own counter. -/
theorem ruleOf_go_frame {i : Instr} {s t : State} (h : ruleOf i s = .go () t) :
    s.SameFixed t ∧ t.cause = s.cause ∧ t.draws = s.draws := by
  cases i with
  | minit | mcumb _ | mcume _ | mtotal | einit =>
    cases h
    exact ⟨⟨rfl, rfl, rfl, rfl, rfl⟩, rfl, rfl⟩
  | mupd sym =>
    cases h
    rw [update_eq]
    exact ⟨⟨rfl, rfl, rfl, rfl, rfl⟩, rfl, rfl⟩
  | esym sym =>
    obtain ⟨-, -, ht⟩ := encodeSymbol_eq_go h
    rw [ht]
    exact ⟨⟨rfl, rfl, rfl, rfl, rfl⟩, rfl, rfl⟩
  | eflush =>
    rw [terminateStream_eq_go h]
    exact ⟨⟨rfl, rfl, rfl, rfl, rfl⟩, rfl, rfl⟩
  | dinit =>
    rw [ruleOf_dinit_eq_go h]
    exact ⟨⟨rfl, rfl, rfl, rfl, rfl⟩, rfl, rfl⟩
  | dsym =>
    rcases decodeSymbol_completed h with ⟨-, ht⟩ | ⟨sym, -, -, -, ht⟩ <;> rw [ht] <;>
      exact ⟨⟨rfl, rfl, rfl, rfl, rfl⟩, rfl, rfl⟩

theorem exec_sameFixed {i : Instr} {s t : State} (h : exec i s = .next t) : s.SameFixed t := by
  rcases exec_ends h with ⟨-, rfl⟩ | ⟨-, c, -, rfl⟩ | ⟨-, -, c, u, hu, rfl⟩ | ⟨-, -, hgo⟩
  · exact ⟨rfl, rfl, rfl, rfl, rfl⟩
  · exact ⟨rfl, rfl, rfl, rfl, rfl⟩
  · exact enterFault_sameFixed c _ (ruleOf_interrupted hu).sameFixed
  · obtain ⟨hfixed, -, -⟩ := ruleOf_go_frame hgo
    exact hfixed

theorem illegalCommand_eq (w : CmdWord) (s : State) :
    illegalCommand w s = { s with
      mode := (illegalCommand w s).mode
      cause := (illegalCommand w s).cause
      result := (illegalCommand w s).result } := by
  by_cases hm : s.mode = .fault
  · rw [illegalCommand, if_pos hm]
  · rw [illegalCommand_of_running w hm]

/-- One response for each command word, whether or not it is a command (R66, R85). -/
theorem runCommand_next {w : CmdWord} {s t : State} (h : runCommand w s = .next t) :
    ∃ u, s.SameFixed u ∧ t = respond u := by
  by_cases hd : ∃ i, decode w = .instr i
  · obtain ⟨i, hi⟩ := hd
    rw [runCommand_of_decode hi] at h
    cases hx : exec i s <;> rw [hx] at h <;> cases h
    exact ⟨_, exec_sameFixed hx, rfl⟩
  · rw [runCommand_of_no_command (not_exists.1 hd)] at h
    cases h
    refine ⟨_, ?_, rfl⟩
    rw [illegalCommand_eq]
    exact ⟨rfl, rfl, rfl, rfl, rfl⟩

theorem resetEngine_ioFail (s : State) : (resetEngine s).ioFail = s.ioFail := by
  cases hp : s.cfg.valid with
  | true => rw [resetEngine_of_valid hp]; rfl
  | false => rw [resetEngine_of_invalid hp]; rfl

/-- What reset inside a command does with the state the cut command ends in (R220). -/
theorem resetInside_next {w : CmdWord} {ops : Nat} {s t : State} (h : resetInside w ops s = .next t) :
    ∃ u, runCommand w { s with ioFail := (s.ioOps + ops) :: s.ioFail } = .next u ∧
      t = resetEngine { u with
        ioFail := s.ioFail, ioOps := min u.ioOps (s.ioOps + ops), responses := s.responses } := by
  unfold resetInside at h
  cases hx : runCommand w { s with ioFail := (s.ioOps + ops) :: s.ioFail } <;> rw [hx] at h <;> cases h
  exact ⟨_, rfl, rfl⟩

/-- No input of the outside changes the parameters or the environment's failures. -/
theorem takeInput_keeps_cfg_ioFail {e : Input} {s t : State} (h : takeInput e s = .next t) :
    t.cfg = s.cfg ∧ t.ioFail = s.ioFail := by
  cases e with
  | command w =>
    obtain ⟨u, hu, rfl⟩ := runCommand_next h
    exact ⟨hu.cfg, hu.ioFail⟩
  | reset =>
    cases h
    obtain ⟨hcfg, -⟩ := resetEngine_frame s
    exact ⟨hcfg, resetEngine_ioFail s⟩
  | resetDuring w ops =>
    obtain ⟨u, hu, rfl⟩ := resetInside_next h
    obtain ⟨v, hv, rfl⟩ := runCommand_next hu
    obtain ⟨hcfg, -⟩ := resetEngine_frame { respond v with
      ioFail := s.ioFail, ioOps := min v.ioOps (s.ioOps + ops), responses := s.responses }
    exact ⟨hcfg.trans hv.cfg, resetEngine_ioFail _⟩
  | placeSource bits =>
    cases h
    exact ⟨rfl, rfl⟩

/-! ### The response -/

/-- Where R85 and R28 put `MODE` in the response word. -/
theorem responseWord_mode (s : State) : (responseWord s).extractLsb' 32 3 = s.mode.code := by
  calc (statusWord s ++ s.result).extractLsb' 32 3
      = (statusWord s).extractLsb' 0 3 := BitVec.extractLsb'_append_eq_of_le (by decide)
    _ = s.mode.code := BitVec.extractLsb'_append_eq_right

/-- Where R85 and R28 put `CAUSE` in the response word. -/
theorem responseWord_cause (s : State) : (responseWord s).extractLsb' 36 4 = s.cause.code := by
  calc (statusWord s ++ s.result).extractLsb' 36 4
      = (s.cause.code ++ BitVec.ofBool s.eos ++ s.mode.code).extractLsb' 4 4 :=
        BitVec.extractLsb'_append_eq_of_le (by decide)
    _ = (s.cause.code ++ BitVec.ofBool s.eos).extractLsb' 1 4 :=
        BitVec.extractLsb'_append_eq_of_le (by decide)
    _ = s.cause.code := BitVec.extractLsb'_append_eq_left

/-- Where R85 and R28 put `EOS` in the response word. -/
theorem responseWord_eos (s : State) : (responseWord s).getLsbD 35 = s.eos := by
  calc (statusWord s ++ s.result).getLsbD 35
      = (s.cause.code ++ BitVec.ofBool s.eos ++ s.mode.code).getLsbD 3 := BitVec.getLsbD_append
    _ = (s.cause.code ++ BitVec.ofBool s.eos).getLsbD 0 := BitVec.getLsbD_append
    _ = (BitVec.ofBool s.eos).getLsbD 0 := BitVec.getLsbD_append
    _ = s.eos := by cases s.eos <;> rfl

/-! ### The obligations -/

/-- What a step can do: nothing when no input waits, else take the oldest one. -/
theorem step_next {s t : State} (h : step s = .next t) :
    t = s ∨ ∃ e rest, s.inputs = e :: rest ∧ takeInput e { s with inputs := rest } = .next t := by
  unfold step at h
  split at h
  · cases h
    exact .inl rfl
  · next e rest hin => exact .inr ⟨e, rest, hin, h⟩

/-- Settles O49: with no input waiting nothing changes, and no input changes either. -/
theorem parametersNeverChange : Obligations.ParametersNeverChange := by
  unfold Obligations.ParametersNeverChange
  intro s t h
  rcases step_next h with rfl | ⟨e, rest, -, htake⟩
  · exact ⟨rfl, rfl⟩
  · exact takeInput_keeps_cfg_ioFail (s := { s with inputs := rest }) htake

/-- Settles O7: the step is the command and its one response, and the fields of the response word stand
where R85 and R28 put them. -/
theorem responseHoldsStatusAndResultAfterTheCommand :
    Obligations.ResponseHoldsStatusAndResultAfterTheCommand := by
  unfold Obligations.ResponseHoldsStatusAndResultAfterTheCommand
  refine ⟨fun s t w rest hin h => ?_, fun s => ⟨?_, ?_, ?_, responseWord_eos s, ?_⟩⟩
  · rw [step_command hin] at h
    obtain ⟨u, hu, rfl⟩ := runCommand_next h
    rw [respond_responses, hu.responses]
    rfl
  · exact BitVec.extractLsb'_append_eq_right
  · exact BitVec.extractLsb'_append_eq_left
  · rw [responseWord_mode]
    cases s.mode <;> rfl
  · rw [responseWord_cause]
    cases s.cause <;> rfl

end Sys2Proof.Machine
end

section
/-! The model's table (M1 to M5 of R34, R106, R107), rounding (R131), the narrowed intervals (R133, R162)
and the regions of a renormalisation (R135, R139). -/

namespace Sys2Proof

/-- `MAX_TOTAL <= QUARTER` (V4 of R12) leaves room in `CNT_W = P - 1` bits. -/
theorem Params.maxTotal_lt_two_pow_cntW {p : Params} (hp : p.valid = true) :
    p.maxTotal < 2 ^ p.cntW := by
  obtain ⟨-, -, -, hle⟩ := p.valid_iff.1 hp
  have hhalf : 2 ^ p.cntW = 2 * p.quarter := Params.half_eq hp
  have := p.quarter_pos
  omega

end Sys2Proof

namespace Sys2Proof.Machine

/-! ### The model's table -/

/-- M1 to M3 bound every entry and `total` by `MAX_TOTAL`, so they fit their width (R107). -/
theorem State.ModelInv.fits {s : State} (hi : s.ModelInv) (hp : s.cfg.valid = true) :
    Memory.wf s.cfg s.freq = true ∧ s.total < 2 ^ s.cfg.cntW := by
  obtain ⟨hlen, -, hsum, -, hmax⟩ := hi
  have hlt : s.total < 2 ^ s.cfg.cntW := hmax.trans_lt (Params.maxTotal_lt_two_pow_cntW hp)
  refine ⟨(Memory.wf_iff _ _).2 ⟨hlen, fun f hf => ?_⟩, hlt⟩
  exact (hsum ▸ le_sum_of_mem s.freq f hf).trans_lt hlt

theorem one_le_of_mem_writeFreq {t : FreqTable} (h : ∀ f ∈ t, 1 ≤ f) {sym v : Nat} (hv : 1 ≤ v) :
    ∀ f ∈ writeFreq t sym v, 1 ≤ f := by
  intro f hf
  rcases List.mem_or_eq_of_mem_set hf with hf | rfl
  · exact h f hf
  · exact hv

theorem update_pos {s : State} (h : ∀ f ∈ s.freq, 1 ≤ f) (sym : Nat) :
    ∀ f ∈ (update sym s).freq, 1 ≤ f := by
  unfold update
  split
  · refine one_le_of_mem_writeFreq (fun f hf => ?_) (Nat.le_add_left _ _)
    obtain ⟨g, -, rfl⟩ := List.mem_map.1 hf
    exact one_le_halve g
  · exact one_le_of_mem_writeFreq h (Nat.le_add_left _ _)

/-- R107: a rescale leaves room for the increment, since `K < MAX_TOTAL` (V3 of R12). -/
theorem update_total_le {s : State} (hp : s.cfg.valid = true) (hi : s.ModelInv) (sym : Nat) :
    (update sym s).total ≤ s.cfg.maxTotal := by
  obtain ⟨-, -, hk, -⟩ := s.cfg.valid_iff.1 hp
  obtain ⟨hlen, hpos, hsum, -, hmax⟩ := hi
  rcases Nat.lt_or_ge s.total s.cfg.maxTotal with h | h
  · rw [update_below sym s h]
    exact h
  · have hhalved := two_mul_sum_halve_le s.freq hpos
    rw [update_at_ceiling sym s h]
    change (s.freq.map halve).sum + 1 ≤ s.cfg.maxTotal
    omega

theorem update_modelInv {s : State} (hp : s.cfg.valid = true) (hi : s.ModelInv) {sym : Nat}
    (hs : sym < s.cfg.k) : (update sym s).ModelInv := by
  have hmax := update_total_le hp hi sym
  obtain ⟨hlen, hpos, hsum, -, -⟩ := hi
  obtain ⟨hlen', hsum'⟩ := update_tableSummed ⟨hlen, hsum⟩ hs
  have hpos' := update_pos hpos sym
  refine ⟨hlen', hpos', hsum', ?_, by rwa [update_cfg]⟩
  rw [← hlen', hsum']
  exact length_le_sum _ hpos'

/-- Settles O20: each range holds its entry, which is positive, and the last ends at the sum. -/
theorem cumulativeRangesTileTheTotal : Obligations.CumulativeRangesTileTheTotal := by
  unfold Obligations.CumulativeRangesTileTheTotal
  intro s hi
  refine ⟨rfl, fun sym hs => ?_, fun sym hs => ?_, hi.cumEnd_last_eq_total⟩
  · exact Nat.lt_add_of_pos_right (hi.one_le_readFreq hs)
  · obtain ⟨hlen, -⟩ := hi
    exact cumEnd_eq_take _ _ (by omega)

/-- Settles O21: the updated table meets M1 to M3, and what meets them fits. -/
theorem updateKeepsTheModelInvariant : Obligations.UpdateKeepsTheModelInvariant := by
  unfold Obligations.UpdateKeepsTheModelInvariant
  intro s sym hp hi hs
  have hi' := update_modelInv hp hi hs
  have hfits := hi'.fits (by rwa [update_cfg])
  rw [update_cfg] at hfits
  exact ⟨hi', hfits⟩

/-- R106: a sequence of updates depends on the parameters, the table and `total` alone. -/
theorem foldl_update_congr (syms : List Nat) {s t : State} (hc : s.cfg = t.cfg)
    (hf : s.freq = t.freq) (ht : s.total = t.total) :
    (syms.foldl (fun a sym => update sym a) s).freq = (syms.foldl (fun a sym => update sym a) t).freq ∧
    (syms.foldl (fun a sym => update sym a) s).total =
      (syms.foldl (fun a sym => update sym a) t).total := by
  induction syms generalizing s t with
  | nil => exact ⟨hf, ht⟩
  | cons sym syms ih =>
    obtain ⟨hf', ht'⟩ := update_congr sym hc hf ht
    exact ih (by rw [update_cfg, update_cfg, hc]) hf' ht'

/-- Settles O22: the two sequences end in the same table and the same `total`. -/
theorem modelDependsOnItsUpdatesAlone : Obligations.ModelDependsOnItsUpdatesAlone := by
  unfold Obligations.ModelDependsOnItsUpdatesAlone
  intro syms s t hc hf ht s' t'
  obtain ⟨hfreq, htotal⟩ : s'.freq = t'.freq ∧ s'.total = t'.total := foldl_update_congr syms hc hf ht
  exact ⟨htotal, fun sym => by rw [hfreq]; exact ⟨rfl, rfl⟩⟩

/-! ### Rounding -/

theorem rnd_zero (w : Nat) {T : Nat} (hT : 1 ≤ T) : rnd w 0 T = 0 := by
  rw [rnd, Nat.mul_zero, Nat.zero_add]
  exact Nat.div_eq_of_lt (by omega)

theorem rnd_self (w : Nat) {T : Nat} (hT : 1 ≤ T) : rnd w T T = w := by
  rw [rnd, show 2 * w * T + T = T + 2 * T * w by ring, Nat.add_mul_div_left _ _ (by omega),
    Nat.div_eq_of_lt (by omega), Nat.zero_add]

/-- R131 (d): where the interval is at least `T` wide, a range of `f` units gets at least `f`. -/
theorem rnd_add_le (c f : Nat) {w T : Nat} (hT : 1 ≤ T) (hw : T ≤ w) :
    rnd w c T + f ≤ rnd w (c + f) T := by
  have hstep : 2 * T * f ≤ 2 * w * f := Nat.mul_le_mul_right f (Nat.mul_le_mul_left 2 hw)
  calc rnd w c T + f = (2 * w * c + T + 2 * T * f) / (2 * T) :=
        (Nat.add_mul_div_left _ _ (by omega)).symm
    _ ≤ rnd w (c + f) T := Nat.div_le_div_right (by rw [Nat.mul_add]; omega)

/-- Settles O24, (a) to (e) of R131 in order. -/
theorem roundingProperties : Obligations.RoundingProperties := by
  unfold Obligations.RoundingProperties
  intro w T hT
  exact ⟨rnd_zero w hT, rnd_self w hT, fun c d => rnd_mono w T, fun c f => rnd_add_le c f hT,
    fun c => rnd_le_width w⟩

/-! ### The narrowed intervals -/

theorem running_of_session {m : Mode} (hm : m = .enc ∨ m = .dec) : m ≠ .fault := by
  rcases hm with rfl | rfl <;> nofun

section
variable {s : State} (hi : s.Inv) (hm : s.mode = .enc ∨ s.mode = .dec)
include hi hm

theorem State.Inv.modelInv_in_session : s.ModelInv := by
  have hrun := running_of_session hm
  obtain ⟨-, -, hmodel, -⟩ := hi
  exact hmodel hrun

theorem State.Inv.coderInv : s.CoderInv := by
  obtain ⟨-, -, -, hcoder, -⟩ := hi
  exact hcoder hm

/-- Between commands of a session an encoder or decoder is ready for a symbol (R33, R34). -/
theorem State.Inv.ready : s.EncoderReady := by
  obtain ⟨hlen, -, hsum, -⟩ := hi.modelInv_in_session hm
  obtain ⟨-, -, -, hregion⟩ := hi.coderInv hm
  exact ⟨hi.valid (running_of_session hm), ⟨hlen, hsum⟩, hregion⟩

/-- `total` is positive and not above the width of the interval (R33, R34, V4 of R12). -/
theorem State.Inv.total_le_width : 1 ≤ s.total ∧ s.total ≤ s.high - s.low := by
  obtain ⟨-, ⟨hk, -⟩, -, hmax⟩ := s.cfg.valid_iff.1 (hi.valid (running_of_session hm))
  obtain ⟨-, -, -, hge, hle⟩ := hi.modelInv_in_session hm
  obtain ⟨-, -, hwidth, -⟩ := hi.coderInv hm
  exact ⟨by omega, by omega⟩

/-- R133: a narrowed interval is at least as wide as its symbol's frequency. -/
theorem State.Inv.narrowSym_wide (sym : Nat) :
    (narrowSym s sym).1 + readFreq s.freq sym ≤ (narrowSym s sym).2 := by
  obtain ⟨hpos, hle⟩ := hi.total_le_width hm
  calc s.low + rnd (s.high - s.low) (cumBegin s.freq sym) s.total + readFreq s.freq sym
      = s.low + (rnd (s.high - s.low) (cumBegin s.freq sym) s.total + readFreq s.freq sym) :=
        Nat.add_assoc _ _ _
    _ ≤ s.low + rnd (s.high - s.low) (cumEnd s.freq sym) s.total :=
        Nat.add_le_add_left (rnd_add_le _ _ hpos hle) _

theorem State.Inv.narrowSym_lt {sym : Nat} (hs : sym < s.cfg.k) :
    (narrowSym s sym).1 < (narrowSym s sym).2 := by
  have hwide := hi.narrowSym_wide hm sym
  have hpos := (hi.modelInv_in_session hm).one_le_readFreq hs
  omega

theorem State.Inv.narrowSym_succ {sym : Nat} (hs : sym + 1 < s.cfg.k) :
    (narrowSym s sym).2 = (narrowSym s (sym + 1)).1 := by
  obtain ⟨-, -, hnext, -⟩ := cumulativeRangesTileTheTotal s (hi.modelInv_in_session hm)
  simp only [narrowSym, narrow, hnext sym hs]

theorem State.Inv.narrowSym_zero : (narrowSym s 0).1 = s.low := by
  obtain ⟨hpos, -⟩ := hi.total_le_width hm
  calc s.low + rnd (s.high - s.low) 0 s.total = s.low := by rw [rnd_zero _ hpos, Nat.add_zero]

theorem State.Inv.narrowSym_last : (narrowSym s (s.cfg.k - 1)).2 = s.high := by
  obtain ⟨-, ⟨hk, -⟩, -⟩ := s.cfg.valid_iff.1 (hi.valid (running_of_session hm))
  obtain ⟨-, -, -, hlast⟩ := cumulativeRangesTileTheTotal s (hi.modelInv_in_session hm)
  obtain ⟨hpos, -⟩ := hi.total_le_width hm
  obtain ⟨hlt, -⟩ := hi.coderInv hm
  simp only [narrowSym, narrow, hlast (by omega), rnd_self _ hpos]
  omega

/-- The narrowed intervals of the first `n + 1` symbols cover what lies below the last one's end. -/
theorem State.Inv.exists_narrowSym {z : Nat} (hlow : s.low ≤ z) (n : Nat) (hn : n < s.cfg.k)
    (hz : z < (narrowSym s n).2) :
    ∃ sym, sym < s.cfg.k ∧ (narrowSym s sym).1 ≤ z ∧ z < (narrowSym s sym).2 := by
  induction n with
  | zero => exact ⟨0, hn, hi.narrowSym_zero hm ▸ hlow, hz⟩
  | succ n ih =>
    rcases Nat.lt_or_ge z (narrowSym s (n + 1)).1 with h | h
    · exact ih (by omega) (hi.narrowSym_succ hm hn ▸ h)
    · exact ⟨n + 1, hn, h, hz⟩

end

/-- Settles O25: the cuts are `rnd` of the cumulative ranges, which tile `[0, total)`. -/
theorem narrowingNeverCollapsesAndTiles : Obligations.NarrowingNeverCollapsesAndTiles := by
  unfold Obligations.NarrowingNeverCollapsesAndTiles
  intro s hi hm
  refine ⟨fun sym hs => ?_, fun sym => hi.narrowSym_succ hm, hi.narrowSym_zero hm,
    hi.narrowSym_last hm⟩
  obtain ⟨hlow, hhigh⟩ := narrowSym_subset (hi.ready hm) hs
  exact ⟨hlow, hi.narrowSym_wide hm sym, hi.narrowSym_lt hm hs, hhigh⟩

/-- Settles O34: the narrowed intervals tile the interval, in which `z` lies (R164). -/
theorem decoderFindsExactlyOneSymbol : Obligations.DecoderFindsExactlyOneSymbol := by
  unfold Obligations.DecoderFindsExactlyOneSymbol
  intro s hi hm
  have hsession : s.mode = .enc ∨ s.mode = .dec := .inr hm
  obtain ⟨-, ⟨hk, -⟩, -⟩ := s.cfg.valid_iff.1 (hi.valid (running_of_session hsession))
  obtain ⟨-, -, -, -, hdec⟩ := id hi
  obtain ⟨hlow, hhigh⟩ := hdec hm
  obtain ⟨sym, hs, hz⟩ := hi.exists_narrowSym hsession hlow (s.cfg.k - 1) (by omega)
    (hi.narrowSym_last hsession ▸ hhigh)
  have hfind := findSymbol_eq_some hs hz
  refine ⟨sym, hfind, hs, hz.1, hz.2, fun other ho hlo hhi => ?_⟩
  have hother := findSymbol_eq_some ho ⟨hlo, hhi⟩
  exact Option.some.inj (hother.symm.trans hfind)

/-! ### Regions -/

section
variable {p : Params} {low high : Nat} (hp : p.valid = true)
include hp

/-- R135: outside region `NONE` the interval is narrower than `HALF`. -/
theorem width_lt_half (hlt : low < high) (hwhole : high ≤ p.whole)
    (hr : region p low high ≠ .none) : high - low < p.half := by
  have hhalf := Params.half_eq hp
  have hw := Params.whole_eq hp
  rw [Ne, region_eq_none_iff, Params.threeQuarter] at hr
  omega

theorem quarter_le_width (hr : region p low high = .none) : p.quarter ≤ high - low := by
  have hhalf := Params.half_eq hp
  rw [region_eq_none_iff, Params.threeQuarter] at hr
  omega

/-- R137: a region's step doubles the width and keeps the interval below `WHOLE`. -/
theorem expandEnd_region {r : Region} (hr : region p low high = r) (hne : r ≠ .none)
    (hlt : low < high) (hwhole : high ≤ p.whole) :
    expandEnd p low r < expandEnd p high r ∧ expandEnd p high r ≤ p.whole ∧
      expandEnd p high r - expandEnd p low r = 2 * (high - low) := by
  have hoff : regionOffset p r ≤ low := hr ▸ regionOffset_region_le p low high
  have hhalf := Params.half_eq hp
  have hw := Params.whole_eq hp
  have hhigh : 2 * (high - regionOffset p r) ≤ p.whole := by
    unfold region Params.threeQuarter at hr
    split_ifs at hr <;> subst hr
    · change 2 * (high - 0) ≤ p.whole
      omega
    · change 2 * (high - p.half) ≤ p.whole
      omega
    · change 2 * (high - p.quarter) ≤ p.whole
      omega
    · exact absurd rfl hne
  unfold expandEnd
  exact ⟨by omega, hhigh, by omega⟩

/-- The trace of an interval has at most `m` regions, keeps its upper end below `WHOLE` and doubles its
width in each (R139). -/
structure TraceWithin (p : Params) (low high : Nat) (tr : List Region) (m : Nat) : Prop where
  length_le : tr.length ≤ m
  high_le : tr.foldl (expandEnd p) high ≤ p.whole
  width_eq : tr.foldl (expandEnd p) high - tr.foldl (expandEnd p) low = 2 ^ tr.length * (high - low)

/-- R139: an interval that `m` doublings take to `HALF` passes through at most `m` regions. -/
theorem regionTrace_within (n : Nat) {m : Nat} (hlt : low < high) (hwhole : high ≤ p.whole)
    (hm : p.half ≤ 2 ^ m * (high - low)) : TraceWithin p low high (regionTrace p n low high) m := by
  refine regionTrace_induction (p := p)
    (motive := fun low high tr => ∀ m, low < high → high ≤ p.whole →
      p.half ≤ 2 ^ m * (high - low) → TraceWithin p low high tr m)
    ?_ ?_ n low high m hlt hwhole hm
  · intro low high m _ hwhole _
    exact ⟨Nat.zero_le m, hwhole, by simp⟩
  · intro low high r tr hr hne ih m hlt hwhole hm
    have hwidth := width_lt_half hp hlt hwhole (hr ▸ hne)
    obtain ⟨hlt', hwhole', hdouble⟩ := expandEnd_region hp hr hne hlt hwhole
    cases m with
    | zero => omega
    | succ m =>
      rw [Nat.pow_succ, Nat.mul_assoc, ← hdouble] at hm
      obtain ⟨hlen, hend, hgrow⟩ := ih m hlt' hwhole' hm
      refine ⟨Nat.succ_le_succ hlen, hend, ?_⟩
      rw [List.foldl_cons, List.foldl_cons, hgrow, hdouble, List.length_cons, Nat.pow_succ,
        Nat.mul_assoc]

end

/-- Settles O26: `NONE` by its three bounds, `MIDDLE` by comparing the doubled ends with `HALF`. -/
theorem regionFacts : Obligations.RegionFacts := by
  unfold Obligations.RegionFacts
  intro p low high hp hlt hwhole
  have hhalf := Params.half_eq hp
  refine ⟨width_lt_half hp hlt hwhole, fun hr => ?_, fun hr => ?_⟩
  · obtain ⟨hhigh, hlow, hwide⟩ := (region_eq_none_iff _ _ _).1 hr
    exact ⟨hhigh, hlow, hwide, quarter_le_width hp hr⟩
  · unfold region at hr ⊢
    split_ifs at hr with h1 h2 h3
    rw [if_neg (by omega), if_neg (by omega)]
    split_ifs <;> simp

/-- Settles O27: with `P - 1` doublings any interval reaches `HALF = 2^(P-1)`, so the trace ends before
its fuel, in region `NONE`. -/
theorem renormalisationEndsWithinItsBound : Obligations.RenormalisationEndsWithinItsBound := by
  unfold Obligations.RenormalisationEndsWithinItsBound
  intro p low high hp hlt hwhole tr low' high'
  obtain ⟨⟨hP, -⟩, -⟩ := p.valid_iff.1 hp
  have hm : p.half ≤ 2 ^ (p.precision - 1) * (high - low) := Nat.le_mul_of_pos_right _ (by omega)
  obtain ⟨hlen, hend, hgrow⟩ := regionTrace_within hp p.precision hlt hwhole hm
  have hnone : region p low' high' = .none := region_foldl_expandEnd _ _ _ _ (by omega)
  obtain ⟨hhigh, hlow, -⟩ := (region_eq_none_iff _ _ _).1 hnone
  exact ⟨hlen, hnone, hlow, hhigh, hend, quarter_le_width hp hnone, hgrow⟩

end Sys2Proof.Machine
end

section
/-! The sink and source operations a command has ahead of it, as data that does not depend on the
environment's failures. Every execution makes all of them, or those up to the first that fails (R53 to
R57, R65). -/

namespace Sys2Proof.Machine

/-! ### Plans -/

/-- The operations a command has ahead of it: how many they are when none fails, the events they append
to `OUT`, one each, and a position past which they do not move `rpos`. -/
structure OpPlan where
  count : Nat
  events : List SinkEvent
  limit : Nat

/-- Operations that append these events. -/
def OpPlan.sending (s : State) (events : List SinkEvent) : OpPlan :=
  { count := events.length, events := events, limit := s.rpos }

/-- The operations of `n` calls of `nextbit()` (R57). -/
def OpPlan.reading (s : State) (n : Nat) : OpPlan :=
  { count := (s.readAhead n).ioOps - s.ioOps, events := [], limit := max s.rpos s.source.length }

/-- The bits of a symbol's regions, up to an overflow of `pending` (R137, R138). -/
def encodeBits (s : State) (sym : Nat) : List Bool :=
  (overflowBits (symbolTrace s sym) s.pending.toNat).getD
    (traceBits (symbolTrace s sym) s.pending.toNat)

/-- The events `ESYM s` has ahead of it: none when the narrowed interval is empty (R141). -/
def encodeEvents (s : State) (sym : Nat) : List SinkEvent :=
  if (narrowSym s sym).2 ≤ (narrowSym s sym).1 then [] else (encodeBits s sym).map .bit

/-- The events `EFLUSH` has ahead of it (R142). -/
def flushEvents (s : State) : List SinkEvent :=
  if s.pending.toNat = 2 ^ 32 - 1 then [] else (flushBits s).map .bit ++ [.flush]

/-- How many bits `DSYM` consumes: one in each region of a data symbol's interval (R163, R166). -/
def decodeReads (s : State) : Nat :=
  match findSymbol s with
  | .none => 0
  | some sym => if sym = s.cfg.eosSym then 0 else (symbolTrace s sym).length

/-- The operations the rule of a command has ahead of it. -/
def planOf : Instr → State → OpPlan
  | .esym sym, s => .sending s (encodeEvents s sym)
  | .eflush, s => .sending s (flushEvents s)
  | .dinit, s => .reading s s.cfg.precision
  | .dsym, s => .reading s (decodeReads s)
  | .minit, s | .mcumb _, s | .mcume _, s | .mtotal, s | .mupd _, s | .einit, s => .sending s []

/-- `t` is `s` after `n` operations of the plan have succeeded, and one more, if there is one, has
failed. -/
structure OpPlan.StopsAfter (p : OpPlan) (s t : State) (n : Nat) : Prop where
  le : n ≤ p.count
  before : ∀ j < n, s.ioOps + j ∉ s.ioFail
  fails : n < p.count → s.ioOps + n ∈ s.ioFail
  ioOps : t.ioOps = s.ioOps + min (n + 1) p.count
  out : t.out = s.out ++ p.events.take n
  rpos : t.rpos = min p.limit (s.rpos + n / 2)

/-- Wherever the pseudocode ends, it has made the plan's operations or stopped at the first that fails. -/
def OpPlan.Follows (p : OpPlan) (s : State) (x : Flow Unit) : Prop :=
  match x with
  | .go _ t => ∃ n, p.StopsAfter s t n
  | .raised _ t => ∃ n, p.StopsAfter s t n
  | .stuck _ => True

/-! ### Ends of a plan -/

/-- All of the events are sent. -/
theorem OpPlan.sending_all {s t : State} {events : List SinkEvent}
    (hok : ∀ j < events.length, s.ioOps + j ∉ s.ioFail) (hout : t.out = s.out ++ events)
    (hrpos : t.rpos = s.rpos) (hops : t.ioOps = s.ioOps + events.length) :
    ∃ n, (OpPlan.sending s events).StopsAfter s t n :=
  ⟨events.length, le_rfl, hok, fun h => absurd h (lt_irrefl _),
    by rw [hops]; simp [OpPlan.sending], by rw [hout]; simp [OpPlan.sending],
    by rw [hrpos]; simp [OpPlan.sending]⟩

/-- Nothing is sent or read. -/
theorem OpPlan.sending_nil {s t : State} (hout : t.out = s.out) (hrpos : t.rpos = s.rpos)
    (hops : t.ioOps = s.ioOps) : ∃ n, (OpPlan.sending s []).StopsAfter s t n :=
  OpPlan.sending_all (by simp) (by simpa using hout) hrpos hops

/-- The events before a failing operation are sent. -/
theorem OpPlan.sending_fails {s t : State} {sent events : List SinkEvent} (hpre : sent <+: events)
    (hlt : sent.length < events.length) (hfail : s.ioOps + sent.length ∈ s.ioFail)
    (hok : ∀ j < sent.length, s.ioOps + j ∉ s.ioFail) (hout : t.out = s.out ++ sent)
    (hrpos : t.rpos = s.rpos) (hops : t.ioOps = s.ioOps + sent.length + 1) :
    ∃ n, (OpPlan.sending s events).StopsAfter s t n := by
  refine ⟨sent.length, hlt.le, hok, fun _ => hfail, ?_, ?_, ?_⟩
  · rw [hops]
    change _ = s.ioOps + min (sent.length + 1) events.length
    omega
  · rw [hout]
    exact congrArg _ (List.prefix_iff_eq_take.1 hpre)
  · rw [hrpos]
    simp [OpPlan.sending]

/-- All of the bits are read. -/
theorem OpPlan.reading_all {s t : State} {n : Nat} (hok : s.ReadsOk n) (hout : t.out = s.out)
    (hrpos : t.rpos = (s.readAhead n).rpos) (hops : t.ioOps = (s.readAhead n).ioOps) :
    ∃ m, (OpPlan.reading s n).StopsAfter s t m := by
  have hcount : (OpPlan.reading s n).count = n + (min s.source.length (s.rpos + n) - s.rpos) := by
    simp only [OpPlan.reading, State.readAhead]
    omega
  simp only [State.readAhead] at hrpos hops
  refine ⟨_, le_rfl, fun j hj => hok _ (Nat.le_add_right _ _) ?_, fun h => absurd h (lt_irrefl _),
    ?_, by simpa [OpPlan.reading] using hout, ?_⟩
  · simp only [State.readAhead]
    omega
  · omega
  · rw [hcount, hrpos]
    change _ = min (max s.rpos s.source.length) _
    omega

/-- A source operation fails (R65), whatever registers the command had written before. -/
theorem DecStops.follows (s : State) {f : FreqTable} {total low high z n : Nat} {pending : BitVec 32}
    {x : Flow Unit} (h : DecStops n { s with
      freq := f, total := total, low := low, high := high, z := z, pending := pending } x) :
    ∃ t, x = .raised .io t ∧ ∃ m, (OpPlan.reading s n).StopsAfter s t m := by
  obtain ⟨t, rfl, hlt, hle, hfail, hok, hrpos, ht⟩ := h
  dsimp only at hlt hfail hok hrpos
  have hlast : s.ioOps + (t.ioOps - s.ioOps - 1) = t.ioOps - 1 := by omega
  have hcount : (OpPlan.reading s n).count = (s.readAhead n).ioOps - s.ioOps := rfl
  change t.ioOps ≤ (s.readAhead n).ioOps at hle
  refine ⟨t, rfl, t.ioOps - s.ioOps - 1, by omega, fun j hj => hok _ (by omega) (by omega),
    fun _ => hlast ▸ hfail, by omega, ?_, ?_⟩
  · rw [ht]
    simp [OpPlan.reading]
  · rw [hrpos]
    change _ = min (max s.rpos s.source.length) _
    omega

/-! ### Every rule follows its plan -/

theorem overflowBits_prefix {tr : List Region} {pending : Nat} {o : List Bool}
    (h : overflowBits tr pending = some o) : o <+: traceBits tr pending := by
  induction tr generalizing pending o with
  | nil => cases h
  | cons r tr ih =>
    cases r with
    | left | right =>
      obtain ⟨o', ho, rfl⟩ := Option.map_eq_some_iff.1 h
      exact (List.prefix_append_right_inj _).2 (ih ho)
    | middle =>
      unfold overflowBits at h
      split at h
      · cases h
        exact List.nil_prefix
      · exact ih h
    | none => exact ih h

theorem encodeBits_prefix (s : State) (sym : Nat) :
    encodeBits s sym <+: traceBits (symbolTrace s sym) s.pending.toNat := by
  unfold encodeBits
  cases ho : overflowBits (symbolTrace s sym) s.pending.toNat with
  | none => exact List.prefix_rfl
  | some o => exact overflowBits_prefix ho

/-- Bits that stop short of the trace's end and of an overflow stop short of the bits ahead. -/
theorem length_lt_encodeBits {s : State} {sym n : Nat}
    (hlen : n < (traceBits (symbolTrace s sym) s.pending.toNat).length)
    (hovf : ∀ o, overflowBits (symbolTrace s sym) s.pending.toNat = some o → n < o.length) :
    n < (encodeBits s sym).length := by
  unfold encodeBits
  cases ho : overflowBits (symbolTrace s sym) s.pending.toNat with
  | none => exact hlen
  | some o => exact hovf o ho

theorem encodeSymbol_follows (sym : Nat) (s : State) :
    (planOf (.esym sym) s).Follows s (encodeSymbol sym s) := by
  change (OpPlan.sending s (encodeEvents s sym)).Follows s (encodeSymbol sym s)
  rcases encodeSymbol_cases sym s with ⟨hempty, he⟩ | ⟨hlt, -, hok, -, ho, he⟩ |
    ⟨hlt, sent, u, hpre, hlen, hovf, hfail, hok, he, hu⟩ |
    ⟨hlt, sent, u, -, ho, -, hok, he, hu⟩ | ⟨-, -, he⟩ <;> rw [he]
  · have hev : encodeEvents s sym = [] := if_pos hempty
    rw [hev]
    exact OpPlan.sending_nil rfl rfl rfl
  · have hev : encodeEvents s sym = (traceBits (symbolTrace s sym) s.pending.toNat).map .bit := by
      rw [encodeEvents, if_neg hlt.not_ge, encodeBits, symbolTrace, ho, Option.getD_none]
    rw [hev]
    exact OpPlan.sending_all (by rwa [List.length_map]) rfl rfl (by rw [List.length_map]; rfl)
  · have hev : encodeEvents s sym = (encodeBits s sym).map .bit := if_neg hlt.not_ge
    have hshort : sent.length < (encodeBits s sym).length := length_lt_encodeBits hlen hovf
    rw [hev]
    refine OpPlan.sending_fails (sent := sent.map .bit) (List.IsPrefix.map _ ?_) ?_ ?_ ?_ ?_ ?_ ?_
    · exact List.prefix_of_prefix_length_le hpre (encodeBits_prefix s sym) hshort.le
    · simpa using hshort
    · simpa using hfail
    · simpa using hok
    · rw [hu]
    · rw [hu]
    · rw [hu, List.length_map]
  · have hev : encodeEvents s sym = sent.map .bit := by
      rw [encodeEvents, if_neg hlt.not_ge, encodeBits, symbolTrace, ho, Option.getD_some]
    rw [hev]
    refine OpPlan.sending_all (by rwa [List.length_map]) ?_ ?_ ?_ <;> rw [hu]
    rw [List.length_map]
  · trivial

theorem terminateStream_follows (s : State) : (planOf .eflush s).Follows s (terminateStream s) := by
  change (OpPlan.sending s (flushEvents s)).Follows s (terminateStream s)
  have hlen : ((flushBits s).map SinkEvent.bit ++ [SinkEvent.flush]).length = s.pending.toNat + 3 := by
    simp [flushBits]
  rcases terminateStream_cases s with ⟨hmax, he⟩ | ⟨hlt, hok, he⟩ |
    ⟨hlt, sent, u, hpre, hfail, hok, he, hu⟩ <;> rw [he]
  · have hev : flushEvents s = [] := if_pos hmax
    rw [hev]
    exact OpPlan.sending_nil rfl rfl rfl
  · have hev : flushEvents s = (flushBits s).map .bit ++ [.flush] := if_neg (by omega)
    rw [hev]
    exact OpPlan.sending_all (by rwa [hlen]) (by rw [← List.append_assoc]; rfl) rfl (by rw [hlen]; rfl)
  · have hev : flushEvents s = (flushBits s).map .bit ++ [.flush] := if_neg (by omega)
    rw [hev]
    have hshort : sent.length ≤ (flushBits s).length := hpre.length_le
    refine OpPlan.sending_fails (sent := sent.map .bit)
      ((hpre.map _).trans (List.prefix_append _ _)) ?_ ?_ ?_ ?_ ?_ ?_
    · simpa using Nat.lt_succ_of_le hshort
    · simpa using hfail
    · simpa using hok
    · rw [hu]
    · rw [hu]
    · rw [hu, List.length_map]

theorem ruleOf_dinit_follows (s : State) : (planOf .dinit s).Follows s (ruleOf .dinit s) := by
  rcases ruleOf_dinit_cases s with ⟨hok, he⟩ | hstop
  · rw [he]
    exact OpPlan.reading_all hok rfl rfl rfl
  · obtain ⟨t, he, hstops⟩ := hstop.follows s
    rw [he]
    exact hstops

theorem decodeSymbol_follows (s : State) : (planOf .dsym s).Follows s (decodeSymbol s) := by
  change (OpPlan.reading s (decodeReads s)).Follows s (decodeSymbol s)
  have hnone : s.ReadsOk 0 ∧ s.readAhead 0 = s := by
    refine ⟨fun j hj hlt => ?_, s.readAhead_zero⟩
    rw [s.readAhead_zero] at hlt
    omega
  obtain ⟨hok, hzero⟩ := hnone
  rcases decodeSymbol_cases s with ⟨hf, he⟩ | ⟨hf, he⟩ | ⟨sym, hf, hne, hend⟩
  · have hreads : decodeReads s = 0 := by rw [decodeReads, hf]
    rw [hreads, he]
    exact OpPlan.reading_all hok rfl (by rw [hzero]) (by rw [hzero])
  · have hreads : decodeReads s = 0 := by
      rw [decodeReads, hf]
      exact if_pos rfl
    rw [hreads, he]
    exact OpPlan.reading_all hok rfl (by rw [hzero]) (by rw [hzero])
  · have hreads : decodeReads s = (symbolTrace s sym).length := by
      rw [decodeReads, hf]
      exact if_neg hne
    rw [hreads]
    rcases hend with ⟨-, hok', he⟩ | hstop | ⟨-, he⟩
    · rw [he]
      exact OpPlan.reading_all hok' rfl rfl rfl
    · obtain ⟨t, he, hstops⟩ := hstop.follows s
      rw [he]
      exact hstops
    · rw [he]
      trivial

theorem ruleOf_follows (i : Instr) (s : State) : (planOf i s).Follows s (ruleOf i s) := by
  cases i with
  | minit | mcumb _ | mcume _ | mtotal | einit => exact OpPlan.sending_nil rfl rfl rfl
  | mupd sym => exact OpPlan.sending_nil (update_out sym s) (update_rpos sym s) (update_ioOps sym s)
  | esym sym => exact encodeSymbol_follows sym s
  | eflush => exact terminateStream_follows s
  | dinit => exact ruleOf_dinit_follows s
  | dsym => exact decodeSymbol_follows s

/-! ### Every execution follows its plan -/

/-- The operations an execution has ahead of it: those of the rule, when the checks of R86 pass. -/
def execPlan (i : Instr) (s : State) : OpPlan :=
  if legalIn i s.mode = true ∧ operandInRange s.cfg i = true then planOf i s else .sending s []

theorem exec_follows {i : Instr} {s t : State} (h : exec i s = .next t) :
    ∃ n, (execPlan i s).StopsAfter s t n := by
  have hfollows := ruleOf_follows i s
  by_cases hpass : legalIn i s.mode = true ∧ operandInRange s.cfg i = true
  · rw [execPlan, if_pos hpass]
    obtain ⟨hl, hr⟩ := hpass
    rw [exec_eq_finish hl hr] at h
    cases hx : ruleOf i s <;> rw [hx] at h hfollows <;> cases h
    · exact hfollows
    · obtain ⟨n, hn⟩ := hfollows
      exact ⟨n, hn.le, hn.before, hn.fails, by rw [enterFault_ioOps, hn.ioOps],
        by rw [enterFault_out, hn.out], by rw [enterFault_rpos, hn.rpos]⟩
  · rw [execPlan, if_neg hpass]
    rcases exec_ends h with ⟨-, rfl⟩ | ⟨-, c, -, rfl⟩ | ⟨hl, hr, -⟩ | ⟨hl, hr, -⟩
    · exact OpPlan.sending_nil rfl rfl rfl
    · exact OpPlan.sending_nil rfl rfl rfl
    · exact absurd ⟨hl, hr⟩ hpass
    · exact absurd ⟨hl, hr⟩ hpass

/-- The operations a command word has ahead of it. -/
def wordPlan (w : CmdWord) (s : State) : OpPlan :=
  match decode w with
  | .instr i => execPlan i s
  | .reservedOpcode _ => .sending s []
  | .nonzeroField _ _ => .sending s []

theorem wordPlan_of_decode {w : CmdWord} {i : Instr} (h : decode w = .instr i) (s : State) :
    wordPlan w s = execPlan i s := by
  rw [wordPlan, h]

theorem wordPlan_of_no_command {w : CmdWord} (h : ∀ i, decode w ≠ .instr i) (s : State) :
    wordPlan w s = .sending s [] := by
  unfold wordPlan
  cases hd : decode w with
  | instr i => exact absurd hd (h i)
  | reservedOpcode op | nonzeroField op field => rfl

theorem runCommand_follows {w : CmdWord} {s t : State} (h : runCommand w s = .next t) :
    ∃ n, (wordPlan w s).StopsAfter s t n := by
  by_cases hd : ∃ i, decode w = .instr i
  · obtain ⟨i, hi⟩ := hd
    rw [runCommand_of_decode hi] at h
    rw [wordPlan_of_decode hi]
    cases hx : exec i s <;> rw [hx] at h <;> cases h
    obtain ⟨n, hn⟩ := exec_follows hx
    exact ⟨n, hn.le, hn.before, hn.fails, hn.ioOps, hn.out, hn.rpos⟩
  · rw [runCommand_of_no_command (not_exists.1 hd)] at h
    rw [wordPlan_of_no_command (not_exists.1 hd)]
    cases h
    rw [illegalCommand_eq]
    exact OpPlan.sending_nil rfl rfl rfl

/-! ### What any plan keeps -/

/-- A plan never moves `rpos` back, and not past the end of the source. -/
theorem execPlan_limit (i : Instr) (s : State) :
    s.rpos ≤ (execPlan i s).limit ∧ (execPlan i s).limit ≤ max s.rpos s.source.length := by
  unfold execPlan
  split
  · cases i <;> simp [planOf, OpPlan.sending, OpPlan.reading]
  · simp [OpPlan.sending]

theorem wordPlan_limit (w : CmdWord) (s : State) :
    s.rpos ≤ (wordPlan w s).limit ∧ (wordPlan w s).limit ≤ max s.rpos s.source.length := by
  by_cases hd : ∃ i, decode w = .instr i
  · obtain ⟨i, hi⟩ := hd
    rw [wordPlan_of_decode hi]
    exact execPlan_limit i s
  · rw [wordPlan_of_no_command (not_exists.1 hd)]
    simp [OpPlan.sending]

/-- Only `ESYM` and `EFLUSH` have events ahead. -/
theorem execPlan_events {i : Instr} (hesym : ∀ sym, i ≠ .esym sym) (heflush : i ≠ .eflush) (s : State) :
    (execPlan i s).events = [] := by
  unfold execPlan
  split
  · cases i with
    | esym sym => exact absurd rfl (hesym sym)
    | eflush => exact absurd rfl heflush
    | minit | mcumb _ | mcume _ | mtotal | mupd _ | einit | dinit | dsym => rfl
  · rfl

/-- Only `DINIT` and `DSYM` have reads ahead. -/
theorem execPlan_limit_eq {i : Instr} (hdinit : i ≠ .dinit) (hdsym : i ≠ .dsym) (s : State) :
    (execPlan i s).limit = s.rpos := by
  unfold execPlan
  split
  · cases i with
    | dinit => exact absurd rfl hdinit
    | dsym => exact absurd rfl hdsym
    | minit | mcumb _ | mcume _ | mtotal | mupd _ | einit | esym _ | eflush => rfl
  · rfl

/-- Settles O47: an execution appends events of its plan, which only two commands have. -/
theorem onlyEncodingWritesTheSink : Obligations.OnlyEncodingWritesTheSink := by
  unfold Obligations.OnlyEncodingWritesTheSink
  intro i s t h
  obtain ⟨n, hn⟩ := exec_follows h
  refine ⟨hn.out ▸ List.prefix_append _ _, fun hesym heflush => ?_⟩
  rw [hn.out, execPlan_events hesym heflush, List.take_nil, List.append_nil]

/-- Settles O48: an execution moves `rpos` up to its plan's limit, which is inside the source. -/
theorem onlyDecodingReadsTheSource : Obligations.OnlyDecodingReadsTheSource := by
  unfold Obligations.OnlyDecodingReadsTheSource
  intro i s t h
  obtain ⟨n, hn⟩ := exec_follows h
  obtain ⟨hge, hle⟩ := execPlan_limit i s
  have hrpos := hn.rpos
  have hsource := (exec_sameFixed h).source
  refine ⟨hsource, fun hin => ?_, fun hdinit hdsym => ?_⟩
  · rw [hsource]
    omega
  · rw [execPlan_limit_eq hdinit hdsym] at hrpos
    omega

end Sys2Proof.Machine
end

section
/-! The invariant of the machine (R33, R34, R164, the widths of R20 to R29): it holds after reset, every
step keeps it, and from it no rule runs out of the bound of R139 or raises `INVARIANT`. -/

namespace Sys2Proof

/-- `WHOLE` fits the `P + 1` bits of `high` (R25). -/
theorem Params.whole_lt (p : Params) : p.whole < 2 ^ (p.precision + 1) := by
  have hpos := Nat.two_pow_pos p.precision
  rw [Params.whole, Nat.pow_succ]
  omega

end Sys2Proof

namespace Sys2Proof.Machine

/-- The pseudocode ends, and not in `INVARIANT`. -/
def Flow.Safe (x : Flow Unit) : Prop :=
  (∀ u, x ≠ .raised .invariant u) ∧ ∀ r, x ≠ .stuck r

theorem Flow.safe_go (s : State) : (Flow.go () s).Safe := ⟨nofun, nofun⟩

theorem Flow.safe_raised {c : Cause} (hc : c ≠ .invariant) (s : State) : (Flow.raised c s).Safe :=
  ⟨fun _ h => hc (Flow.raised.inj h).1, nofun⟩

/-! ### A symbol's interval after its regions -/

section
variable {s : State} (hi : s.Inv) (hm : s.mode = .enc ∨ s.mode = .dec) {sym : Nat} (hs : sym < s.cfg.k)
include hi hm hs

/-- R139 for the narrowed interval of a symbol: fewer than `P` regions, and R33 again behind them. -/
theorem State.Inv.symbolTrace_ends :
    let tr := symbolTrace s sym
    let low' := tr.foldl (expandEnd s.cfg) (narrowSym s sym).1
    let high' := tr.foldl (expandEnd s.cfg) (narrowSym s sym).2
    tr.length ≤ s.cfg.precision - 1 ∧ low' < high' ∧ high' ≤ s.cfg.whole ∧
      s.cfg.quarter ≤ high' - low' ∧ region s.cfg low' high' = .none := by
  intro tr low' high'
  have hp := hi.valid (running_of_session hm)
  obtain ⟨-, hhigh⟩ := narrowSym_subset (hi.ready hm) hs
  obtain ⟨-, hwhole, -⟩ := hi.coderInv hm
  obtain ⟨hlen, hnone, -, -, hend, hwide, -⟩ := renormalisationEndsWithinItsBound s.cfg _ _ hp
    (hi.narrowSym_lt hm hs) (hhigh.trans hwhole)
  have hquarter := s.cfg.quarter_pos
  exact ⟨hlen, Nat.lt_of_sub_pos (hquarter.trans_le hwide), hend, hwide, hnone⟩

theorem State.Inv.symbolTrace_length_lt : (symbolTrace s sym).length < s.cfg.precision := by
  obtain ⟨⟨hP, -⟩, -⟩ := s.cfg.valid_iff.1 (hi.valid (running_of_session hm))
  obtain ⟨hlen, -⟩ := hi.symbolTrace_ends hm hs
  omega

/-- R133, R139: from the invariant `ESYM` raises no `INVARIANT` and its loop ends. -/
theorem State.Inv.encodeSymbol_safe :
    (encodeSymbol sym s).Safe := by
  have hlt := hi.narrowSym_lt hm hs
  have hlen : (symbolTrace s sym).length < s.cfg.precision := hi.symbolTrace_length_lt hm hs
  rcases encodeSymbol_cases sym s with ⟨hempty, -⟩ | ⟨-, -, -, -, -, he⟩ |
    ⟨-, _, _, -, -, -, -, -, he, -⟩ | ⟨-, _, _, -, -, -, -, he, -⟩ | ⟨-, hstuck, -⟩
  · exact absurd hempty hlt.not_ge
  · exact he ▸ Flow.safe_go _
  · exact he ▸ Flow.safe_raised (by decide) _
  · exact he ▸ Flow.safe_raised (by decide) _
  · exact absurd hstuck hlen.ne

end

/-- R164 through a renormalisation: `z` stays in the interval. -/
theorem traceZ_mem (p : Params) (src : List Bool) (n pos : Nat) {low high z : Nat} (hlow : low ≤ z)
    (hhigh : z < high) :
    let tr := regionTrace p n low high
    tr.foldl (expandEnd p) low ≤ traceZ p src tr z pos ∧
      traceZ p src tr z pos < tr.foldl (expandEnd p) high := by
  intro tr
  have hpoint : PointsInto low high (sourceValue src z pos) :=
    (sourceValue_mem_iff src z pos low high).2 ⟨hlow, hhigh⟩
  rw [← pointsInto_foldl_iff p n (hlow.trans hhigh.le),
    ← sourceValue_regionTrace p src n low high pos hlow] at hpoint
  exact (sourceValue_mem_iff _ _ _ _ _).1 hpoint

theorem symMatches_iff (s : State) (sym : Nat) :
    symMatches s sym = true ↔ (narrowSym s sym).1 ≤ s.z ∧ s.z < (narrowSym s sym).2 := by
  simp [symMatches]

/-- What the search finds contains `z` (R161). -/
theorem findSymbol_contains {s : State} {sym : Nat} (h : findSymbol s = some sym) :
    (narrowSym s sym).1 ≤ s.z ∧ s.z < (narrowSym s sym).2 := by
  rw [findSymbol_eq_some_iff] at h
  have hmem : sym ∈ (List.range s.cfg.k).filter (symMatches s) := by simp [h]
  exact (symMatches_iff s sym).1 (List.mem_filter.1 hmem).2

/-- R162, R139: from the invariant `DSYM` raises no `INVARIANT` and its loop ends. -/
theorem State.Inv.decodeSymbol_safe {s : State} (hi : s.Inv) (hm : s.mode = .dec) :
    (decodeSymbol s).Safe := by
  obtain ⟨found, hfind, -⟩ := decoderFindsExactlyOneSymbol s hi hm
  rcases decodeSymbol_cases s with ⟨hf, -⟩ | ⟨-, he⟩ |
    ⟨sym, hf, -, ⟨-, -, he⟩ | ⟨u, he, -⟩ | ⟨hstuck, -⟩⟩
  · rw [hfind] at hf
    cases hf
  · exact he ▸ Flow.safe_go _
  · exact he ▸ Flow.safe_go _
  · exact he ▸ Flow.safe_raised (by decide) _
  · have hlen : (symbolTrace s sym).length < s.cfg.precision :=
      hi.symbolTrace_length_lt (.inr hm) (findSymbol_lt hf)
    exact absurd hstuck hlen.ne

/-- From the invariant no rule whose checks passed raises `INVARIANT` or fails to end. -/
theorem State.Inv.ruleOf_safe {i : Instr} {s : State} (hi : s.Inv) (hl : legalIn i s.mode = true)
    (hr : operandInRange s.cfg i = true) :
    (ruleOf i s).Safe := by
  cases i with
  | minit | mcumb _ | mcume _ | mtotal | mupd _ | einit => exact Flow.safe_go _
  | esym sym => exact hi.encodeSymbol_safe (.inl (of_decide_eq_true hl)) (of_decide_eq_true hr)
  | eflush =>
    change (terminateStream s).Safe
    rcases terminateStream_cases s with ⟨-, he⟩ | ⟨-, -, he⟩ | ⟨-, _, _, -, -, -, he, -⟩
    · exact he ▸ Flow.safe_raised (by decide) _
    · exact he ▸ Flow.safe_go _
    · exact he ▸ Flow.safe_raised (by decide) _
  | dinit =>
    rcases ruleOf_dinit_cases s with ⟨-, he⟩ | ⟨_, he, -⟩
    · exact he ▸ Flow.safe_go _
    · exact he ▸ Flow.safe_raised (by decide) _
  | dsym => exact hi.decodeSymbol_safe (of_decide_eq_true hl)

/-! ### The invariant of a state, outside `FAULT` and in it -/

/-- The coder's registers fit their widths (R24, R25, R27), and meet R33 and R164 where these apply. -/
structure State.RegistersInv (s : State) : Prop where
  low_lt : s.low < 2 ^ (s.cfg.precision + 1)
  high_lt : s.high < 2 ^ (s.cfg.precision + 1)
  z_lt : s.z < 2 ^ s.cfg.precision
  coder : s.mode = .enc ∨ s.mode = .dec → s.CoderInv
  decoder : s.mode = .dec → s.DecoderInv

/-- R33 bounds the ends of the interval by `WHOLE`, so they fit. -/
theorem registersInv_of_coderInv {s : State} (hcoder : s.CoderInv) (hz : s.z < 2 ^ s.cfg.precision)
    (hdec : s.mode = .dec → s.DecoderInv) : s.RegistersInv := by
  have ⟨hlt, hhigh, _, _⟩ := hcoder
  have hfit := Params.whole_lt s.cfg
  exact ⟨hlt.trans (hhigh.trans_lt hfit), hhigh.trans_lt hfit, hz, fun _ => hcoder, hdec⟩

/-- In `IDLE` and `DONE` only the widths remain (R33). -/
theorem registersInv_outside_session {s t : State} (hi : s.Inv) (hcfg : t.cfg = s.cfg)
    (hlow : t.low = s.low) (hhigh : t.high = s.high) (hz : t.z = s.z)
    (hm : t.mode = .idle ∨ t.mode = .done) : t.RegistersInv := by
  obtain ⟨-, ⟨-, -, hlow', hhigh', hz'⟩, -⟩ := hi
  refine ⟨by rwa [hlow, hcfg], by rwa [hhigh, hcfg], by rwa [hz, hcfg], fun h => ?_, fun h => ?_⟩
  · rcases hm with hm | hm <;> simp [hm] at h
  · rcases hm with hm | hm <;> simp [hm] at h

theorem State.Inv.eos_done {s : State} (hi : s.Inv) (hm : s.mode ≠ .fault) (heos : s.eos = true) :
    s.mode = .done := by
  obtain ⟨⟨-, hdone, -⟩, -⟩ := hi
  exact (hdone heos).resolve_right hm

theorem inv_of_running {s : State} (hp : s.cfg.valid = true) (hcause : s.cause = .none)
    (hm : s.mode ≠ .fault) (heos : s.eos = true → s.mode = .done) (hrpos : s.rpos ≤ s.source.length)
    (hmodel : s.ModelInv) (hreg : s.RegistersInv) : s.Inv := by
  obtain ⟨hwf, htotal⟩ := hmodel.fits hp
  refine ⟨⟨⟨fun _ => hm, fun _ => hcause⟩, fun h => .inl (heos h), ?_, hrpos⟩,
    ⟨hwf, htotal, hreg.low_lt, hreg.high_lt, hreg.z_lt⟩, fun _ => hmodel, hreg.coder, hreg.decoder⟩
  rw [hcause, hp]
  exact ⟨nofun, nofun⟩

theorem inv_of_fault {s : State} (hm : s.mode = .fault) (hcause : s.cause ≠ .none)
    (hconfig : s.cause = .modelConfig ↔ s.cfg.valid = false) (hrpos : s.rpos ≤ s.source.length)
    (hwidth : s.WidthInv) : s.Inv := by
  refine ⟨⟨⟨fun h => absurd h hcause, fun h => absurd hm h⟩, fun _ => .inr hm, hconfig, hrpos⟩, hwidth,
    fun h => absurd hm h, fun h => absurd hm (running_of_session h), fun h => ?_⟩
  rw [hm] at h
  cases h

/-- Free values have the widths of their registers (R202, R222). -/
theorem unspecify_widthInv (s : State) : (unspecify s).WidthInv := by
  have hfree (n width : Nat) : freeReg s n width < 2 ^ width := Nat.mod_lt _ (Nat.two_pow_pos _)
  exact ⟨Memory.wf_unspecify s, hfree _ _, hfree _ _, hfree _ _, hfree _ _⟩

/-! ### The start values -/

/-- R35: the start values of the model meet M1 to M3. -/
theorem canonicalStart_modelInv {s : State} (hp : s.cfg.valid = true) : (canonicalStart s).ModelInv := by
  obtain ⟨-, -, hk, -⟩ := s.cfg.valid_iff.1 hp
  obtain ⟨hlen, hsum⟩ := canonicalStart_tableSummed s
  exact ⟨hlen, fun f hf => (List.eq_of_mem_replicate hf).ge, hsum, le_rfl, hk.le⟩

/-- R35: the start values of the coder meet R33, and R164 whatever bits `z` is loaded with. -/
theorem registersInv_of_start {s : State} (hp : s.cfg.valid = true) (hlow : s.low = 0)
    (hhigh : s.high = s.cfg.whole) (hz : s.z < 2 ^ s.cfg.precision) : s.RegistersInv := by
  have hhalf := Params.half_le_whole hp
  have hnone : region s.cfg s.low s.high = .none := by
    rw [region_eq_none_iff, hlow, hhigh]
    exact ⟨hhalf, Nat.zero_le _, .inl (Nat.zero_le _)⟩
  have hwide := quarter_le_width hp hnone
  have hquarter := s.cfg.quarter_pos
  refine registersInv_of_coderInv ⟨by omega, hhigh.le, hwide, hnone⟩ hz fun _ => ⟨?_, ?_⟩
  · rw [hlow]
    exact Nat.zero_le _
  · rw [hhigh]
    exact hz

/-! ### Reset -/

theorem resetEngine_inv {s : State} (hrpos : s.rpos ≤ s.source.length) : (resetEngine s).Inv := by
  cases hp : s.cfg.valid with
  | true =>
    rw [resetEngine_of_valid hp]
    exact inv_of_running hp rfl nofun nofun hrpos (canonicalStart_modelInv hp)
      (registersInv_of_start hp rfl rfl (Nat.two_pow_pos _))
  | false =>
    rw [resetEngine_of_invalid hp]
    exact inv_of_fault rfl nofun ⟨fun _ => hp, fun _ => rfl⟩ hrpos (unspecify_widthInv s)

/-- State.reset is what reset makes of itself. -/
theorem reset_eq_resetStateOf : State.reset = resetStateOf Params.production :=
  (resetEngine_of_valid (s := State.reset) (by decide)).symm

/-- Settles O12: reset meets the invariant from any state whose source position is inside the source. -/
theorem resetStatesMeetTheInvariant : Obligations.ResetStatesMeetTheInvariant := by
  unfold Obligations.ResetStatesMeetTheInvariant
  have hall (p : Params) : (resetStateOf p).Inv := resetEngine_inv le_rfl
  exact ⟨reset_eq_resetStateOf ▸ hall _, hall⟩

/-- Settles O11: State.reset is the valid branch of reset for the production parameters. -/
theorem stateResetIsTheProductionResetState : Obligations.StateResetIsTheProductionResetState := by
  unfold Obligations.StateResetIsTheProductionResetState
  exact ⟨reset_eq_resetStateOf, rfl, rfl, rfl, rfl, rfl, rfl, rfl, rfl, rfl, rfl⟩

/-! ### Completed rules -/

/-- What remains to be shown of a completed rule: `EOS`, the model and the coder's registers. -/
theorem inv_of_completed {i : Instr} {s t : State} (hi : s.Inv) (hm : s.mode ≠ .fault)
    (hgo : ruleOf i s = .go () t) (hrpos : t.rpos ≤ t.source.length)
    (heos : t.eos = true → t.mode = .done) (hmodel : t.ModelInv) (hreg : t.RegistersInv) : t.Inv := by
  obtain ⟨hfixed, hcause, -⟩ := ruleOf_go_frame hgo
  obtain ⟨hmode, -⟩ := ruleOf_go hm hgo
  obtain ⟨⟨hnone, -⟩, -⟩ := id hi
  refine inv_of_running ?_ ?_ hmode heos hrpos hmodel hreg
  · rw [hfixed.cfg, hi.valid hm]
  · rw [hcause, hnone.2 hm]

theorem modelInv_of_update {s t : State} {sym : Nat} (h : (update sym s).ModelInv) (hcfg : t.cfg = s.cfg)
    (hfreq : t.freq = (update sym s).freq) (htotal : t.total = (update sym s).total) : t.ModelInv := by
  rw [State.ModelInv, hcfg, hfreq, htotal, ← update_cfg sym s]
  exact h

theorem State.Inv.dsymState_registers {s : State} {sym : Nat} (hi : s.Inv) (hm : s.mode = .dec)
    (hfind : findSymbol s = some sym) : (dsymState s sym).RegistersInv := by
  obtain ⟨-, hcoder⟩ := hi.symbolTrace_ends (.inr hm) (findSymbol_lt hfind)
  obtain ⟨hlow, hhigh⟩ := findSymbol_contains hfind
  have hz := traceZ_mem s.cfg s.source s.cfg.precision s.rpos hlow hhigh
  obtain ⟨-, hwhole, -⟩ := id hcoder
  exact registersInv_of_coderInv (s := dsymState s sym) hcoder (hz.2.trans_le hwhole) fun _ => hz

/-- A rule that completes keeps the invariant. -/
theorem ruleOf_go_inv {i : Instr} {s t : State} (hi : s.Inv) (hl : legalIn i s.mode = true)
    (hr : operandInRange s.cfg i = true) (hgo : ruleOf i s = .go () t)
    (hrpos : t.rpos ≤ t.source.length) : t.Inv := by
  have hm := ne_fault_of_legalIn hl
  have hp := hi.valid hm
  obtain ⟨-, ⟨-, -, -, -, hz⟩, hmodel, -⟩ := id hi
  replace hmodel := hmodel hm
  cases i with
  | mcumb _ | mcume _ | mtotal =>
    cases hgo
    exact hi
  | minit | einit =>
    cases id hgo
    exact inv_of_completed hi hm hgo hrpos nofun (canonicalStart_modelInv hp)
      (registersInv_of_start hp rfl rfl (Nat.two_pow_pos _))
  | mupd sym =>
    have hidle : s.mode = .idle := of_decide_eq_true hl
    cases id hgo
    refine inv_of_completed hi hm hgo hrpos (fun h => ?_) ?_ ?_
    · exact (update_mode sym s).trans (hi.eos_done hm ((update_eos sym s).symm.trans h))
    · exact update_modelInv hp hmodel (of_decide_eq_true hr)
    · exact registersInv_outside_session hi (update_cfg sym s) (update_low sym s) (update_high sym s)
        (update_z sym s) (.inl ((update_mode sym s).trans hidle))
  | esym sym =>
    have henc : s.mode = .enc := of_decide_eq_true hl
    have hs : sym < s.cfg.k := of_decide_eq_true hr
    obtain ⟨-, hcoder⟩ := hi.symbolTrace_ends (.inl henc) hs
    obtain ⟨-, -, ht⟩ := encodeSymbol_eq_go hgo
    refine inv_of_completed hi hm hgo hrpos ?_ ?_ ?_ <;> rw [ht]
    · exact hi.eos_done hm
    · exact modelInv_of_update (update_modelInv hp hmodel hs) rfl rfl rfl
    · refine registersInv_of_coderInv hcoder hz fun h => ?_
      rw [henc] at h
      cases h
  | eflush =>
    have ht := terminateStream_eq_go hgo
    refine inv_of_completed hi hm hgo hrpos ?_ ?_ ?_ <;> rw [ht]
    · exact fun _ => rfl
    · exact hmodel
    · exact registersInv_outside_session hi rfl rfl rfl rfl (.inr rfl)
  | dinit =>
    have ht := ruleOf_dinit_eq_go hgo
    refine inv_of_completed hi hm hgo hrpos ?_ ?_ ?_ <;> rw [ht]
    · exact nofun
    · exact canonicalStart_modelInv hp
    · exact registersInv_of_start hp rfl rfl (bitsValue_lt _ _ _)
  | dsym =>
    have hdec : s.mode = .dec := of_decide_eq_true hl
    rcases decodeSymbol_completed hgo with ⟨-, ht⟩ | ⟨sym, hfind, -, -, ht⟩
    · refine inv_of_completed hi hm hgo hrpos ?_ ?_ ?_ <;> rw [ht]
      · exact fun _ => rfl
      · exact hmodel
      · exact registersInv_outside_session hi rfl rfl rfl rfl (.inr rfl)
    · refine inv_of_completed hi hm hgo hrpos ?_ ?_ ?_ <;> rw [ht]
      · exact hi.eos_done hm
      · exact modelInv_of_update (update_modelInv hp hmodel (findSymbol_lt hfind)) rfl rfl rfl
      · exact hi.dsymState_registers hdec hfind

/-! ### Executions and steps -/

/-- A fault taken outside `FAULT`, with a cause a command can raise (R190, R192). -/
theorem enterFault_inv {s u : State} {c : Cause} (hi : s.Inv) (w : CmdWord)
    (hm : s.mode ≠ .fault) (hcfg : u.cfg = s.cfg) (hrpos : u.rpos ≤ u.source.length)
    (hc : c.imprecise = true ∨ (c ≠ .none ∧ c ≠ .modelConfig ∧ u = s)) : (enterFault c w u).Inv := by
  have hvalid : u.cfg.valid = true := by rw [hcfg, hi.valid hm]
  have hcause : c ≠ .none ∧ c ≠ .modelConfig := by
    rcases hc with hc | ⟨h1, h2, -⟩
    · constructor <;> rintro rfl <;> cases hc
    · exact ⟨h1, h2⟩
  obtain ⟨hnone, hconfig⟩ := hcause
  refine inv_of_fault rfl hnone ?_ (by simpa using hrpos) ?_
  · rw [enterFault_cause, enterFault_cfg, hvalid]
    exact ⟨fun h => absurd h hconfig, nofun⟩
  · cases himp : c.imprecise with
    | true =>
      rw [enterFault_imprecise c w u himp]
      exact unspecify_widthInv u
    | false =>
      obtain ⟨-, -, rfl⟩ := hc.resolve_left (by simp [himp])
      obtain ⟨-, hwidth, -⟩ := hi
      rw [enterFault_precise c w _ himp]
      exact hwidth

theorem exec_inv {i : Instr} {s t : State} (hi : s.Inv) (h : exec i s = .next t) : t.Inv := by
  obtain ⟨⟨-, -, -, hin⟩, -⟩ := id hi
  obtain ⟨-, hpos, -⟩ := onlyDecodingReadsTheSource i s t h
  obtain ⟨-, hrpos⟩ := hpos hin
  rcases exec_ends h with ⟨-, rfl⟩ | ⟨hm, c, hc, ht⟩ | ⟨hl, -, c, u, hu, rfl⟩ | ⟨hl, hr, hgo⟩
  · exact hi
  · have hkind : c.imprecise = false ∧ c ≠ .none ∧ c ≠ .modelConfig := by
      rcases hc with rfl | rfl <;> exact ⟨rfl, nofun, nofun⟩
    obtain ⟨hprecise, hnone, hconfig⟩ := hkind
    rw [ht, ← enterFault_precise c (encode i) s hprecise]
    exact enterFault_inv hi _ hm rfl hin (.inr ⟨hnone, hconfig, rfl⟩)
  · refine enterFault_inv hi _ (ne_fault_of_legalIn hl) (ruleOf_interrupted hu).sameFixed.cfg
      (by simpa using hrpos) ?_
    rcases ruleOf_raised hu with himp | ⟨rfl, rfl⟩
    · exact .inl himp
    · exact .inr ⟨nofun, nofun, rfl⟩
  · exact ruleOf_go_inv hi hl hr hgo hrpos

theorem respond_inv {s : State} (hi : s.Inv) : (respond s).Inv := hi

theorem runCommand_inv {w : CmdWord} {s t : State} (hi : s.Inv) (h : runCommand w s = .next t) :
    t.Inv := by
  by_cases hd : ∃ i, decode w = .instr i
  · obtain ⟨i, hd⟩ := hd
    rw [runCommand_of_decode hd] at h
    cases hx : exec i s <;> rw [hx] at h <;> cases h
    exact respond_inv (exec_inv hi hx)
  · rw [runCommand_of_no_command (not_exists.1 hd)] at h
    cases h
    by_cases hm : s.mode = .fault
    · rw [illegalCommand, if_pos hm]
      exact hi
    · obtain ⟨⟨-, -, -, hin⟩, -⟩ := id hi
      rw [illegalCommand, if_neg hm]
      exact respond_inv (enterFault_inv hi w hm rfl hin (.inr ⟨nofun, nofun, rfl⟩))

theorem takeInput_inv {e : Input} {s t : State} (hi : s.Inv) (h : takeInput e s = .next t) :
    t.Inv := by
  obtain ⟨⟨heos, hnone, hconfig, hin⟩, hrest⟩ := id hi
  cases e with
  | command w => exact runCommand_inv hi h
  | reset =>
    cases h
    exact resetEngine_inv hin
  | resetDuring w ops =>
    obtain ⟨u, hu, rfl⟩ := resetInside_next h
    have hi' : ({ s with ioFail := (s.ioOps + ops) :: s.ioFail } : State).Inv := hi
    obtain ⟨⟨-, -, -, hin'⟩, -⟩ := runCommand_inv hi' hu
    exact resetEngine_inv hin'
  | placeSource bits =>
    cases h
    exact ⟨⟨heos, hnone, hconfig, Nat.zero_le _⟩, hrest⟩

/-- Settles O13: no input and no command breaks the invariant. -/
theorem everyStepKeepsTheInvariant : Obligations.EveryStepKeepsTheInvariant := by
  unfold Obligations.EveryStepKeepsTheInvariant
  intro s t hi h
  rcases step_next h with rfl | ⟨e, rest, -, htake⟩
  · exact hi
  · have hi' : ({ s with inputs := rest } : State).Inv := hi
    exact takeInput_inv hi' htake

/-- Settles O15: no rule raises it, the checks raise other causes, a completed rule keeps `CAUSE`. -/
theorem invariantFaultIsUnreachable : Obligations.InvariantFaultIsUnreachable := by
  unfold Obligations.InvariantFaultIsUnreachable
  intro i s t hi h hcause
  rcases exec_ends h with ⟨-, rfl⟩ | ⟨-, c, hc, rfl⟩ | ⟨hl, hr, c, u, hu, rfl⟩ | ⟨-, -, hgo⟩
  · exact hcause
  · rcases hc with rfl | rfl <;> cases hcause
  · obtain rfl : c = .invariant := hcause
    obtain ⟨hsafe, -⟩ := hi.ruleOf_safe hl hr
    exact absurd hu (hsafe u)
  · obtain ⟨-, hkeeps, -⟩ := ruleOf_go_frame hgo
    exact hkeeps ▸ hcause

theorem exec_answers {s : State} (hi : s.Inv) (i : Instr) : ∃ t, exec i s = .next t := by
  rcases exec_cases i s with ⟨-, he⟩ | ⟨-, -, he⟩ | ⟨-, -, -, he⟩ | ⟨-, hl, hr, he⟩ <;> rw [he]
  · exact ⟨_, rfl⟩
  · exact ⟨_, rfl⟩
  · exact ⟨_, rfl⟩
  · obtain ⟨-, hsafe⟩ := hi.ruleOf_safe hl hr
    cases hx : ruleOf i s with
    | go a t => exact ⟨t, rfl⟩
    | raised c t => exact ⟨_, rfl⟩
    | stuck r => exact absurd hx (hsafe r)

theorem runCommand_answers {s : State} (hi : s.Inv) (w : CmdWord) :
    ∃ t, runCommand w s = .next t := by
  by_cases hd : ∃ i, decode w = .instr i
  · obtain ⟨i, hd⟩ := hd
    obtain ⟨t, ht⟩ := exec_answers hi i
    exact ⟨respond t, by rw [runCommand_of_decode hd, ht]; rfl⟩
  · exact ⟨_, runCommand_of_no_command (not_exists.1 hd) s⟩

theorem takeInput_answers {s : State} (hi : s.Inv) (e : Input) :
    ∃ t, takeInput e s = .next t := by
  cases e with
  | command w => exact runCommand_answers hi w
  | reset => exact ⟨_, rfl⟩
  | resetDuring w ops =>
    have hi' : ({ s with ioFail := (s.ioOps + ops) :: s.ioFail } : State).Inv := hi
    obtain ⟨u, hu⟩ := runCommand_answers hi' w
    exact ⟨_, by rw [takeInput, resetInside, hu]⟩
  | placeSource bits => exact ⟨_, rfl⟩

/-- Settles O14: every input is answered, since no rule is stuck. -/
theorem everyStepFromTheInvariantAnswersNext : Obligations.EveryStepFromTheInvariantAnswersNext := by
  unfold Obligations.EveryStepFromTheInvariantAnswersNext
  intro s hi
  unfold step
  split
  · exact ⟨s, rfl⟩
  · next e rest _ =>
    have hi' : ({ s with inputs := rest } : State).Inv := hi
    exact takeInput_answers hi' e

end Sys2Proof.Machine
end

section
/-! Reset in the middle of a command (R220): the cut is one more failing operation, and the same plan is
followed up to it. -/

namespace Sys2Proof.Machine

/-- The environment also fails operation number `ops` of the command to come (log 12). -/
def State.cutAfter (s : State) (ops : Nat) : State :=
  { s with ioFail := (s.ioOps + ops) :: s.ioFail }

theorem mem_cutAfter {s : State} {ops j : Nat} :
    (s.cutAfter ops).ioOps + j ∈ (s.cutAfter ops).ioFail ↔ j = ops ∨ s.ioOps + j ∈ s.ioFail := by
  change s.ioOps + j ∈ (s.ioOps + ops) :: s.ioFail ↔ _
  rw [List.mem_cons, Nat.add_left_cancel_iff]

/-- What lies ahead of a command does not depend on the environment's failures. -/
theorem wordPlan_cutAfter (w : CmdWord) (s : State) (ops : Nat) :
    wordPlan w (s.cutAfter ops) = wordPlan w s := by
  have hrule (i : Instr) : planOf i (s.cutAfter ops) = planOf i s := by cases i <;> rfl
  have hexec (i : Instr) : execPlan i (s.cutAfter ops) = execPlan i s := by
    rw [execPlan, hrule]
    rfl
  unfold wordPlan
  split
  · exact hexec _
  · rfl
  · rfl

section
variable {p : OpPlan} {s u v : State} {ops n m : Nat} (hu : p.StopsAfter s u n)
  (hv : p.StopsAfter (s.cutAfter ops) v m)
include hu hv

/-- The cut command stops at the cut, or where it would have stopped anyway. -/
theorem OpPlan.StopsAfter.cut_eq_min : m = min n ops := by
  have hmops : m ≤ ops := by
    by_contra hlt
    exact hv.before ops (not_le.1 hlt) (mem_cutAfter.2 (.inl rfl))
  have hmn : m ≤ n := by
    by_contra hlt
    have hfail := hu.fails ((not_le.1 hlt).trans_le hv.le)
    exact hv.before n (not_le.1 hlt) (mem_cutAfter.2 (.inr hfail))
  rcases Nat.lt_or_ge m p.count with hlt | hge
  · rcases mem_cutAfter.1 (hv.fails hlt) with rfl | hfail
    · omega
    · have : ¬ m < n := fun h => hu.before m h hfail
      omega
  · have := hu.le
    omega

theorem OpPlan.StopsAfter.cut_out : v.out = s.out ++ (u.out.drop s.out.length).take ops := by
  rw [hv.out, hu.out, hu.cut_eq_min hv, List.drop_left, List.take_take, Nat.min_comm]
  rfl

theorem OpPlan.StopsAfter.cut_rpos (hlimit : s.rpos ≤ p.limit) :
    s.rpos ≤ u.rpos ∧ v.rpos = min u.rpos (s.rpos + ops / 2) := by
  have hmin := hu.cut_eq_min hv
  have hur := hu.rpos
  have hvr : v.rpos = min p.limit (s.rpos + m / 2) := hv.rpos
  omega

theorem OpPlan.StopsAfter.cut_ioOps :
    s.ioOps ≤ u.ioOps ∧ min v.ioOps (s.ioOps + ops) = min u.ioOps (s.ioOps + ops) := by
  have hmin := hu.cut_eq_min hv
  have huo := hu.ioOps
  have hvo : v.ioOps = s.ioOps + min (m + 1) p.count := hv.ioOps
  have := hu.le
  omega

end

theorem step_resetDuring {s : State} {w : CmdWord} {ops : Nat} {rest : List Input}
    (h : s.inputs = .resetDuring w ops :: rest) :
    step s = resetInside w ops { s with inputs := rest } := by
  rw [step, h]
  rfl

theorem resetInside_eq {w : CmdWord} {ops : Nat} {s v : State}
    (h : runCommand w (s.cutAfter ops) = .next v) :
    resetInside w ops s = .next (resetEngine { v with
      ioFail := s.ioFail, ioOps := min v.ioOps (s.ioOps + ops), responses := s.responses }) := by
  rw [State.cutAfter] at h
  rw [resetInside, h]

theorem resetEngine_ioOps (s : State) : (resetEngine s).ioOps = s.ioOps := by
  cases hp : s.cfg.valid with
  | true => rw [resetEngine_of_valid hp]; rfl
  | false => rw [resetEngine_of_invalid hp]; rfl

/-- R221: the values reset establishes for a valid parameter set. -/
theorem resetEngine_values_of_valid {s : State} (hp : s.cfg.valid = true) :
    (resetEngine s).freq = List.replicate s.cfg.k 1 ∧ (resetEngine s).total = s.cfg.k ∧
      (resetEngine s).low = 0 ∧ (resetEngine s).high = s.cfg.whole ∧ (resetEngine s).pending = 0 ∧
      (resetEngine s).z = 0 ∧ (resetEngine s).mode = .idle ∧ (resetEngine s).eos = false ∧
      (resetEngine s).cause = .none ∧ (resetEngine s).result = 0 := by
  rw [resetEngine_of_valid hp]
  exact ⟨rfl, rfl, rfl, rfl, rfl, rfl, rfl, rfl, rfl, rfl⟩

/-- What reset finds when it comes inside a command, against the state `u` the uninterrupted command ends
in: the first `ops` events and operations, one bit consumed for each two, and no response (R220). -/
theorem resetInside_cut {s : State} (hi : s.Inv) (w : CmdWord) (ops : Nat) :
    ∃ u y, runCommand w s = .next u ∧ resetInside w ops s = .next (resetEngine y) ∧
      s.out <+: u.out ∧ s.rpos ≤ u.rpos ∧ s.ioOps ≤ u.ioOps ∧
      y.out = s.out ++ (u.out.drop s.out.length).take ops ∧
      y.rpos = min u.rpos (s.rpos + ops / 2) ∧ y.ioOps = min u.ioOps (s.ioOps + ops) ∧
      s.SameFixed y := by
  obtain ⟨u, hu⟩ := runCommand_answers hi w
  obtain ⟨v, hv⟩ := runCommand_answers (s := s.cutAfter ops) hi w
  obtain ⟨n, hn⟩ := runCommand_follows hu
  obtain ⟨m, hm⟩ := runCommand_follows hv
  rw [wordPlan_cutAfter] at hm
  obtain ⟨x, hx, rfl⟩ := runCommand_next hv
  obtain ⟨hrpos, hcut⟩ := hn.cut_rpos hm (wordPlan_limit w s).1
  obtain ⟨hops, hcut'⟩ := hn.cut_ioOps hm
  have hout := hn.cut_out hm
  exact ⟨u, _, hu, resetInside_eq hv, hn.out ▸ List.prefix_append _ _, hrpos, hops, hout, hcut,
    hcut', hx.cfg, hx.inputs, rfl, hx.source, rfl⟩

/-- Settles O10: the cut leaves the first of the command's operations, and reset keeps what is outside the
engine. -/
theorem resetDuringACommandDropsIt : Obligations.ResetDuringACommandDropsIt := by
  unfold Obligations.ResetDuringACommandDropsIt
  intro s w ops rest hi hin
  obtain ⟨u, y, hu, hreset, hout, hrpos, hops, hyout, hyrpos, hyops, hfixed⟩ :=
    resetInside_cut (s := { s with inputs := rest }) hi w ops
  obtain ⟨hcfg, hinputs, hresponses, hout', hsource, hrpos'⟩ := resetEngine_frame y
  have hycfg : y.cfg = s.cfg := hfixed.cfg
  refine ⟨u, resetEngine y, hu, by rw [step_resetDuring hin, hreset], hout, hrpos, hops,
    hout'.trans hyout, hrpos'.trans hyrpos, (resetEngine_ioOps y).trans hyops,
    hresponses.trans hfixed.responses, hinputs.trans hfixed.inputs, hcfg.trans hycfg,
    hsource.trans hfixed.source, (resetEngine_ioFail y).trans hfixed.ioFail, fun hp => ?_, fun hp => ?_⟩
  · rw [← hycfg] at hp ⊢
    exact resetEngine_values_of_valid hp
  · rw [← hycfg] at hp
    exact resetEngine_status_of_invalid hp

end Sys2Proof.Machine
end

section
/-! The encode commands: `ESYM` and `EFLUSH` complete when no sink operation fails and `pending` has room
(R137, R141, R142), overflow it when it has none (R197), and make up a whole `ENCODE` (R144). -/

namespace Sys2Proof.Machine

/-- A command that ends outside `FAULT` has passed its checks and completed its rule. -/
theorem exec_completed {i : Instr} {s t : State} (h : exec i s = .next t) (ht : t.mode ≠ .fault) :
    legalIn i s.mode = true ∧ operandInRange s.cfg i = true ∧ ruleOf i s = .go () t := by
  rcases exec_ends h with ⟨hm, rfl⟩ | ⟨-, c, -, rfl⟩ | ⟨-, -, c, u, -, rfl⟩ | hgo
  · exact absurd hm ht
  · exact absurd rfl ht
  · exact absurd rfl ht
  · exact hgo

theorem not_mem_of_ioNeverFails {s : State} (h : s.IoNeverFails) (j : Nat) : s.ioOps + j ∉ s.ioFail :=
  fun hmem => (h _ hmem).not_ge (Nat.le_add_right _ _)

/-- Making operations leaves an environment that fails none of them as it is. -/
theorem ioNeverFails_of_le {s t : State} (h : s.IoNeverFails) (hfail : t.ioFail = s.ioFail)
    (hops : s.ioOps ≤ t.ioOps) : t.IoNeverFails :=
  fun n hn => (h n (hfail ▸ hn)).trans_le hops

/-! ### Bits and deferred bits of a trace -/

theorem tracePending_le (tr : List Region) (pending : Nat) :
    tracePending tr pending ≤ pending + tr.length := by
  induction tr generalizing pending with
  | nil => exact le_rfl
  | cons r tr ih =>
    cases r with
    | left | right | middle | none => exact (ih _).trans (by rw [List.length_cons]; omega)

theorem length_traceBits_le (tr : List Region) (pending : Nat) :
    (traceBits tr pending).length ≤ tr.length + pending := by
  induction tr generalizing pending with
  | nil => exact Nat.zero_le _
  | cons r tr ih =>
    cases r with
    | left | right =>
      have := ih 0
      simp only [traceBits, List.length_cons, List.length_append, List.length_replicate]
      omega
    | middle =>
      have := ih (pending + 1)
      simp only [traceBits, List.length_cons]
      omega
    | none =>
      have := ih pending
      simp only [traceBits, List.length_cons]
      omega

theorem length_encodeEvents_le (s : State) (sym : Nat) :
    (encodeEvents s sym).length ≤ (symbolTrace s sym).length + s.pending.toNat := by
  have hbits := length_traceBits_le (symbolTrace s sym) s.pending.toNat
  unfold encodeEvents
  split
  · exact Nat.zero_le _
  · rw [List.length_map]
    exact (encodeBits_prefix s sym).length_le.trans hbits

/-! ### `ESYM` -/

/-- A completed `ESYM` (R141). -/
def esymState (s : State) (sym : Nat) : State :=
  { s with
    low := (symbolTrace s sym).foldl (expandEnd s.cfg) (narrowSym s sym).1
    high := (symbolTrace s sym).foldl (expandEnd s.cfg) (narrowSym s sym).2
    pending := BitVec.ofNat 32 (tracePending (symbolTrace s sym) s.pending.toNat)
    out := s.out ++ (traceBits (symbolTrace s sym) s.pending.toNat).map .bit
    ioOps := s.ioOps + (traceBits (symbolTrace s sym) s.pending.toNat).length
    freq := (update sym s).freq
    total := (update sym s).total
    result := 0 }

/-- With no failing operation and room in `pending` nothing stops `ESYM`. -/
theorem State.Inv.encodeSymbol_completes {s : State} {sym : Nat} (hi : s.Inv) (hm : s.mode = .enc)
    (hs : sym < s.cfg.k) (hio : s.IoNeverFails) (hp : s.pending.toNat + s.cfg.precision ≤ 2 ^ 32) :
    encodeSymbol sym s = .go () (esymState s sym) := by
  have hlt := hi.narrowSym_lt (.inl hm) hs
  have hlen : (symbolTrace s sym).length < s.cfg.precision := hi.symbolTrace_length_lt (.inl hm) hs
  rcases encodeSymbol_cases sym s with ⟨hempty, -⟩ | ⟨-, -, -, -, -, he⟩ |
    ⟨-, sent, _, -, -, -, hfail, -⟩ | ⟨-, _, _, -, -, hovf, -⟩ | ⟨-, hstuck, -⟩
  · exact absurd hempty hlt.not_ge
  · exact he
  · exact absurd hfail (not_mem_of_ioNeverFails hio _)
  · change 2 ^ 32 ≤ s.pending.toNat + (symbolTrace s sym).length at hovf
    omega
  · exact absurd hstuck hlen.ne

/-- Settles O29: the rule of `ESYM` runs and completes. -/
theorem esymEncodesItsSymbol : Obligations.EsymEncodesItsSymbol := by
  unfold Obligations.EsymEncodesItsSymbol
  intro s sym hi hm hs hio hp w cb ce a0 b0 tr bits
  have hgo : ruleOf (.esym sym) s = .go () (esymState s sym) := hi.encodeSymbol_completes hm hs hio hp
  rw [exec_eq_finish (i := .esym sym) (decide_eq_true hm) (decide_eq_true hs), hgo]
  rfl

/-- Settles O31: the events `ESYM` has ahead of it are bits of fewer than `P` regions and the deferred
ones; when a check fails it has none. -/
theorem esymSendsBoundedlyManyBits : Obligations.EsymSendsBoundedlyManyBits := by
  unfold Obligations.EsymSendsBoundedlyManyBits
  intro s t sym hi h
  obtain ⟨n, hn⟩ := exec_follows h
  have hout : t.out.length ≤ s.out.length + (execPlan (.esym sym) s).events.length := by
    rw [hn.out, List.length_append, List.length_take]
    omega
  refine hout.trans ?_
  rw [Nat.add_assoc]
  refine Nat.add_le_add_left ?_ _
  unfold execPlan
  split
  · next hpass =>
    obtain ⟨hl, hr⟩ := hpass
    obtain ⟨hlen, -⟩ := hi.symbolTrace_ends (.inl (of_decide_eq_true hl)) (of_decide_eq_true hr)
    exact (length_encodeEvents_le s sym).trans (Nat.add_le_add_right hlen _)
  · exact Nat.zero_le _

/-! ### `EFLUSH` -/

/-- A completed `EFLUSH` (R142). -/
def eflushState (s : State) : State :=
  { s with
    out := s.out ++ (flushBits s).map .bit ++ [.flush]
    pending := 0, mode := .done, result := 0
    ioOps := s.ioOps + s.pending.toNat + 3 }

theorem terminateStream_completes {s : State} (hio : s.IoNeverFails)
    (hp : s.pending.toNat + 1 < 2 ^ 32) : terminateStream s = .go () (eflushState s) := by
  rcases terminateStream_cases s with ⟨hmax, -⟩ | ⟨-, -, he⟩ | ⟨-, sent, _, -, hfail, -⟩
  · omega
  · exact he
  · exact absurd hfail (not_mem_of_ioNeverFails hio _)

/-- Settles O30: the rule of `EFLUSH` runs and completes. -/
theorem eflushTerminatesTheStream : Obligations.EflushTerminatesTheStream := by
  unfold Obligations.EflushTerminatesTheStream
  intro s hm hio hp b
  have hgo : ruleOf .eflush s = .go () (eflushState s) := terminateStream_completes hio hp
  have hbits : (flushBits s).map SinkEvent.bit =
      .bit b :: List.replicate (s.pending.toNat + 1) (.bit (!b)) := by
    rw [flushBits, List.map_cons, List.map_replicate]
  rw [exec_eq_finish (i := .eflush) (decide_eq_true hm) rfl, hgo, finish_go, eflushState, hbits]

/-! ### What the encode commands leave unchanged -/

/-- Below the ceiling an update touches one entry (R104). -/
theorem readFreq_update_other {s : State} {sym other : Nat} (h : s.total < s.cfg.maxTotal)
    (hne : other ≠ sym) : readFreq (update sym s).freq other = readFreq s.freq other := by
  rw [update_below sym s h]
  exact readFreq_writeFreq_other _ _ _ _ hne

/-- Settles O32: what a completed `ESYM` and a completed `EFLUSH` have done is an equation of states. -/
theorem encodeCommandsFrame : Obligations.EncodeCommandsFrame := by
  unfold Obligations.EncodeCommandsFrame
  refine ⟨fun s t sym _ h ht => ?_, fun s t _ h ht => ?_⟩
  · obtain ⟨-, -, hgo⟩ := exec_completed h ht
    obtain ⟨-, -, hstate⟩ := encodeSymbol_eq_go hgo
    have hother : s.total < s.cfg.maxTotal → ∀ other, other ≠ sym →
        readFreq (update sym s).freq other = readFreq s.freq other :=
      fun hlt other => readFreq_update_other hlt
    rw [hstate]
    exact ⟨rfl, rfl, hother, rfl, rfl, rfl, rfl, rfl, rfl, rfl, rfl, rfl, rfl, rfl, rfl⟩
  · obtain ⟨-, -, hgo⟩ := exec_completed h ht
    rw [terminateStream_eq_go hgo]
    exact ⟨rfl, rfl, rfl, rfl, rfl, rfl, rfl, rfl, rfl, rfl, rfl, rfl, rfl, rfl, rfl, rfl, rfl⟩

/-! ### `PENDING_OVF` -/

/-- A rule that raises a fault in its checked command ends it in that fault. -/
theorem exec_of_raised {i : Instr} {s u : State} {c : Cause} (hl : legalIn i s.mode = true)
    (hr : operandInRange s.cfg i = true) (h : ruleOf i s = .raised c u) :
    exec i s = .next (enterFault c (encode i) u) := by
  rw [exec_eq_finish hl hr, h, finish_raised]

/-- Nothing was sent before `pending` overflowed in the first region (R138). -/
theorem State.Inv.encodeSymbol_overflows {s : State} {sym : Nat} (hi : s.Inv) (hm : s.mode = .enc)
    (hs : sym < s.cfg.k) (hp : s.pending.toNat = 2 ^ 32 - 1)
    (hr : region s.cfg (narrowSym s sym).1 (narrowSym s sym).2 = .middle) :
    ∃ u, encodeSymbol sym s = .raised .pendingOvf u ∧ u.out = s.out ∧ u.eos = s.eos := by
  have hlt := hi.narrowSym_lt (.inl hm) hs
  have hlen : (symbolTrace s sym).length < s.cfg.precision := hi.symbolTrace_length_lt (.inl hm) hs
  have hovf : overflowBits (symbolTrace s sym) s.pending.toNat = some [] := by
    obtain ⟨n, hn⟩ : ∃ n, s.cfg.precision = n + 1 := Nat.exists_eq_succ_of_ne_zero (by omega)
    rw [symbolTrace, hn, regionTrace, hr]
    exact if_pos (by omega)
  rcases encodeSymbol_cases sym s with ⟨hempty, -⟩ | ⟨-, -, -, -, ho, -⟩ |
    ⟨-, sent, _, -, -, hshort, -⟩ | ⟨-, sent, u, -, ho, -, -, he, hu⟩ | ⟨-, hstuck, -⟩
  · exact absurd hempty hlt.not_ge
  · cases ho.symm.trans hovf
  · exact absurd (hshort [] hovf) (Nat.not_lt_zero _)
  · cases ho.symm.trans hovf
    exact ⟨u, he, by rw [hu]; simp, by rw [hu]⟩
  · exact absurd hstuck hlen.ne

/-- Only the rules of `ESYM` and `EFLUSH` count deferred bits. -/
theorem ruleOf_raised_pendingOvf {i : Instr} {s u : State} (h : ruleOf i s = .raised .pendingOvf u) :
    (∃ sym, i = .esym sym) ∨ i = .eflush := by
  cases i with
  | minit | mcumb _ | mcume _ | mtotal | mupd _ | einit => cases h
  | esym sym => exact .inl ⟨sym, rfl⟩
  | eflush => exact .inr rfl
  | dinit =>
    rcases ruleOf_dinit_cases s with ⟨-, he⟩ | ⟨_, he, -⟩ <;> cases he.symm.trans h
  | dsym =>
    rcases decodeSymbol_cases s with ⟨-, he⟩ | ⟨-, he⟩ |
      ⟨_, -, -, ⟨-, -, he⟩ | ⟨_, he, -⟩ | ⟨-, he⟩⟩ <;> cases he.symm.trans h

/-- Settles O46: both rules raise the fault in a state with `OUT` and `EOS` as before, and no other rule
does. -/
theorem pendingOverflowFaults : Obligations.PendingOverflowFaults := by
  unfold Obligations.PendingOverflowFaults
  refine ⟨fun s hm hp => ?_, fun s sym hi hm hs hp hr => ?_, fun i s t hm h hf hc => ?_⟩
  · have hraised : ruleOf .eflush s = .raised .pendingOvf s := by
      rcases terminateStream_cases s with ⟨-, he⟩ | ⟨hlt, -⟩ | ⟨hlt, -⟩
      · exact he
      · omega
      · omega
    exact ⟨_, exec_of_raised (i := .eflush) (decide_eq_true hm) rfl hraised, rfl, rfl, rfl,
      enterFault_eos _ _ _, enterFault_out _ _ _⟩
  · obtain ⟨u, hraised, hout, heos⟩ := hi.encodeSymbol_overflows hm hs hp hr
    obtain ⟨-, ⟨-, hk⟩, -⟩ := s.cfg.valid_iff.1 (hi.valid (by simp [hm]))
    have hword : (encode (.esym sym)).setWidth 32 = BitVec.ofNat 32 (0x9 * 4096 + sym) :=
      encode_setWidth (.esym sym) rfl rfl (by omega)
    exact ⟨_, exec_of_raised (i := .esym sym) (decide_eq_true hm) (decide_eq_true hs) hraised, rfl, rfl,
      hword, (enterFault_eos _ _ _).trans heos, (enterFault_out _ _ _).trans hout⟩
  · rcases exec_ends h with ⟨hm', -⟩ | ⟨-, c, hcheck, rfl⟩ | ⟨-, -, c, u, hu, rfl⟩ | ⟨-, -, hgo⟩
    · exact absurd hm' hm
    · rcases hcheck with rfl | rfl <;> cases hc
    · obtain rfl : c = .pendingOvf := hc
      exact ruleOf_raised_pendingOvf hu
    · obtain ⟨hrun, -⟩ := ruleOf_go hm hgo
      exact absurd hf hrun

/-! ### `ENCODE` -/

theorem issueAll_cons {i : Instr} {rest : List Instr} {s t : State} (h : issue i s = .next t) :
    issueAll (i :: rest) s = issueAll rest t := by
  rw [issueAll, h]

/-- One `ESYM` of a session: it completes, keeps the invariant and defers fewer than `P` more bits. -/
theorem State.Inv.issue_esym {s : State} {sym : Nat} (hi : s.Inv) (hm : s.mode = .enc)
    (hs : sym < s.cfg.k) (hio : s.IoNeverFails) (hp : s.pending.toNat + s.cfg.precision ≤ 2 ^ 32) :
    issue (.esym sym) s = .next (respond (esymState s sym)) ∧ (esymState s sym).Inv ∧
      (esymState s sym).pending.toNat ≤ s.pending.toNat + s.cfg.precision := by
  obtain ⟨-, ⟨-, hk⟩, -⟩ := s.cfg.valid_iff.1 (hi.valid (by simp [hm]))
  obtain ⟨⟨-, -, -, hin⟩, -⟩ := id hi
  have hwf : (Instr.esym sym).wellFormed = true := wellFormed_of_fieldOf_lt (hs.trans_le hk)
  have hl : legalIn (.esym sym) s.mode = true := decide_eq_true hm
  have hr : operandInRange s.cfg (.esym sym) = true := decide_eq_true hs
  have hgo : ruleOf (.esym sym) s = .go () (esymState s sym) := hi.encodeSymbol_completes hm hs hio hp
  have hlen := hi.symbolTrace_length_lt (.inl hm) hs
  have hle := tracePending_le (symbolTrace s sym) s.pending.toNat
  refine ⟨issue_of_go hwf hl hr hgo, ruleOf_go_inv hi hl hr hgo hin, ?_⟩
  rw [esymState, BitVec.toNat_ofNat]
  exact (Nat.mod_le _ _).trans (by omega)

/-- The `ESYM` of a session and its `EFLUSH` complete, when `pending` has room for all their regions. -/
theorem issueAll_esyms_completes {syms : List Nat} {s : State} (hi : s.Inv) (hm : s.mode = .enc)
    (hio : s.IoNeverFails) (hsyms : ∀ sym ∈ syms, sym < s.cfg.k)
    (hp : s.pending.toNat + (syms.length + 1) * s.cfg.precision ≤ 2 ^ 32) :
    ∃ t, issueAll (syms.map .esym ++ [.eflush]) s = .next t ∧ t.mode = .done ∧
      ∃ bits : List Bool, 2 ≤ bits.length ∧ t.out = s.out ++ bits.map .bit ++ [.flush] := by
  induction syms generalizing s with
  | nil =>
    obtain ⟨⟨hP, -⟩, -⟩ := s.cfg.valid_iff.1 (hi.valid (by simp [hm]))
    rw [List.length_nil, Nat.zero_add, Nat.one_mul] at hp
    have hgo : ruleOf .eflush s = .go () (eflushState s) := terminateStream_completes hio (by omega)
    refine ⟨respond (eflushState s), ?_, rfl, flushBits s, by simp [flushBits], rfl⟩
    exact issueAll_cons (issue_of_go (i := .eflush) rfl (decide_eq_true hm) rfl hgo)
  | cons sym syms ih =>
    rw [List.forall_mem_cons] at hsyms
    obtain ⟨hs, hsyms⟩ := hsyms
    rw [List.length_cons, Nat.succ_mul] at hp
    obtain ⟨hissue, hi', hpend⟩ := hi.issue_esym hm hs hio (by omega)
    have hroom : (esymState s sym).pending.toNat + (syms.length + 1) * s.cfg.precision ≤ 2 ^ 32 := by
      omega
    obtain ⟨t, ht, hdone, bits, htwo, hout⟩ := ih (s := respond (esymState s sym)) (respond_inv hi')
      hm (ioNeverFails_of_le hio rfl (Nat.le_add_right _ _)) hsyms hroom
    refine ⟨t, (issueAll_cons hissue).trans ht, hdone,
      traceBits (symbolTrace s sym) s.pending.toNat ++ bits, ?_, ?_⟩
    · rw [List.length_append]
      omega
    · rw [hout, respond_out, esymState, List.map_append, List.append_assoc s.out]

/-- Settles O53: `EINIT` starts a session with nothing deferred, and the rest of `ENCODE` completes. -/
theorem encodeSessionCompletes : Obligations.EncodeSessionCompletes := by
  unfold Obligations.EncodeSessionCompletes
  intro data s hi hm hio hdata hlen
  have hp := hi.valid hm
  have hl : legalIn .einit s.mode = true := (Mode.running_iff _).2 hm
  obtain ⟨⟨-, -, -, hin⟩, -⟩ := id hi
  have hi' : (einitState s).Inv := ruleOf_go_inv (i := .einit) hi hl rfl rfl hin
  have hstart : issue .einit s = .next (respond (einitState s)) :=
    issue_of_go (i := .einit) rfl hl rfl rfl
  rw [runEncode, encodeCommands_eq, issueAll_cons hstart]
  refine issueAll_esyms_completes (s := respond (einitState s)) (respond_inv hi') rfl hio
    (forall_mem_append_eosSym_lt hp hdata) ?_
  change 0 + ((data ++ [s.cfg.eosSym]).length + 1) * s.cfg.precision ≤ 2 ^ 32
  rw [Nat.zero_add, List.length_append, List.length_singleton]
  exact hlen.le

end Sys2Proof.Machine
end

section
/-! The decode commands: `DINIT` and `DSYM` complete when no source operation fails (R160, R163, R165,
R166), an exhausted source is decoded for ever (R228), encoder and decoder stay in agreement (R168). -/

namespace Sys2Proof.Machine

/-! ### `DINIT` -/

/-- From inside the source `rpos` stops at its end (R57). -/
theorem readAhead_of_inside {s : State} (h : s.rpos ≤ s.source.length) (n : Nat) :
    s.readAhead n = { s with
      rpos := min s.source.length (s.rpos + n)
      ioOps := s.ioOps + n + (min s.source.length (s.rpos + n) - s.rpos) } := by
  have hmax : max s.rpos (min s.source.length (s.rpos + n)) = min s.source.length (s.rpos + n) := by
    omega
  rw [State.readAhead, hmax]

theorem ruleOf_dinit_completes {s : State} (hio : s.IoNeverFails) :
    ruleOf .dinit s = .go () (dinitState s) := by
  rcases ruleOf_dinit_cases s with ⟨-, he⟩ | hstop
  · exact he
  · exact absurd hio hstop.not_of_ioNeverFails

/-- Settles O33: the rule of `DINIT` runs and completes. -/
theorem dinitLoadsTheFirstBits : Obligations.DinitLoadsTheFirstBits := by
  unfold Obligations.DinitLoadsTheFirstBits
  intro s hm hin hio rpos'
  rw [exec_eq_finish (i := .dinit) ((Mode.running_iff _).2 hm) rfl, ruleOf_dinit_completes hio,
    finish_go, dinitState, readAhead_of_inside (s := canonicalStart s) hin]
  rfl

/-! ### `DSYM` -/

theorem exec_dsym_of_go {s t : State} (hm : s.mode = .dec) (h : decodeSymbol s = .go () t) :
    exec .dsym s = .next t := by
  have hgo : ruleOf .dsym s = .go () t := h
  rw [exec_eq_finish (i := .dsym) (decide_eq_true hm) rfl, hgo, finish_go]

/-- Settles O35: the search finds `EOS`, and the rule of `DSYM` ends the stream. -/
theorem dsymEndsTheStreamAtEos : Obligations.DsymEndsTheStreamAtEos := by
  unfold Obligations.DsymEndsTheStreamAtEos
  intro s hi hm hlo hhi
  have hs : s.cfg.eosSym < s.cfg.k := Params.eosSym_lt (hi.valid (by simp [hm]))
  exact exec_dsym_of_go hm (decodeSymbol_eos (findSymbol_eq_some hs ⟨hlo, hhi⟩))

/-- From the invariant `DSYM` decodes a data symbol whose interval contains `z`, when no source operation
fails. -/
theorem State.Inv.exec_dsym_data {s : State} {sym : Nat} (hi : s.Inv) (hm : s.mode = .dec)
    (hs : sym < s.cfg.eosSym) (hz : (narrowSym s sym).1 ≤ s.z ∧ s.z < (narrowSym s sym).2)
    (hio : s.IoNeverFails) : exec .dsym s = .next (dsymState s sym) := by
  have hk : sym < s.cfg.k := hs.trans (Params.eosSym_lt (hi.valid (by simp [hm])))
  exact exec_dsym_of_go hm (decodeSymbol_eq_go (findSymbol_eq_some hk hz) hs.ne
    (hi.symbolTrace_length_lt (.inr hm) hk) hio)

/-- Settles O36: the search finds the symbol, and the rule of `DSYM` completes. -/
theorem dsymDecodesADataSymbol : Obligations.DsymDecodesADataSymbol := by
  unfold Obligations.DsymDecodesADataSymbol
  intro s sym hi hm hs hlo hhi hio tr rpos'
  obtain ⟨⟨-, -, -, hin⟩, -⟩ := id hi
  rw [hi.exec_dsym_data hm hs ⟨hlo, hhi⟩ hio, dsymState, afterDecoding, readAhead_of_inside]
  · rfl
  · exact hin

/-- Settles O37: what a completed `DINIT` and a completed `DSYM` have done is an equation of states. -/
theorem decodeCommandsFrame : Obligations.DecodeCommandsFrame := by
  unfold Obligations.DecodeCommandsFrame
  refine ⟨fun s t _ h ht => ?_, fun s t _ h ht => ?_⟩
  · obtain ⟨-, -, hgo⟩ := exec_completed h ht
    rw [ruleOf_dinit_eq_go hgo]
    exact ⟨rfl, rfl, rfl, rfl, rfl, rfl, rfl, rfl, rfl, rfl, rfl, rfl, rfl, rfl, rfl, rfl⟩
  · obtain ⟨hl, -, hgo⟩ := exec_completed h ht
    have hdec : s.mode = .dec := of_decide_eq_true hl
    rcases decodeSymbol_completed hgo with ⟨hfind, rfl⟩ | ⟨sym, hfind, hne, -, rfl⟩
    · refine ⟨_, hfind, rfl, rfl, rfl, rfl, rfl, rfl, rfl, rfl, rfl, rfl, fun _ => ?_, fun hne => ?_⟩
      · exact ⟨rfl, rfl, rfl, rfl, rfl, rfl, rfl, rfl, rfl⟩
      · exact absurd rfl hne
    · refine ⟨sym, hfind, rfl, rfl, rfl, rfl, rfl, rfl, rfl, rfl, rfl, rfl, fun heq => ?_, fun _ => ?_⟩
      · exact absurd heq hne
      · exact ⟨hdec, rfl, rfl, rfl, fun hlt other => readFreq_update_other hlt⟩

/-! ### An exhausted source -/

theorem foldl_expandEnd_zero (p : Params) (tr : List Region) : tr.foldl (expandEnd p) 0 = 0 := by
  induction tr with
  | nil => rfl
  | cons r tr ih =>
    rw [List.foldl_cons, expandEnd, Nat.zero_sub, Nat.mul_zero, ih]

/-- Past the end of the source a `z` of 0 stays 0. -/
theorem traceZ_zero_past (p : Params) {src : List Bool} {pos : Nat} (h : src.length ≤ pos)
    (tr : List Region) : traceZ p src tr 0 pos = 0 := by
  induction tr with
  | nil => rfl
  | cons r tr ih => rw [traceZ, traceZ_past p h, Nat.zero_sub, sourceBit_past h, ih]

/-- Settles O38: the interval of symbol 0 begins at `low = 0`, so it contains `z = 0`, and from 0 every
region leads to 0. -/
theorem decodeOfAnExhaustedSourceNeverEnds : Obligations.DecodeOfAnExhaustedSourceNeverEnds := by
  unfold Obligations.DecodeOfAnExhaustedSourceNeverEnds
  intro s hi hm hio hend hlow hzero
  obtain ⟨-, ⟨hk, -⟩, -⟩ := s.cfg.valid_iff.1 (hi.valid (by simp [hm]))
  have hfirst : (narrowSym s 0).1 = 0 := (hi.narrowSym_zero (.inr hm)).trans hlow
  have hlt : (narrowSym s 0).1 < (narrowSym s 0).2 := hi.narrowSym_lt (.inr hm) (by omega)
  have hdata : 0 < s.cfg.eosSym := Nat.sub_pos_of_lt hk
  have hexec := hi.exec_dsym_data hm hdata (by rw [hzero]; omega) hio
  refine ⟨dsymState s 0, hexec, rfl, exec_inv hi hexec, hm, rfl, ?_, ?_, ?_, ?_⟩
  · exact readAhead_ioNeverFails hio (symbolTrace s 0).length
  · change max s.rpos (min s.source.length (s.rpos + (symbolTrace s 0).length)) = s.source.length
    omega
  · change (symbolTrace s 0).foldl (expandEnd s.cfg) (narrowSym s 0).1 = 0
    rw [hfirst, foldl_expandEnd_zero]
  · change traceZ s.cfg s.source (symbolTrace s 0) s.z s.rpos = 0
    rw [hzero, traceZ_zero_past _ hend.ge]

/-! ### Encoder and decoder -/

theorem narrowSym_congr {s t : State} (hlow : s.low = t.low) (hhigh : s.high = t.high)
    (hfreq : s.freq = t.freq) (htotal : s.total = t.total) (sym : Nat) :
    narrowSym s sym = narrowSym t sym := by
  simp only [narrowSym, hlow, hhigh, hfreq, htotal]

/-- The symbol a `DSYM` that stays in the session returned is the one it decoded. -/
theorem exec_dsym_stays {d d' : State} (hi : d.Inv) (h : exec .dsym d = .next d')
    (hm : d'.mode = .dec) : d' = dsymState d d'.result.toNat := by
  obtain ⟨hl, -, hgo⟩ := exec_completed h (by simp [hm])
  rcases decodeSymbol_completed hgo with ⟨-, rfl⟩ | ⟨sym, hfind, -, -, rfl⟩
  · cases hm
  · obtain ⟨-, ⟨-, hk⟩, -⟩ := d.cfg.valid_iff.1 (hi.valid (ne_fault_of_legalIn hl))
    have hlt := findSymbol_lt hfind
    have hresult : (dsymState d sym).result.toNat = sym := zext32_toNat (by omega)
    rw [hresult]

/-- Settles O52: both take the same narrowed interval through the same regions and update the same
model. -/
theorem encoderAndDecoderStayInLockstep : Obligations.EncoderAndDecoderStayInLockstep := by
  unfold Obligations.EncoderAndDecoderStayInLockstep
  intro e e' d d' sym _ hi _ _ hcfg hlow hhigh hfreq htotal he hm' hd hdm' hresult
  obtain ⟨-, -, hgo⟩ := exec_completed he (by simp [hm'])
  obtain ⟨-, -, hestate⟩ := encodeSymbol_eq_go hgo
  have hdstate := exec_dsym_stays hi hd hdm'
  have hnarrow := narrowSym_congr hlow hhigh hfreq htotal sym
  have htrace : symbolTrace e sym = symbolTrace d sym := by rw [symbolTrace, symbolTrace, hcfg, hnarrow]
  obtain ⟨hfreq', htotal'⟩ := update_congr sym hcfg hfreq htotal
  rw [hestate, hdstate, hresult]
  refine ⟨hcfg, ?_, ?_, hfreq', htotal'⟩
  · change (symbolTrace e sym).foldl (expandEnd e.cfg) _ = (symbolTrace d sym).foldl (expandEnd d.cfg) _
    rw [htrace, hcfg, hnarrow]
  · change (symbolTrace e sym).foldl (expandEnd e.cfg) _ = (symbolTrace d sym).foldl (expandEnd d.cfg) _
    rw [htrace, hcfg, hnarrow]

end Sys2Proof.Machine
end

section
/-! Rules over all commands: `MODE` and `EOS` after a completed command (R28, R204), how a fault is
entered (R199, R202), where an `IO` fault stops (R65, R193), and the queries repeated (R60). -/

namespace Sys2Proof.Machine

/-! ### `MODE` and `EOS` -/

/-- `MODE` and `EOS` after a completed command: the transitions R204 lists, with what R28 lists of `EOS`,
and every other command, which leaves both. -/
inductive StatusAfter (s t : State) : Instr → Prop
  | minit : t.mode = .idle → t.eos = false → StatusAfter s t .minit
  | einit : t.mode = .enc → t.eos = false → StatusAfter s t .einit
  | dinit : t.mode = .dec → t.eos = false → StatusAfter s t .dinit
  | eflush : t.mode = .done → t.eos = s.eos → StatusAfter s t .eflush
  | endOfStream : t.mode = .done → t.eos = true → StatusAfter s t .dsym
  | stays {i : Instr} : i ≠ .minit → i ≠ .einit → i ≠ .dinit → i ≠ .eflush →
      t.mode = s.mode → t.eos = s.eos → StatusAfter s t i

theorem ruleOf_go_status {i : Instr} {s t : State} (h : ruleOf i s = .go () t) : StatusAfter s t i := by
  cases i with
  | minit =>
    cases h
    exact .minit rfl rfl
  | einit =>
    cases h
    exact .einit rfl rfl
  | dinit =>
    rw [ruleOf_dinit_eq_go h]
    exact .dinit rfl rfl
  | eflush =>
    rw [terminateStream_eq_go h]
    exact .eflush rfl rfl
  | dsym =>
    rcases decodeSymbol_completed h with ⟨-, rfl⟩ | ⟨sym, -, -, -, rfl⟩
    · exact .endOfStream rfl rfl
    · exact .stays nofun nofun nofun nofun rfl rfl
  | esym sym =>
    obtain ⟨-, -, ht⟩ := encodeSymbol_eq_go h
    rw [ht]
    exact .stays nofun nofun nofun nofun rfl rfl
  | mcumb _ | mcume _ | mtotal =>
    cases h
    exact .stays nofun nofun nofun nofun rfl rfl
  | mupd sym =>
    cases h
    exact .stays nofun nofun nofun nofun (update_mode sym s) (update_eos sym s)

/-- Settles O42: a fault ends in `FAULT`, and a completed rule in the mode its command is listed with. -/
theorem modeTransitionsAreComplete : Obligations.ModeTransitionsAreComplete := by
  unfold Obligations.ModeTransitionsAreComplete
  refine ⟨fun i s t h => ?_, fun s t h => ?_⟩
  · rcases exec_ends h with hdiscard | ⟨hm, c, -, rfl⟩ | ⟨hl, -, c, u, -, rfl⟩ | ⟨hl, -, hgo⟩
    · exact .inl hdiscard
    · exact .inr ⟨hm, .inl rfl⟩
    · exact .inr ⟨ne_fault_of_legalIn hl, .inl rfl⟩
    · refine .inr ⟨ne_fault_of_legalIn hl, .inr ?_⟩
      cases ruleOf_go_status hgo with
      | minit hmode _ => exact .inl ⟨rfl, hmode⟩
      | einit hmode _ => exact .inr (.inl ⟨rfl, hmode⟩)
      | dinit hmode _ => exact .inr (.inr (.inl ⟨rfl, hmode⟩))
      | eflush hmode _ => exact .inr (.inr (.inr (.inl ⟨rfl, of_decide_eq_true hl, hmode⟩)))
      | endOfStream hmode heos =>
        exact .inr (.inr (.inr (.inr (.inl ⟨rfl, of_decide_eq_true hl, hmode, heos⟩))))
      | stays h1 h2 h3 h4 hmode _ =>
        exact .inr (.inr (.inr (.inr (.inr ⟨h1, h2, h3, h4, hmode⟩))))
  · cases h
    refine ⟨fun hp => ?_, fun hp => ?_⟩
    · rw [resetEngine_of_valid hp]
    · rw [resetEngine_of_invalid hp]

/-! ### Faults -/

theorem State.Interrupted.eos {s t : State} (h : s.Interrupted t) : t.eos = s.eos := by
  obtain ⟨sent, ht⟩ := h
  rw [ht]

theorem State.Interrupted.out {s t : State} (h : s.Interrupted t) :
    ∃ sent : List Bool, t.out = s.out ++ sent.map .bit := by
  obtain ⟨sent, ht⟩ := h
  exact ⟨sent, by rw [ht]⟩

/-- How a command ends in `FAULT`: with a precise fault in the state it found, or with an imprecise one
its rule raised (R199, R202). -/
theorem exec_faults {i : Instr} {s t : State} (hm : s.mode ≠ .fault) (h : exec i s = .next t)
    (ht : t.mode = .fault) :
    ∃ c u, t = enterFault c (encode i) u ∧
      ((u = s ∧ (c = .sequence ∨ c = .modelRange ∨ c = .invariant)) ∨
        (c.imprecise = true ∧ ruleOf i s = .raised c u)) := by
  rcases exec_ends h with ⟨hm', -⟩ | ⟨-, c, hc, rfl⟩ | ⟨-, -, c, u, hu, rfl⟩ | ⟨-, -, hgo⟩
  · exact absurd hm' hm
  · refine ⟨c, s, ?_, .inl ⟨rfl, ?_⟩⟩
    · exact (enterFault_precise c _ s (by rcases hc with rfl | rfl <;> rfl)).symm
    · exact hc.imp_right .inl
  · refine ⟨c, u, rfl, ?_⟩
    rcases ruleOf_raised hu with himp | ⟨rfl, rfl⟩
    · exact .inr ⟨himp, hu⟩
    · exact .inl ⟨rfl, .inr (.inr rfl)⟩
  · obtain ⟨hrun, -⟩ := ruleOf_go hm hgo
    exact absurd ht hrun

/-- Settles O43: `enterFault` writes the three, and before it only bits were sent. -/
theorem faultEntryRecordsTheCommand : Obligations.FaultEntryRecordsTheCommand := by
  unfold Obligations.FaultEntryRecordsTheCommand
  intro i s t hm h ht
  obtain ⟨c, u, rfl, hend⟩ := exec_faults hm h ht
  have hc : c ≠ .none ∧ c ≠ .modelConfig ∧ c ≠ .illegalCmd := by
    rcases hend with ⟨-, rfl | rfl | rfl⟩ | ⟨himp, -⟩
    · exact ⟨nofun, nofun, nofun⟩
    · exact ⟨nofun, nofun, nofun⟩
    · exact ⟨nofun, nofun, nofun⟩
    · refine ⟨?_, ?_, ?_⟩ <;> rintro rfl <;> cases himp
  have hu : s.Interrupted u := by
    rcases hend with ⟨rfl, -⟩ | ⟨-, hraised⟩
    · exact .refl _
    · exact ruleOf_interrupted hraised
  obtain ⟨hcfg, hinputs, hresponses, hsource, hfail⟩ := enterFault_sameFixed c (encode i) hu.sameFixed
  obtain ⟨hnone, hconfig, hillegal⟩ := hc
  exact ⟨rfl, (enterFault_eos _ _ _).trans hu.eos, hnone, hconfig, hillegal,
    by rw [enterFault_out]; exact hu.out, hcfg, hinputs, hresponses, hsource, hfail⟩

/-- Settles O44: only `IO` and `PENDING_OVF` are imprecise; the others are taken in the state the command
found. -/
theorem preciseFaultsChangeNothingElse : Obligations.PreciseFaultsChangeNothingElse := by
  unfold Obligations.PreciseFaultsChangeNothingElse
  intro i s t hm h ht hio hovf
  obtain ⟨c, u, rfl, ⟨rfl, hc⟩ | ⟨himp, -⟩⟩ := exec_faults hm h ht
  · exact ⟨hc, enterFault_precise c _ _ (by rcases hc with rfl | rfl | rfl <;> rfl)⟩
  · rw [enterFault_cause] at hio hovf
    cases c <;> simp [Cause.imprecise] at himp hio hovf

/-- Settles O50: a fault keeps `EOS`, and a completed rule writes it as its command is listed. -/
theorem eosBitIsWrittenAsListed : Obligations.EosBitIsWrittenAsListed := by
  unfold Obligations.EosBitIsWrittenAsListed
  intro i s t h
  rcases exec_ends h with ⟨hm, rfl⟩ | ⟨-, c, -, rfl⟩ | ⟨-, -, c, u, hu, rfl⟩ | ⟨hl, -, hgo⟩
  · exact ⟨.inl, fun _ ht => absurd hm ht, fun _ _ _ heos => heos⟩
  · exact ⟨.inl, fun _ ht => absurd rfl ht, fun _ _ _ heos => heos⟩
  · rw [enterFault_eos, (ruleOf_interrupted hu).eos]
    exact ⟨.inl, fun _ ht => absurd rfl ht, fun _ _ _ heos => heos⟩
  · cases ruleOf_go_status hgo with
    | minit _ heos =>
      rw [heos]
      exact ⟨nofun, fun _ _ => rfl, fun hne => absurd rfl hne⟩
    | einit _ heos =>
      rw [heos]
      exact ⟨nofun, fun _ _ => rfl, fun _ hne => absurd rfl hne⟩
    | dinit _ heos =>
      rw [heos]
      exact ⟨nofun, fun _ _ => rfl, fun _ _ hne => absurd rfl hne⟩
    | eflush _ heos =>
      rw [heos]
      exact ⟨.inl, nofun, fun _ _ _ => id⟩
    | endOfStream hmode heos =>
      exact ⟨fun _ => .inr ⟨rfl, of_decide_eq_true hl, hmode⟩, nofun, fun _ _ _ _ => heos⟩
    | stays h1 h2 h3 _ _ heos =>
      have hne : ¬ (i = .minit ∨ i = .einit ∨ i = .dinit) := by simp [h1, h2, h3]
      rw [heos]
      exact ⟨.inl, fun hi => absurd hi hne, fun _ _ _ => id⟩

/-! ### `IO` -/

/-- The first operation to fail is number `n` of the command, and it is the last one made (R65). -/
def State.FailsAt (s u : State) (n : Nat) : Prop :=
  u.ioOps = s.ioOps + n + 1 ∧ s.ioOps + n ∈ s.ioFail ∧ ∀ j, j < n → s.ioOps + j ∉ s.ioFail

theorem encodeSymbol_raised_io {sym : Nat} {s u : State} (h : encodeSymbol sym s = .raised .io u) :
    ∃ n, s.FailsAt u n ∧ n < (traceBits (symbolTrace s sym) s.pending.toNat).length ∧
      u.out = s.out ++ ((traceBits (symbolTrace s sym) s.pending.toNat).take n).map .bit ∧
      u.rpos = s.rpos := by
  rcases encodeSymbol_cases sym s with ⟨-, he⟩ | ⟨-, -, -, -, -, he⟩ |
    ⟨-, sent, v, hpre, hlen, -, hfail, hok, he, hv⟩ | ⟨-, _, _, -, -, -, -, he, -⟩ | ⟨-, -, he⟩ <;>
    cases he.symm.trans h
  refine ⟨sent.length, ⟨by rw [hv], hfail, hok⟩, hlen, ?_, by rw [hv]⟩
  rw [hv]
  exact congrArg (fun bits => s.out ++ List.map SinkEvent.bit bits) (List.prefix_iff_eq_take.1 hpre)

theorem terminateStream_raised_io {s u : State} (h : terminateStream s = .raised .io u) :
    ∃ n, s.FailsAt u n ∧ n ≤ (flushBits s).length ∧
      u.out = s.out ++ ((flushBits s).take n).map .bit ∧ u.rpos = s.rpos := by
  rcases terminateStream_cases s with ⟨-, he⟩ | ⟨-, -, he⟩ | ⟨-, sent, v, hpre, hfail, hok, he, hv⟩ <;>
    cases he.symm.trans h
  refine ⟨sent.length, ⟨by rw [hv], hfail, hok⟩, hpre.length_le, ?_, by rw [hv]⟩
  rw [hv]
  exact congrArg (fun bits => s.out ++ List.map SinkEvent.bit bits) (List.prefix_iff_eq_take.1 hpre)

/-- A stop in the source, whatever registers the command had written before. -/
theorem DecStops.failsAt {s u : State} {f : FreqTable} {total low high z m : Nat} {pending : BitVec 32}
    {c : Cause} (h : DecStops m { s with
      freq := f, total := total, low := low, high := high, z := z, pending := pending }
      (.raised c u)) :
    ∃ n, s.FailsAt u n ∧ u.out = s.out ∧
      u.rpos = max s.rpos (min s.source.length (s.rpos + n / 2)) := by
  obtain ⟨v, hx, hlt, -, hfail, hok, hrpos, hv⟩ := h
  cases hx
  dsimp only at hlt hfail hok hrpos
  have hlast : s.ioOps + (u.ioOps - s.ioOps - 1) = u.ioOps - 1 := by omega
  exact ⟨u.ioOps - s.ioOps - 1, ⟨by omega, hlast ▸ hfail, fun j hj => hok _ (by omega) (by omega)⟩,
    by rw [hv], hrpos⟩

theorem ruleOf_dinit_raised {s u : State} {c : Cause} (h : ruleOf .dinit s = .raised c u) :
    c = .io ∧ ∃ n, s.FailsAt u n ∧ u.out = s.out ∧
      u.rpos = max s.rpos (min s.source.length (s.rpos + n / 2)) := by
  rcases ruleOf_dinit_cases s with ⟨-, he⟩ | hstop
  · cases he.symm.trans h
  · rw [h] at hstop
    have ⟨_, hx, _⟩ := hstop
    exact ⟨(Flow.raised.inj hx).1, DecStops.failsAt (s := s) hstop⟩

theorem decodeSymbol_raised_io {s u : State} (h : decodeSymbol s = .raised .io u) :
    ∃ n, s.FailsAt u n ∧ u.out = s.out ∧
      u.rpos = max s.rpos (min s.source.length (s.rpos + n / 2)) := by
  rcases decodeSymbol_cases s with ⟨-, he⟩ | ⟨-, he⟩ | ⟨_, -, -, ⟨-, -, he⟩ | hstop | ⟨-, he⟩⟩
  · cases he.symm.trans h
  · cases he.symm.trans h
  · cases he.symm.trans h
  · rw [h] at hstop
    exact DecStops.failsAt (s := s) hstop
  · cases he.symm.trans h

/-- From inside the source the position stays inside it. -/
theorem rpos_eq_min {s u : State} {n : Nat}
    (h : u.rpos = max s.rpos (min s.source.length (s.rpos + n / 2))) :
    s.rpos ≤ s.source.length → u.rpos = min s.source.length (s.rpos + n / 2) := by
  omega

/-- A `DINIT` whose first operation fails stops there. -/
theorem ruleOf_dinit_first_fails {s : State} (hp : s.cfg.valid = true) (hfail : s.ioOps ∈ s.ioFail) :
    ∃ u, ruleOf .dinit s = .raised .io u ∧ u.rpos = s.rpos := by
  obtain ⟨⟨hP, -⟩, -⟩ := s.cfg.valid_iff.1 hp
  rcases ruleOf_dinit_cases s with ⟨hok, -⟩ | ⟨u, he, -⟩
  · refine absurd hfail (hok _ le_rfl ?_)
    simp only [State.readAhead]
    omega
  · obtain ⟨-, n, ⟨-, -, hbefore⟩, -, hrpos⟩ := ruleOf_dinit_raised he
    obtain rfl : n = 0 := by
      by_contra hn
      exact hbefore 0 (Nat.pos_of_ne_zero hn) hfail
    exact ⟨u, he, by omega⟩

/-- Settles O45: each rule that raises `IO` stops at its first failing operation. -/
theorem ioFaultStopsAtTheFirstFailure : Obligations.IoFaultStopsAtTheFirstFailure := by
  unfold Obligations.IoFaultStopsAtTheFirstFailure
  refine ⟨fun i s t hm h ht hio => ?_, fun s hp hm hfail => ?_⟩
  · obtain ⟨c, u, rfl, hend⟩ := exec_faults hm h ht
    obtain rfl : c = .io := hio
    have hraised : ruleOf i s = .raised .io u := by
      rcases hend with ⟨-, hc | hc | hc⟩ | ⟨-, hraised⟩
      · cases hc
      · cases hc
      · cases hc
      · exact hraised
    rw [enterFault_ioOps, enterFault_out, enterFault_rpos]
    cases i with
    | minit | mcumb _ | mcume _ | mtotal | mupd _ | einit => cases hraised
    | esym sym =>
      obtain ⟨n, ⟨hops, hfail, hok⟩, hlt, hout, hrpos⟩ := encodeSymbol_raised_io hraised
      refine ⟨.inl ⟨sym, rfl⟩, n, hops, hfail, hok, ?_, nofun, nofun⟩
      rintro _ ⟨⟩
      exact ⟨hlt, hout, hrpos⟩
    | eflush =>
      obtain ⟨n, ⟨hops, hfail, hok⟩, hle, hout, hrpos⟩ := terminateStream_raised_io hraised
      exact ⟨.inr (.inl rfl), n, hops, hfail, hok, nofun, fun _ => ⟨hle, hout, hrpos⟩, nofun⟩
    | dinit =>
      obtain ⟨-, n, ⟨hops, hfail, hok⟩, hout, hrpos⟩ := ruleOf_dinit_raised hraised
      exact ⟨.inr (.inr (.inl rfl)), n, hops, hfail, hok, nofun, nofun,
        fun _ => ⟨hout, rpos_eq_min hrpos⟩⟩
    | dsym =>
      obtain ⟨n, ⟨hops, hfail, hok⟩, hout, hrpos⟩ := decodeSymbol_raised_io hraised
      exact ⟨.inr (.inr (.inr rfl)), n, hops, hfail, hok, nofun, nofun,
        fun _ => ⟨hout, rpos_eq_min hrpos⟩⟩
  · obtain ⟨u, hraised, hrpos⟩ := ruleOf_dinit_first_fails hp hfail
    exact ⟨_, exec_of_raised (i := .dinit) ((Mode.running_iff _).2 hm) rfl hraised, rfl, rfl,
      (enterFault_rpos _ _ _).trans hrpos⟩

/-! ### The queries -/

/-- Settles O19: a query that ended in `FAULT` is discarded there, and one that completed writes the value
already in `RESULT`. -/
theorem modelQueriesAreIdempotent : Obligations.ModelQueriesAreIdempotent := by
  unfold Obligations.ModelQueriesAreIdempotent
  intro i s t hi h
  rcases exec_ends h with ⟨hm, rfl⟩ | ⟨-, c, -, rfl⟩ | ⟨-, -, c, u, -, rfl⟩ | ⟨hl, hr, hgo⟩
  · exact h
  · exact exec_in_fault rfl
  · exact exec_in_fault rfl
  · rcases hi with ⟨sym, rfl⟩ | ⟨sym, rfl⟩ | rfl
    · cases hgo
      exact exec_eq_finish (i := .mcumb sym) hl hr
    · cases hgo
      exact exec_eq_finish (i := .mcume sym) hl hr
    · cases hgo
      exact exec_eq_finish (i := .mtotal) hl hr

end Sys2Proof.Machine
end
